-- ==== Sys2Proof/Word.lean ====
section
/-! DEFINITION. The machine's word types (00_scope.md R9, R10). -/

namespace Sys2Proof

/-- A bus word and a command word: 32 bits (00_scope.md R9; 30_encoding.md R100). -/
abbrev Word := BitVec 32

/-- A byte of the octet buffer (10_state.md R32). -/
abbrev Byte := BitVec 8

/-- The contents of a field register, or of a point coordinate: FW = 521 bits (00_scope.md R9;
10_state.md R30, R31). -/
abbrev FieldWord := BitVec 521

/-- A bus word address, `addr[15:2]` (20_memory.md R70). -/
abbrev WordAddr := BitVec 14

end Sys2Proof
end

