-- ==== Sys2Proof/Config.lean ====
section
/-! DEFINITION. What an implementation fixes, and the free values: the shape of a registry entry, the
latency parameter LAT and the values the spec leaves unspecified. -/

namespace Sys2Proof.Config

/-- A mapping-algorithm identifier of the registry (10_state.md R43). The spec's two entries both hold
`sswu`; `other` stands for any identifier that is not SSWU, so that the dispatch test of
42_hash_to_curve.md R200 has a case to fail on. -/
inductive MappingId where
  | sswu
  | other
deriving DecidableEq, Repr

/-- The hash a registry entry names (10_state.md R43). Both entries name SHA-512. -/
inductive HashId where
  | sha512
deriving DecidableEq, Repr

/-- A present entry of the curve parameter registry (10_state.md R43). `a`, `b` and `z` are residues
in `[0, p)`. -/
structure Curve where
  /-- the prime modulus -/
  p : Nat
  /-- the coefficient A of `Y^2 = X^3 + A*X + B` -/
  a : Nat
  /-- the coefficient B -/
  b : Nat
  /-- the group order -/
  n : Nat
  /-- the cofactor -/
  h : Nat
  /-- the hash H -/
  hash : HashId
  /-- the domain-separation tag -/
  dst : List Byte
  /-- field elements per draw -/
  m : Nat
  /-- bytes per element -/
  l : Nat
  /-- the mapping id -/
  mapping : MappingId
  /-- the SSWU non-square constant -/
  z : Nat
  /-- the base point's X -/
  gx : Nat
  /-- the base point's Y -/
  gy : Nat
deriving DecidableEq, Repr

/-- The parameters DST_0 and DST_1, the domain-separation tags of the registry's entries 0 and 1: octet
strings of any length, fixed for the unit (42_hash_to_curve.md R202; 92 D17; 93 U9). -/
structure Tags where
  dst0 : List Byte
  dst1 : List Byte
deriving DecidableEq, Repr

/-- LAT less one, so that LAT is positive whatever this is: a function of the opcode, the curve id and,
for H2B and H2C only, MSGLEN (70_reset_and_hazards.md R271, R272; 92 D34). Opaque: nothing can
evaluate it (log 6). -/
opaque latency (opcode : BitVec 6) (curve : BitVec 4) (msglen : Nat) : Nat

/-- The latency less one of a command that completes with an error, for the draw `n`: unspecified, any
positive number of cycles (70_reset_and_hazards.md R274; 93 U8). A free value (log 7). -/
opaque errorLatency (n : Nat) : Nat

/-- The unspecified 32-bit value of the draw `n`: a read of a data window while BUSY = 1, or of any
offset but ID under hard reset (20_memory.md R81; 70_reset_and_hazards.md R263; 93 U5, U6; log 4). -/
opaque freeWord (n : Nat) : Word

/-- What field register `i` holds after the reset of draw `n` (70_reset_and_hazards.md R261; 93 U1;
log 2). -/
opaque freeField (n : Nat) (i : Nat) : FieldWord

/-- What coordinate X of point register `k` holds after the reset of draw `n` (93 U2; log 2). -/
opaque freeX (n : Nat) (k : Nat) : FieldWord

/-- What coordinate Y of point register `k` holds after the reset of draw `n` (93 U2; log 2). -/
opaque freeY (n : Nat) (k : Nat) : FieldWord

/-- What the INF bit of point register `k` holds after the reset of draw `n` (93 U2; log 2). -/
opaque freeInf (n : Nat) (k : Nat) : Bool

/-- What `BUF[a]` holds after the reset of draw `n` (93 U3; log 2). -/
opaque freeByte (n : Nat) (a : Nat) : Byte

end Sys2Proof.Config
end

