-- ==== Sys2Proof/Machine/Arith.lean ====
section
/-! DEFINITION. Integer and field arithmetic: reduction modulo p, powers, the sign and square tests, the
blend, the derived curve constants, and the octet-string conversions (00_scope.md R11 to R15;
10_state.md R46). -/

namespace Sys2Proof.Machine

open Sys2Proof.Config

/-- `x mod p`: the non-negative remainder in `[0, p)`, also for negative `x` (00_scope.md R11). -/
def modP (p : Nat) (x : Int) : Nat := (x % (p : Int)).toNat

/-- The square-and-multiply loop: `acc * b^e mod p` when `e < 2^fuel`. -/
def powLoop (p : Nat) : Nat → Nat → Nat → Nat → Nat
  | 0, _, _, acc => acc
  | fuel + 1, b, e, acc =>
    powLoop p fuel (b * b % p) (e / 2) (if e % 2 = 1 then acc * b % p else acc)

/-- `x^e mod p`, with `x^0 = 1` for every `x` (00_scope.md R12; 40_field.md R140). Computed by squaring;
`powMod_eq` of Laws says that it is the remainder of the mathematical power. -/
def powMod (p x e : Nat) : Nat := powLoop p (e.log2 + 1) (x % p) e (1 % p)

/-- `EXP_SQ = (p-1)/2` (10_state.md R46). -/
def expSq (p : Nat) : Nat := (p - 1) / 2

/-- `EXP_SQRT = (p+1)/4` (10_state.md R46). -/
def expSqrt (p : Nat) : Nat := (p + 1) / 4

/-- `EXP_INV = p - 2` (10_state.md R46). -/
def expInv (p : Nat) : Nat := p - 2

/-- inverseOrZero: `x^(p-2) mod p`, the inverse of a non-zero `x` and 0 for 0 (40_field.md R139). It is
also the `inv` of 00_scope.md R12 (log 11). -/
def invP (p x : Nat) : Nat := powMod p x (expInv p)

/-- `is_square(x)`: `x^((p-1)/2) mod p` is 0 or 1 (00_scope.md R15). -/
def isSquare (p x : Nat) : Bool :=
  let t := powMod p x (expSq p)
  t == 0 || t == 1

/-- The root `x^((p+1)/4) mod p` (40_field.md R142). -/
def sqrtP (p x : Nat) : Nat := powMod p x (expSqrt p)

/-- `sgn(x)`: -1 when `x > (p-1)/2`, else +1 (00_scope.md R14). -/
def sgn (p x : Nat) : Int := if x > (p - 1) / 2 then -1 else 1

/-- `CMOV(a, b, c)`: the arithmetic blend `(c*b + (1-c)*a) mod p`, for every `c` (40_field.md R147). -/
def cmov (p a b c : Nat) : Nat := modP p ((c : Int) * b + (1 - (c : Int)) * a)

/-- A truth value as the field element 1 or 0 (10_state.md R50). -/
def ofTruth (t : Bool) : Nat := if t then 1 else 0

/-- `g(x) = (x^3 + A*x + B) mod p` (00_scope.md R12). -/
def curveRhs (E : Curve) (x : Nat) : Nat := modP E.p ((x : Int) ^ 3 + E.a * x + E.b)

/-- `(y^2 - (x^3 + A*x + B)) mod p = 0`, the curve equation (10_state.md R53; 42_hash_to_curve.md
R209). -/
def onCurve (E : Curve) (x y : Nat) : Bool :=
  modP E.p ((y : Int) ^ 2 - ((x : Int) ^ 3 + E.a * x + E.b)) == 0

/-- `c1 = (-B * inv(A)) mod p` (10_state.md R46). -/
def curveC1 (E : Curve) : Nat := modP E.p (-(E.b : Int) * invP E.p E.a)

/-- `c2 = (-inv(Z)) mod p` (10_state.md R46). -/
def curveC2 (E : Curve) : Nat := modP E.p (-(invP E.p E.z : Int))

/-- `I2OSP(x, n)` (encodeInt): byte `j` is `(x >> 8*(n-1-j)) & 0xFF`, the first byte the most
significant (00_scope.md R13; 20_memory.md R76). -/
def i2osp (x n : Nat) : List Byte :=
  (List.range n).map fun j => BitVec.ofNat 8 (x >>> (8 * (n - 1 - j)))

/-- `OS2IP(s)` (decodeInt): the sum of `s[j] * 2^(8*(len(s)-1-j))`, 0 for the empty string
(00_scope.md R13). -/
def os2ip : List Byte → Nat
  | [] => 0
  | b :: t => b.toNat * 2 ^ (8 * t.length) + os2ip t

end Sys2Proof.Machine
end

