-- ==== Sys2Proof/Syntax.lean ====
section
/-! DEFINITION. The 33 commands (30_encoding.md R113), one constructor per row of
spec/opcode_table.json, and the pseudo-instructions of R120. -/

namespace Sys2Proof

/-- The index of a field register, F0..F15 (30_encoding.md R107). -/
abbrev FReg := Fin 16

/-- The index of a point register, P0..P7. The fourth bit of a P-typed field must be 0, so it is not
part of an instruction (30_encoding.md R107). -/
abbrev PReg := Fin 8

/-- The constant FLDC's `sel` names: 0..8 in this order (30_encoding.md R112). -/
inductive CurveConst where
  | a | b | z | c1 | c2 | h | n | gx | gy
deriving DecidableEq, Repr

/-- A command. Operands stand in field order d, a, b, c (30_encoding.md R102 to R106, R119). -/
inductive Instr where
  /-- 40_field.md R131 -/
  | nop
  /-- 40_field.md R132 -/
  | fmov (d a : FReg)
  /-- 40_field.md R133 -/
  | fldi (d : FReg) (imm : BitVec 22)
  /-- 40_field.md R134 -/
  | fadd (d a b : FReg)
  /-- 40_field.md R135 -/
  | fsub (d a b : FReg)
  /-- 40_field.md R136 -/
  | fmul (d a b : FReg)
  /-- 40_field.md R137 -/
  | fsqr (d a : FReg)
  /-- 40_field.md R138 -/
  | fneg (d a : FReg)
  /-- 40_field.md R139 -/
  | finv (d a : FReg)
  /-- 40_field.md R140 -/
  | fpow (d a b : FReg)
  /-- 40_field.md R141 -/
  | fissq (d a : FReg)
  /-- 40_field.md R142 -/
  | fsqrt (d a : FReg)
  /-- 40_field.md R145 -/
  | fsgn (d a : FReg)
  /-- 40_field.md R144 -/
  | feq (d a b : FReg)
  /-- 40_field.md R147 -/
  | fcsel (d a b c : FReg)
  /-- 40_field.md R148 -/
  | fldc (d : FReg) (sel : CurveConst)
  /-- 40_field.md R149 -/
  | fenc (r : FReg) (off : BitVec 10) (len : BitVec 8)
  /-- 40_field.md R150 -/
  | fdec (r : FReg) (off : BitVec 10) (len : BitVec 8)
  /-- 41_point.md R172 -/
  | padd (d a b : PReg)
  /-- 41_point.md R173 -/
  | pdbl (d a : PReg)
  /-- 41_point.md R174 -/
  | pvalid (d : FReg) (a : PReg)
  /-- 41_point.md R176 -/
  | pclr (d a : PReg)
  /-- 41_point.md R177 -/
  | pmul (d a : PReg) (b : FReg)
  /-- 41_point.md R178 -/
  | pmk (d : PReg) (a b : FReg)
  /-- 41_point.md R179 -/
  | px (d : FReg) (a : PReg)
  /-- 41_point.md R180 -/
  | py (d : FReg) (a : PReg)
  /-- 41_point.md R181 -/
  | pinf (d : PReg)
  /-- 41_point.md R182 -/
  | pisinf (d : FReg) (a : PReg)
  /-- 41_point.md R183 -/
  | pmov (d a : PReg)
  /-- 41_point.md R184 -/
  | peq (d : FReg) (a b : PReg)
  /-- 42_hash_to_curve.md R204 -/
  | h2b (d : FReg) (ctr : BitVec 1)
  /-- 42_hash_to_curve.md R209 -/
  | sswu (d : PReg) (a : FReg)
  /-- 42_hash_to_curve.md R210 -/
  | h2c (d : PReg)
deriving DecidableEq, Repr

/-- The mnemonic of the instruction's row (30_encoding.md R113). -/
def Instr.mnemonic : Instr → String
  | .nop => "NOP"
  | .fmov _ _ => "FMOV"
  | .fldi _ _ => "FLDI"
  | .fadd _ _ _ => "FADD"
  | .fsub _ _ _ => "FSUB"
  | .fmul _ _ _ => "FMUL"
  | .fsqr _ _ => "FSQR"
  | .fneg _ _ => "FNEG"
  | .finv _ _ => "FINV"
  | .fpow _ _ _ => "FPOW"
  | .fissq _ _ => "FISSQ"
  | .fsqrt _ _ => "FSQRT"
  | .fsgn _ _ => "FSGN"
  | .feq _ _ _ => "FEQ"
  | .fcsel _ _ _ _ => "FCSEL"
  | .fldc _ _ => "FLDC"
  | .fenc _ _ _ => "FENC"
  | .fdec _ _ _ => "FDEC"
  | .padd _ _ _ => "PADD"
  | .pdbl _ _ => "PDBL"
  | .pvalid _ _ => "PVALID"
  | .pclr _ _ => "PCLR"
  | .pmul _ _ _ => "PMUL"
  | .pmk _ _ _ => "PMK"
  | .px _ _ => "PX"
  | .py _ _ => "PY"
  | .pinf _ => "PINF"
  | .pisinf _ _ => "PISINF"
  | .pmov _ _ => "PMOV"
  | .peq _ _ _ => "PEQ"
  | .h2b _ _ => "H2B"
  | .sswu _ _ => "SSWU"
  | .h2c _ => "H2C"

/-- `FZERO fd` (30_encoding.md R120). -/
def Instr.fzero (d : FReg) : Instr := .fldi d 0#22

/-- `FONE fd` (30_encoding.md R120). -/
def Instr.fone (d : FReg) : Instr := .fldi d 1#22

/-- `FMONE fd` (30_encoding.md R120): the immediate is -1. -/
def Instr.fmone (d : FReg) : Instr := .fldi d (BitVec.ofInt 22 (-1))

/-- `FCMOV fd, fa, fc` (30_encoding.md R120). -/
def Instr.fcmov (d a c : FReg) : Instr := .fcsel d d a c

end Sys2Proof
end

