-- ==== Sys2Proof/WellFormed.lean ====
section
/-! DEFINITION. The checks an instruction must pass beyond its operands' types. Register indices, the
selector and the counter are bounded by their types; the one relation between two operands is the
buffer range. -/

namespace Sys2Proof

/-- `off + len <= 1024`, so that a command touches only `BUF[off .. off+len-1]`
(30_encoding.md R110). -/
def bufRangeOk (off : BitVec 10) (len : BitVec 8) : Bool :=
  decide (off.toNat + len.toNat ≤ 1024)

/-- An instruction is well formed when its word is legal (30_encoding.md R110, R113, R114): FENC and
FDEC keep to the buffer, and every other operand is in range by its type. -/
def Instr.wellFormed : Instr → Bool
  | .fenc _ off len => bufRangeOk off len
  | .fdec _ off len => bufRangeOk off len
  | .nop => true
  | .fmov _ _ => true
  | .fldi _ _ => true
  | .fadd _ _ _ => true
  | .fsub _ _ _ => true
  | .fmul _ _ _ => true
  | .fsqr _ _ => true
  | .fneg _ _ => true
  | .finv _ _ => true
  | .fpow _ _ _ => true
  | .fissq _ _ => true
  | .fsqrt _ _ => true
  | .fsgn _ _ => true
  | .feq _ _ _ => true
  | .fcsel _ _ _ _ => true
  | .fldc _ _ => true
  | .padd _ _ _ => true
  | .pdbl _ _ => true
  | .pvalid _ _ => true
  | .pclr _ _ => true
  | .pmul _ _ _ => true
  | .pmk _ _ _ => true
  | .px _ _ => true
  | .py _ _ => true
  | .pinf _ => true
  | .pisinf _ _ => true
  | .pmov _ _ => true
  | .peq _ _ _ => true
  | .h2b _ _ => true
  | .sswu _ _ => true
  | .h2c _ => true

end Sys2Proof
end

