-- ==== Sys2Proof/Decode.lean ====
section
/-! DEFINITION. The command encoding of 30_encoding.md: the decoder, total on every 32-bit word and
rejecting by name, and the encoder. -/

namespace Sys2Proof

/-- Why a word is illegal, in the order in which the checks are made (30_encoding.md R114). -/
inductive Illegal where
  /-- the opcode is reserved: info 8 -/
  | reservedOpcode
  /-- a must-be-zero bit is 1: info 9 -/
  | mustBeZero
  /-- a P-typed field has bit 3 set: info 10 -/
  | pointIndex
  /-- FLDC with `sel >= 9`: info 11 -/
  | constSelector
  /-- FENC or FDEC with `off + len > 1024`: info 12 -/
  | bufferRange
deriving DecidableEq, Repr

/-- The info code of each check (30_encoding.md R114; 60_exceptions.md R234). -/
def Illegal.info : Illegal → BitVec 4
  | .reservedOpcode => 8#4
  | .mustBeZero => 9#4
  | .pointIndex => 10#4
  | .constSelector => 11#4
  | .bufferRange => 12#4

/-! ### The fields of a word (30_encoding.md R100 to R106) -/

/-- `w[31:26]` -/
def opcodeOf (w : Word) : BitVec 6 := w.extractLsb' 26 6

/-- The field d (or r of format B), `w[25:22]`. -/
def fieldD (w : Word) : BitVec 4 := w.extractLsb' 22 4

/-- The field a (or sel of format C), `w[21:18]`. -/
def fieldA (w : Word) : BitVec 4 := w.extractLsb' 18 4

/-- The field b, `w[17:14]`. -/
def fieldB (w : Word) : BitVec 4 := w.extractLsb' 14 4

/-- The field c, `w[13:10]`. -/
def fieldC (w : Word) : BitVec 4 := w.extractLsb' 10 4

/-- `imm22 = w[21:0]` of format I. -/
def fieldImm (w : Word) : BitVec 22 := w.extractLsb' 0 22

/-- `off = w[21:12]` of format B. -/
def fieldOff (w : Word) : BitVec 10 := w.extractLsb' 12 10

/-- `len = w[11:4]` of format B. -/
def fieldLen (w : Word) : BitVec 8 := w.extractLsb' 4 8

/-- `ctr = w[21]` of format H. -/
def fieldCtr (w : Word) : BitVec 1 := w.extractLsb' 21 1

/-- Are the low `n` bits of the word, the must-be-zero bits of its form, all 0? In every form of
30_encoding.md R113 the must-be-zero bits of R108 are the lowest ones. -/
def lowZero (n : Nat) (w : Word) : Bool := w.extractLsb' 0 n == 0#n

/-- The F register a field names (30_encoding.md R107). -/
def fReg (x : BitVec 4) : FReg := x.toFin

/-- The P register a field names, where bit 3 of the field is 0 (30_encoding.md R107). -/
def pReg (x : BitVec 4) : PReg := (x.setWidth 3).toFin

/-- Bit 3 of a P-typed field is 0 (30_encoding.md R107). -/
def pOk (x : BitVec 4) : Bool := !x.msb

/-- The constant a selector names, for 0..8 (30_encoding.md R112). -/
def constOf (x : BitVec 4) : Option CurveConst :=
  if x = 0#4 then some .a else if x = 1#4 then some .b else if x = 2#4 then some .z
  else if x = 3#4 then some .c1 else if x = 4#4 then some .c2 else if x = 5#4 then some .h
  else if x = 6#4 then some .n else if x = 7#4 then some .gx else if x = 8#4 then some .gy
  else none

/-! ### The decoder -/

/-- Reject with `e` unless the check holds. -/
def check (ok : Bool) (e : Illegal) (i : Except Illegal Instr) : Except Illegal Instr :=
  if ok then i else .error e

/-- A form whose fields are all F-typed: only the `n` low bits are checked. -/
def decodeF (n : Nat) (w : Word) (i : Instr) : Except Illegal Instr :=
  check (lowZero n w) .mustBeZero (.ok i)

/-- A form with P-typed fields: the `n` low bits are checked first, then the P-typed fields
(30_encoding.md R114, checks 2 and 3). -/
def decodeP (n : Nat) (w : Word) (ps : List (BitVec 4)) (i : Instr) : Except Illegal Instr :=
  check (lowZero n w) .mustBeZero (check (ps.all pOk) .pointIndex (.ok i))

/-- Format C: the low bits, then the selector (30_encoding.md R104, R112, R114). -/
def decodeC (w : Word) : Except Illegal Instr :=
  check (lowZero 18 w) .mustBeZero
    (match constOf (fieldA w) with
     | some k => .ok (.fldc (fReg (fieldD w)) k)
     | none => .error .constSelector)

/-- Format B: the low bits, then the buffer range (30_encoding.md R105, R110, R114). -/
def decodeB (w : Word) (i : Instr) : Except Illegal Instr :=
  check (lowZero 4 w) .mustBeZero
    (check (bufRangeOk (fieldOff w) (fieldLen w)) .bufferRange (.ok i))

/-- The instruction a command word is, or why it is illegal: opcode first, then the fields of the
opcode's format, with the checks in the order of R114 (30_encoding.md R100, R113, R114, R116). -/
def decode (w : Word) : Except Illegal Instr :=
  let op := opcodeOf w
  let d := fieldD w
  let a := fieldA w
  let b := fieldB w
  let c := fieldC w
  if op = 0x00#6 then decodeF 26 w .nop
  else if op = 0x01#6 then decodeF 18 w (.fmov (fReg d) (fReg a))
  else if op = 0x02#6 then .ok (.fldi (fReg d) (fieldImm w))
  else if op = 0x03#6 then decodeF 14 w (.fadd (fReg d) (fReg a) (fReg b))
  else if op = 0x04#6 then decodeF 14 w (.fsub (fReg d) (fReg a) (fReg b))
  else if op = 0x05#6 then decodeF 14 w (.fmul (fReg d) (fReg a) (fReg b))
  else if op = 0x06#6 then decodeF 18 w (.fsqr (fReg d) (fReg a))
  else if op = 0x07#6 then decodeF 18 w (.fneg (fReg d) (fReg a))
  else if op = 0x08#6 then decodeF 18 w (.finv (fReg d) (fReg a))
  else if op = 0x09#6 then decodeF 14 w (.fpow (fReg d) (fReg a) (fReg b))
  else if op = 0x0A#6 then decodeF 18 w (.fissq (fReg d) (fReg a))
  else if op = 0x0B#6 then decodeF 18 w (.fsqrt (fReg d) (fReg a))
  else if op = 0x0C#6 then decodeF 18 w (.fsgn (fReg d) (fReg a))
  else if op = 0x0D#6 then decodeF 14 w (.feq (fReg d) (fReg a) (fReg b))
  else if op = 0x0E#6 then decodeF 10 w (.fcsel (fReg d) (fReg a) (fReg b) (fReg c))
  else if op = 0x0F#6 then decodeC w
  else if op = 0x10#6 then decodeB w (.fenc (fReg d) (fieldOff w) (fieldLen w))
  else if op = 0x11#6 then decodeB w (.fdec (fReg d) (fieldOff w) (fieldLen w))
  else if op = 0x20#6 then decodeP 14 w [d, a, b] (.padd (pReg d) (pReg a) (pReg b))
  else if op = 0x21#6 then decodeP 18 w [d, a] (.pdbl (pReg d) (pReg a))
  else if op = 0x22#6 then decodeP 18 w [a] (.pvalid (fReg d) (pReg a))
  else if op = 0x23#6 then decodeP 18 w [d, a] (.pclr (pReg d) (pReg a))
  else if op = 0x24#6 then decodeP 14 w [d, a] (.pmul (pReg d) (pReg a) (fReg b))
  else if op = 0x25#6 then decodeP 14 w [d] (.pmk (pReg d) (fReg a) (fReg b))
  else if op = 0x26#6 then decodeP 18 w [a] (.px (fReg d) (pReg a))
  else if op = 0x27#6 then decodeP 18 w [a] (.py (fReg d) (pReg a))
  else if op = 0x28#6 then decodeP 22 w [d] (.pinf (pReg d))
  else if op = 0x29#6 then decodeP 18 w [a] (.pisinf (fReg d) (pReg a))
  else if op = 0x2A#6 then decodeP 18 w [d, a] (.pmov (pReg d) (pReg a))
  else if op = 0x2B#6 then decodeP 14 w [a, b] (.peq (fReg d) (pReg a) (pReg b))
  else if op = 0x30#6 then decodeF 21 w (.h2b (fReg d) (fieldCtr w))
  else if op = 0x31#6 then decodeP 18 w [d] (.sswu (pReg d) (fReg a))
  else if op = 0x32#6 then decodeP 22 w [d] (.h2c (pReg d))
  else .error .reservedOpcode

/-- The instruction the decoder reads from the table's word: `nbits` bits of `w`, bit 0 the least
significant, every higher bit 0. A command is one 32-bit word (30_encoding.md R100, R117). -/
def decodeTableWord (nbits w : Nat) : Option Instr :=
  if nbits ≤ 32 then (decode (BitVec.ofNat 32 (w % 2 ^ nbits))).toOption else none

/-! ### The encoder (30_encoding.md R101 to R106, R121) -/

/-- The four bits of a field that names an F register. -/
def fBits (r : FReg) : BitVec 4 := BitVec.ofFin r

/-- The four bits of a field that names a P register: bit 3 is 0. -/
def pBits (r : PReg) : BitVec 4 := 0#1 ++ (BitVec.ofFin r : BitVec 3)

/-- The selector of a constant (30_encoding.md R112). -/
def constBits : CurveConst → BitVec 4
  | .a => 0#4 | .b => 1#4 | .z => 2#4 | .c1 => 3#4 | .c2 => 4#4 | .h => 5#4 | .n => 6#4
  | .gx => 7#4 | .gy => 8#4

/-- Format R: `{op, d, a, b, c, 0}` (30_encoding.md R102); an unused field is 0 (R121). -/
def formR (op : BitVec 6) (d a b c : BitVec 4) : Word := op ++ d ++ a ++ b ++ c ++ 0#10

/-- Format I: `{op, d, imm22}` (30_encoding.md R103). -/
def formI (op : BitVec 6) (d : BitVec 4) (imm : BitVec 22) : Word := op ++ d ++ imm

/-- Format C: `{op, d, sel, 0}` (30_encoding.md R104). -/
def formC (op : BitVec 6) (d sel : BitVec 4) : Word := op ++ d ++ sel ++ 0#18

/-- Format B: `{op, r, off, len, 0}` (30_encoding.md R105). -/
def formB (op : BitVec 6) (r : BitVec 4) (off : BitVec 10) (len : BitVec 8) : Word :=
  op ++ r ++ off ++ len ++ 0#4

/-- Format H: `{op, d, ctr, 0}` (30_encoding.md R106). -/
def formH (op : BitVec 6) (d : BitVec 4) (ctr : BitVec 1) : Word := op ++ d ++ ctr ++ 0#21

/-- The command word of an instruction (30_encoding.md R113, R121). -/
def encode : Instr → Word
  | .nop => 0x00#6 ++ 0#26
  | .fmov d a => formR 0x01#6 (fBits d) (fBits a) 0#4 0#4
  | .fldi d imm => formI 0x02#6 (fBits d) imm
  | .fadd d a b => formR 0x03#6 (fBits d) (fBits a) (fBits b) 0#4
  | .fsub d a b => formR 0x04#6 (fBits d) (fBits a) (fBits b) 0#4
  | .fmul d a b => formR 0x05#6 (fBits d) (fBits a) (fBits b) 0#4
  | .fsqr d a => formR 0x06#6 (fBits d) (fBits a) 0#4 0#4
  | .fneg d a => formR 0x07#6 (fBits d) (fBits a) 0#4 0#4
  | .finv d a => formR 0x08#6 (fBits d) (fBits a) 0#4 0#4
  | .fpow d a b => formR 0x09#6 (fBits d) (fBits a) (fBits b) 0#4
  | .fissq d a => formR 0x0A#6 (fBits d) (fBits a) 0#4 0#4
  | .fsqrt d a => formR 0x0B#6 (fBits d) (fBits a) 0#4 0#4
  | .fsgn d a => formR 0x0C#6 (fBits d) (fBits a) 0#4 0#4
  | .feq d a b => formR 0x0D#6 (fBits d) (fBits a) (fBits b) 0#4
  | .fcsel d a b c => formR 0x0E#6 (fBits d) (fBits a) (fBits b) (fBits c)
  | .fldc d sel => formC 0x0F#6 (fBits d) (constBits sel)
  | .fenc r off len => formB 0x10#6 (fBits r) off len
  | .fdec r off len => formB 0x11#6 (fBits r) off len
  | .padd d a b => formR 0x20#6 (pBits d) (pBits a) (pBits b) 0#4
  | .pdbl d a => formR 0x21#6 (pBits d) (pBits a) 0#4 0#4
  | .pvalid d a => formR 0x22#6 (fBits d) (pBits a) 0#4 0#4
  | .pclr d a => formR 0x23#6 (pBits d) (pBits a) 0#4 0#4
  | .pmul d a b => formR 0x24#6 (pBits d) (pBits a) (fBits b) 0#4
  | .pmk d a b => formR 0x25#6 (pBits d) (fBits a) (fBits b) 0#4
  | .px d a => formR 0x26#6 (fBits d) (pBits a) 0#4 0#4
  | .py d a => formR 0x27#6 (fBits d) (pBits a) 0#4 0#4
  | .pinf d => formR 0x28#6 (pBits d) 0#4 0#4 0#4
  | .pisinf d a => formR 0x29#6 (fBits d) (pBits a) 0#4 0#4
  | .pmov d a => formR 0x2A#6 (pBits d) (pBits a) 0#4 0#4
  | .peq d a b => formR 0x2B#6 (fBits d) (pBits a) (pBits b) 0#4
  | .h2b d ctr => formH 0x30#6 (fBits d) ctr
  | .sswu d a => formR 0x31#6 (pBits d) (fBits a) 0#4 0#4
  | .h2c d => formR 0x32#6 (pBits d) 0#4 0#4 0#4

/-! ### The opcode map as a table (30_encoding.md R113) -/

/-- A row's match and mask (30_encoding.md R113). -/
structure OpcodeRow where
  mnemonic : String
  pattern : Word
  mask : Word
deriving DecidableEq, Repr

/-- A word has the fixed bits of a row: `(w & mask) == match` (30_encoding.md R113). -/
def OpcodeRow.fits (r : OpcodeRow) (w : Word) : Bool := w &&& r.mask == r.pattern

/-- The rows of the MAU, opcodes 0x00 to 0x11 (30_encoding.md R113). -/
def mauRows : List OpcodeRow :=
  [⟨"NOP", 0x00000000#32, 0xFFFFFFFF#32⟩, ⟨"FMOV", 0x04000000#32, 0xFC03FFFF#32⟩,
   ⟨"FLDI", 0x08000000#32, 0xFC000000#32⟩, ⟨"FADD", 0x0C000000#32, 0xFC003FFF#32⟩,
   ⟨"FSUB", 0x10000000#32, 0xFC003FFF#32⟩, ⟨"FMUL", 0x14000000#32, 0xFC003FFF#32⟩,
   ⟨"FSQR", 0x18000000#32, 0xFC03FFFF#32⟩, ⟨"FNEG", 0x1C000000#32, 0xFC03FFFF#32⟩,
   ⟨"FINV", 0x20000000#32, 0xFC03FFFF#32⟩, ⟨"FPOW", 0x24000000#32, 0xFC003FFF#32⟩,
   ⟨"FISSQ", 0x28000000#32, 0xFC03FFFF#32⟩, ⟨"FSQRT", 0x2C000000#32, 0xFC03FFFF#32⟩,
   ⟨"FSGN", 0x30000000#32, 0xFC03FFFF#32⟩, ⟨"FEQ", 0x34000000#32, 0xFC003FFF#32⟩,
   ⟨"FCSEL", 0x38000000#32, 0xFC0003FF#32⟩, ⟨"FLDC", 0x3C000000#32, 0xFC03FFFF#32⟩,
   ⟨"FENC", 0x40000000#32, 0xFC00000F#32⟩, ⟨"FDEC", 0x44000000#32, 0xFC00000F#32⟩]

/-- The rows of the ECGE, opcodes 0x20 to 0x2B (30_encoding.md R113). -/
def ecgeRows : List OpcodeRow :=
  [⟨"PADD", 0x80000000#32, 0xFE223FFF#32⟩, ⟨"PDBL", 0x84000000#32, 0xFE23FFFF#32⟩,
   ⟨"PVALID", 0x88000000#32, 0xFC23FFFF#32⟩, ⟨"PCLR", 0x8C000000#32, 0xFE23FFFF#32⟩,
   ⟨"PMUL", 0x90000000#32, 0xFE203FFF#32⟩, ⟨"PMK", 0x94000000#32, 0xFE003FFF#32⟩,
   ⟨"PX", 0x98000000#32, 0xFC23FFFF#32⟩, ⟨"PY", 0x9C000000#32, 0xFC23FFFF#32⟩,
   ⟨"PINF", 0xA0000000#32, 0xFE3FFFFF#32⟩, ⟨"PISINF", 0xA4000000#32, 0xFC23FFFF#32⟩,
   ⟨"PMOV", 0xA8000000#32, 0xFE23FFFF#32⟩, ⟨"PEQ", 0xAC000000#32, 0xFC223FFF#32⟩]

/-- The rows of the H2CM, opcodes 0x30 to 0x32 (30_encoding.md R113). -/
def h2cmRows : List OpcodeRow :=
  [⟨"H2B", 0xC0000000#32, 0xFC1FFFFF#32⟩, ⟨"SSWU", 0xC4000000#32, 0xFE03FFFF#32⟩,
   ⟨"H2C", 0xC8000000#32, 0xFE3FFFFF#32⟩]

/-- The opcode map (30_encoding.md R113). -/
def opcodeMap : List OpcodeRow := mauRows ++ ecgeRows ++ h2cmRows

/-- The extra constraint a row of the map adds to its match and mask (30_encoding.md R113): `sel <= 8`
for FLDC, `off + len <= 1024` for FENC and FDEC. -/
def extraConstraint (w : Word) : Bool :=
  if opcodeOf w = 0x0F#6 then decide ((fieldA w).toNat ≤ 8)
  else if opcodeOf w = 0x10#6 ∨ opcodeOf w = 0x11#6 then
    decide ((fieldOff w).toNat + (fieldLen w).toNat ≤ 1024)
  else true

end Sys2Proof
end

