-- ==== Sys2Proof/Machine/Registry.lean ====
section
/-! DEFINITION. The curve parameter registry (10_state.md R43 to R47): a read-only table of 16 entries,
of which 0 and 1 are present. -/

namespace Sys2Proof.Machine

open Sys2Proof.Config

/-- The default of DST_0, the domain-separation tag of P-384: the 26 ASCII bytes
`VOPRF-P384-SHA512-SSWU-RO-` (42_hash_to_curve.md R202; 92 D17). -/
def dst0 : List Byte :=
  [0x56#8, 0x4F#8, 0x50#8, 0x52#8, 0x46#8, 0x2D#8, 0x50#8, 0x33#8, 0x38#8,
   0x34#8, 0x2D#8, 0x53#8, 0x48#8, 0x41#8, 0x35#8, 0x31#8, 0x32#8, 0x2D#8,
   0x53#8, 0x53#8, 0x57#8, 0x55#8, 0x2D#8, 0x52#8, 0x4F#8, 0x2D#8]

/-- The default of DST_1, the domain-separation tag of P-521: the 26 ASCII bytes
`VOPRF-P521-SHA512-SSWU-RO-` (42_hash_to_curve.md R202; 92 D17). -/
def dst1 : List Byte :=
  [0x56#8, 0x4F#8, 0x50#8, 0x52#8, 0x46#8, 0x2D#8, 0x50#8, 0x35#8, 0x32#8,
   0x31#8, 0x2D#8, 0x53#8, 0x48#8, 0x41#8, 0x35#8, 0x31#8, 0x32#8, 0x2D#8,
   0x53#8, 0x53#8, 0x57#8, 0x55#8, 0x2D#8, 0x52#8, 0x4F#8, 0x2D#8]

/-- The default tags of both entries (42_hash_to_curve.md R202). -/
def defaultTags : Tags := ⟨dst0, dst1⟩

/-- Entry 0, P-384, with its default tag (10_state.md R44). -/
def p384 : Curve where
  p := 0xFFFFFFFFFFFFFFFFFFFFFFFFFFFFFFFFFFFFFFFFFFFFFFFFFFFFFFFFFFFFFFFEFFFFFFFF0000000000000000FFFFFFFF
  a := 0xFFFFFFFFFFFFFFFFFFFFFFFFFFFFFFFFFFFFFFFFFFFFFFFFFFFFFFFFFFFFFFFEFFFFFFFF0000000000000000FFFFFFFC
  b := 0xB3312FA7E23EE7E4988E056BE3F82D19181D9C6EFE8141120314088F5013875AC656398D8A2ED19D2A85C8EDD3EC2AEF
  n := 0xFFFFFFFFFFFFFFFFFFFFFFFFFFFFFFFFFFFFFFFFFFFFFFFFC7634D81F4372DDF581A0DB248B0A77AECEC196ACCC52973
  h := 1
  hash := .sha512
  dst := dst0
  m := 1
  l := 72
  mapping := .sswu
  z := 0xFFFFFFFFFFFFFFFFFFFFFFFFFFFFFFFFFFFFFFFFFFFFFFFFFFFFFFFFFFFFFFFEFFFFFFFF0000000000000000FFFFFFF3
  gx := 0xAA87CA22BE8B05378EB1C71EF320AD746E1D3B628BA79B9859F741E082542A385502F25DBF55296C3A545E3872760AB7
  gy := 0x3617DE4A96262C6F5D9E98BF9292DC29F8F41DBD289A147CE9DA3113B5F0B8C00A60B1CE1D7E819D7A431D7C90EA0E5F

/-- Entry 1, P-521, with its default tag (10_state.md R45). -/
def p521 : Curve where
  p := 0x1FFFFFFFFFFFFFFFFFFFFFFFFFFFFFFFFFFFFFFFFFFFFFFFFFFFFFFFFFFFFFFFFFFFFFFFFFFFFFFFFFFFFFFFFFFFFFFFFFFFFFFFFFFFFFFFFFFFFFFFFFFFFFFFFFF
  a := 0x1FFFFFFFFFFFFFFFFFFFFFFFFFFFFFFFFFFFFFFFFFFFFFFFFFFFFFFFFFFFFFFFFFFFFFFFFFFFFFFFFFFFFFFFFFFFFFFFFFFFFFFFFFFFFFFFFFFFFFFFFFFFFFFFFFC
  b := 0x51953EB9618E1C9A1F929A21A0B68540EEA2DA725B99B315F3B8B489918EF109E156193951EC7E937B1652C0BD3BB1BF073573DF883D2C34F1EF451FD46B503F00
  n := 0x1FFFFFFFFFFFFFFFFFFFFFFFFFFFFFFFFFFFFFFFFFFFFFFFFFFFFFFFFFFFFFFFFFA51868783BF2F966B7FCC0148F709A5D03BB5C9B8899C47AEBB6FB71E91386409
  h := 1
  hash := .sha512
  dst := dst1
  m := 1
  l := 96
  mapping := .sswu
  z := 0x1FFFFFFFFFFFFFFFFFFFFFFFFFFFFFFFFFFFFFFFFFFFFFFFFFFFFFFFFFFFFFFFFFFFFFFFFFFFFFFFFFFFFFFFFFFFFFFFFFFFFFFFFFFFFFFFFFFFFFFFFFFFFFFFFFB
  gx := 0xC6858E06B70404E9CD9E3ECB662395B4429C648139053FB521F828AF606B4D3DBAA14B5E77EFE75928FE1DC127A2FFA8DE3348B3C1856A429BF97E7E31C2E5BD66
  gy := 0x11839296A789A3BC0045C8A5FB42C7D1BD998F54449579B446817AFBD17273E662C97EE72995EF42640C550B9013FAD0761353C7086A272C24088BE94769FD16650

/-- The registry of a unit with the tags `tags`, indexed by the CURVE_SEL value: entries 2 to 15 are
absent (10_state.md R43, R47; 42_hash_to_curve.md R202). -/
def registry (tags : Tags) (id : BitVec 4) : Option Curve :=
  if id = 0#4 then some { p384 with dst := tags.dst0 }
  else if id = 1#4 then some { p521 with dst := tags.dst1 }
  else none

end Sys2Proof.Machine
end

