-- ==== Sys2Proof/Machine/State.lean ====
section
/-! DEFINITION. The machine's state as plain data (10_state.md), the reasons a step could stop, and the
state after reset (70_reset_and_hazards.md R261). -/

namespace Sys2Proof.Machine

/-- The octet buffer as cells (BUF index, byte), in one canonical form: indices strictly rising and
below 1024, no cell holding the byte an unlisted index reads as (10_state.md R32; log 3). -/
abbrev Memory := List Host.Cell

/-- A point register `(X, Y, INF)`: INF = 1 is the identity marker (10_state.md R31). -/
structure Point where
  x : FieldWord
  y : FieldWord
  inf : Bool
deriving DecidableEq, Repr

/-- The stored bits of CTRL (10_state.md R34). SRST stores nothing. -/
structure Ctrl where
  /-- bit 0 -/
  doneie : Bool
  /-- bit 1 -/
  errie : Bool
deriving DecidableEq, Repr

/-- The stored bits of STATUS (10_state.md R35). -/
structure Status where
  /-- bit 0, read-only -/
  busy : Bool
  /-- bit 1, W1C -/
  done : Bool
  /-- bit 2, W1C -/
  err : Bool
  /-- bit 3, W1C -/
  drop : Bool
deriving DecidableEq, Repr

/-- The accepted command (10_state.md R49, R51): its word, the unit clock cycles passed since its
acceptance, and the number of cycles after which it completes (70_reset_and_hazards.md R271, R274;
log 6, log 7). -/
structure InFlight where
  word : Word
  elapsed : Nat
  latency : Nat
deriving DecidableEq, Repr

/-- One move of an agent other than the unit's own logic: a host access, the reset input, or a cycle
of the unit clock (70_reset_and_hazards.md R271, R276; log 5). -/
inductive Event where
  /-- a host read of the word at `addr[15:2]` -/
  | read (addr : WordAddr)
  /-- a host write of `value` to the word at `addr[15:2]` -/
  | write (addr : WordAddr) (value : Word)
  /-- one cycle of the unit clock, with no host access -/
  | cycle
  /-- the platform asserts the hard-reset input -/
  | assertReset
  /-- the platform releases the hard-reset input -/
  | releaseReset
deriving DecidableEq, Repr

/-- The whole machine. The fields down to `resetIn` are the spec's state (10_state.md R51;
70_reset_and_hazards.md R263); `tags` holds the spec's parameters DST_0 and DST_1; `rdata`, `draws` and
`sched` are the model's own. -/
structure State where
  /-- F0..F15 (10_state.md R30) -/
  f : Vector FieldWord 16
  /-- P0..P7 (10_state.md R31) -/
  p : Vector Point 8
  /-- BUF[0..1023] (10_state.md R32) -/
  buf : Memory
  /-- CTRL (10_state.md R34) -/
  ctrl : Ctrl
  /-- STATUS (10_state.md R35) -/
  status : Status
  /-- ERRCODE, bits 3:0 (10_state.md R36) -/
  errcode : BitVec 4
  /-- ERRINFO, bits 3:0 (10_state.md R37) -/
  errinfo : BitVec 4
  /-- ERRCMD (10_state.md R38) -/
  errcmd : Word
  /-- CURVE_SEL, bits 3:0 (10_state.md R40) -/
  curveSel : BitVec 4
  /-- MSGLEN, bits 10:0 (10_state.md R41) -/
  msglen : BitVec 11
  /-- CMDCNT (10_state.md R42) -/
  cmdcnt : Word
  /-- INFLIGHT and its elapsed time (10_state.md R49, R51) -/
  inflight : Option InFlight
  /-- the level of the hard-reset input (70_reset_and_hazards.md R260, R263) -/
  resetIn : Bool
  /-- the parameters DST_0 and DST_1: set for the unit, written by nothing (42_hash_to_curve.md R202;
  log 10) -/
  tags : Config.Tags
  /-- the model's own: the data of the most recent bus read, none before the first (log 16) -/
  rdata : Option Word
  /-- the model's own: how many free values have been drawn (log 4) -/
  draws : Nat
  /-- the model's own: the moves still to come, oldest first (log 5) -/
  sched : List Event
deriving DecidableEq, Repr

/-- The reasons the machine could stop with a fault: none. Every bus access completes (20_memory.md
R77), every word decodes to a command or to IllegalCommand (30_encoding.md R116), and every error is an
architected completion (60_exceptions.md R238). Safe: nothing is cut off. -/
inductive Fault where
deriving DecidableEq, Repr

/-- The reasons the model could refuse. -/
inductive Refusal where
  /-- Raised by an arm of `exec` whose instruction has no meaning yet; no arm is left so. Safe. -/
  | notModelled (mnemonic : String)
deriving DecidableEq, Repr

/-- The machine right after reset (70_reset_and_hazards.md R261). The table leaves F, P and BUF
unspecified: they are 0 here, a value the model names (log 1). The reset input is released. The tags are
the defaults of R202 (log 10). -/
def State.reset : State where
  f := Vector.replicate 16 0#521
  p := Vector.replicate 8 ⟨0#521, 0#521, false⟩
  buf := []
  ctrl := ⟨false, false⟩
  status := ⟨false, false, false, false⟩
  errcode := 0#4
  errinfo := 0#4
  errcmd := 0x00000000#32
  curveSel := 0#4
  msglen := 0#11
  cmdcnt := 0#32
  inflight := none
  resetIn := false
  tags := defaultTags
  rdata := none
  draws := 0
  sched := []

end Sys2Proof.Machine
end

