-- ==== Sys2Proof/Machine/Ops.lean ====
section
/-! DEFINITION. The named operations over the octet buffer, the register files and the status state:
reads and writes, the two ways a command completes, the error entry and the return from it, the drop and
the reset. -/

namespace Sys2Proof.Machine

open Sys2Proof.Config

/-! ### The octet buffer as memory (10_state.md R32) -/

/-- What an index with no cell reads as: 0. The spec leaves BUF unspecified after reset (log 3). -/
def Memory.unlisted : Byte := 0#8

/-- The byte at index `a`. -/
def Memory.read : Memory → Nat → Byte
  | [], _ => Memory.unlisted
  | (k, v) :: m, a => if k = a then v else Memory.read m a

/-- Write byte `b` at index `a`, in the canonical form: the cell is placed in order, and a byte equal to
what an unlisted index reads as leaves no cell. -/
def Memory.write : Memory → Nat → Byte → Memory
  | [], a, b => if b = Memory.unlisted then [] else [(a, b)]
  | (k, v) :: m, a, b =>
    if a < k then (if b = Memory.unlisted then (k, v) :: m else (a, b) :: (k, v) :: m)
    else if a = k then (if b = Memory.unlisted then m else (a, b) :: m)
    else (k, v) :: Memory.write m a b

/-- Cells of strictly rising index from `lo` on, below BUF_BYTES = 1024, none holding the unlisted
byte. -/
def Memory.wfFrom : Nat → Memory → Bool
  | _, [] => true
  | lo, (k, v) :: m =>
    decide (lo ≤ k) && decide (k < 1024) && v != Memory.unlisted && Memory.wfFrom (k + 1) m

/-- The canonical form of the buffer. -/
def Memory.wf (m : Memory) : Bool := Memory.wfFrom 0 m

/-- Write the bytes of `s` at `a`, `a+1`, ... -/
def Memory.writeBytes : Memory → Nat → List Byte → Memory
  | m, _, [] => m
  | m, a, b :: s => Memory.writeBytes (Memory.write m a b) (a + 1) s

/-- The `n` bytes at `a`, `a+1`, ... -/
def Memory.readBytes (m : Memory) (a n : Nat) : List Byte :=
  (List.range n).map fun j => Memory.read m (a + j)

/-- `BufRead(off, n)` (00_scope.md R12). -/
def bufRead (s : State) (off n : Nat) : List Byte := Memory.readBytes s.buf off n

/-! ### Points as values (41_point.md R171; 10_state.md R54) -/

/-- A point of the group: the identity O, or an affine point. -/
inductive GroupPoint where
  | inf
  | aff (x y : Nat)
deriving DecidableEq, Repr

/-- The point a register holds: INF = 1 is the identity, whatever X and Y (10_state.md R54). -/
def Point.toGroup (q : Point) : GroupPoint :=
  if q.inf then .inf else .aff q.x.toNat q.y.toNat

/-- The canonical register form: `(0, 0, 1)` for O, `(x, y, 0)` otherwise (10_state.md R54, R55). -/
def GroupPoint.toPoint : GroupPoint → Point
  | .inf => ⟨0#521, 0#521, true⟩
  | .aff x y => ⟨BitVec.ofNat 521 x, BitVec.ofNat 521 y, false⟩

/-! ### What a command gives: Exec of 10_state.md R56 -/

/-- The four error kinds of the source and IllegalCommand (60_exceptions.md R230). -/
inductive ErrorKind where
  | unsupportedGroup
  | internalInstantiation
  | incompatibleGroupParams
  | invalidGroupElement
  | illegalCommand
deriving DecidableEq, Repr

/-- ERRCODE of each kind (60_exceptions.md R230). -/
def ErrorKind.code : ErrorKind → BitVec 4
  | .unsupportedGroup => 1#4
  | .internalInstantiation => 2#4
  | .incompatibleGroupParams => 3#4
  | .invalidGroupElement => 4#4
  | .illegalCommand => 5#4

/-- An error with its ERRINFO detail: `raise <Error>(info)` (00_scope.md R12; 60_exceptions.md R234). -/
structure CmdError where
  kind : ErrorKind
  info : BitVec 4
deriving DecidableEq, Repr

/-- The destination update of a successful command (10_state.md R56): every command writes one
register, some bytes of BUF, or nothing. -/
inductive Effect where
  | none
  | field (d : FReg) (v : FieldWord)
  | point (d : PReg) (v : Point)
  | bytes (off : Nat) (s : List Byte)
deriving DecidableEq, Repr

/-- What Exec answers: `Ok(writes)` or `Err(code, info)` (10_state.md R56). -/
abbrev CmdResult := Except CmdError Effect

/-- `F[i] <- v` (00_scope.md R12). -/
def State.setF (s : State) (d : FReg) (v : FieldWord) : State := { s with f := s.f.set d v }

/-- `P[k] <- v` (00_scope.md R12). -/
def State.setP (s : State) (d : PReg) (v : Point) : State := { s with p := s.p.set d v }

/-- `BufWrite(off, n, s)` (00_scope.md R12). -/
def State.setBytes (s : State) (off : Nat) (b : List Byte) : State :=
  { s with buf := Memory.writeBytes s.buf off b }

/-- Apply a command's writes. -/
def State.apply (s : State) : Effect → State
  | .none => s
  | .field d v => s.setF d v
  | .point d v => s.setP d v
  | .bytes off b => s.setBytes off b

/-- The state part of a successful completion: `CMDCNT <- CMDCNT + 1; BUSY <- 0; DONE <- 1;
INFLIGHT <- none` (10_state.md R49, R42). -/
def State.retire (s : State) : State :=
  { s with
    cmdcnt := s.cmdcnt + 1#32
    status := { s.status with busy := false, done := true }
    inflight := none }

/-- The command word an error saves: the INFLIGHT word. With no command in flight there is none to save,
and ERRCMD keeps its value (60_exceptions.md R238; log 14). -/
def State.failingWord (s : State) : Word :=
  match s.inflight with
  | some c => c.word
  | none => s.errcmd

/-- ERROR ENTRY, the unit's exception: ERRCODE, ERRINFO and ERRCMD are written, ERR and DONE set, BUSY
cleared, INFLIGHT emptied, and nothing else changes; there is no control transfer
(60_exceptions.md R238, R239). -/
def State.enterError (s : State) (e : CmdError) : State :=
  { s with
    errcode := e.kind.code
    errinfo := e.info
    errcmd := s.failingWord
    status := { s.status with err := true, done := true, busy := false }
    inflight := none }

/-- RETURN FROM AN ERROR, and every write to STATUS: each W1C bit whose written value is 1 is cleared;
BUSY and the reserved bits ignore the write. Clearing ERR leaves ERRCODE, ERRINFO and ERRCMD as they are
(10_state.md R35; 60_exceptions.md R240). -/
def State.writeStatus (s : State) (v : Word) : State :=
  { s with
    status :=
      { s.status with
        done := s.status.done && !v.getLsbD 1
        err := s.status.err && !v.getLsbD 2
        drop := s.status.drop && !v.getLsbD 3 } }

/-- The state after the completion of a command whose Exec answered `r` (10_state.md R49). -/
def State.completed (s : State) : CmdResult → State
  | .ok w => (s.apply w).retire
  | .error e => s.enterError e

/-- COMPLETION: the one event in which a command writes all its results or enters its error
(10_state.md R49, R56). -/
def complete (s : State) (r : CmdResult) : Host.Outcome State Fault Refusal := .next (s.completed r)

/-- Registry resolution, the preamble of every command but NOP: an absent entry raises UnsupportedGroup
with info 0, before every other check (10_state.md R47; 40_field.md R130; 60_exceptions.md R231). -/
def withCurve (s : State) (body : Curve → CmdResult) : CmdResult :=
  match registry s.tags s.curveSel with
  | none => .error ⟨.unsupportedGroup, 0#4⟩
  | some E => body E

/-! ### Drops and resets -/

/-- An ignored host write that is reported: `STATUS.DROP <- 1` and nothing else (60_exceptions.md
R242). -/
def State.dropped (s : State) : State := { s with status := { s.status with drop := true } }

/-- BUF after the reset of draw `n`: each byte a free value (70_reset_and_hazards.md R261; log 2). -/
@[irreducible] def freeBuf (n : Nat) : Memory :=
  Memory.writeBytes [] 0 ((List.range 1024).map fun a => freeByte n a)

/-- RESET, hard or soft: the table of 70_reset_and_hazards.md R261. F, P and BUF take free values; every
control and status register takes its reset value; the in-flight command is discarded and neither
completes nor reports (R262). The level of the reset input, the tags, the last read data and the moves
to come are not the unit's to reset (log 2, log 10). -/
def State.resetUnit (s : State) : State :=
  { s with
    f := Vector.ofFn fun i => freeField s.draws i.val
    p := Vector.ofFn fun k => ⟨freeX s.draws k.val, freeY s.draws k.val, freeInf s.draws k.val⟩
    buf := freeBuf s.draws
    ctrl := State.reset.ctrl
    status := State.reset.status
    errcode := State.reset.errcode
    errinfo := State.reset.errinfo
    errcmd := State.reset.errcmd
    curveSel := State.reset.curveSel
    msglen := State.reset.msglen
    cmdcnt := State.reset.cmdcnt
    inflight := State.reset.inflight
    draws := s.draws + 1 }

end Sys2Proof.Machine
end

