-- ==== Sys2Proof/Machine/Flags.lean ====
section
/-! DEFINITION. The flags as the bus and the interrupt line see them, and the field elements that
predicates and the sign write in place of condition codes (10_state.md R34, R35, R50;
60_exceptions.md R243). -/

namespace Sys2Proof.Machine

/-- One bit at position `n` of a bus word. -/
def bitAt (n : Nat) (b : Bool) : Word := if b then 1#32 <<< n else 0#32

/-- STATUS as read: BUSY, DONE, ERR, DROP in bits 0 to 3, the rest 0 (10_state.md R35). -/
def Status.toWord (t : Status) : Word :=
  bitAt 0 t.busy ||| bitAt 1 t.done ||| bitAt 2 t.err ||| bitAt 3 t.drop

/-- CTRL as read: DONEIE and ERRIE in bits 0 and 1; SRST and the rest read 0 (10_state.md R34). -/
def Ctrl.toWord (c : Ctrl) : Word := bitAt 0 c.doneie ||| bitAt 1 c.errie

/-- The enables a CTRL write stores (10_state.md R34). -/
def ctrlOf (v : Word) : Ctrl := ⟨v.getLsbD 0, v.getLsbD 1⟩

/-- `irq = (CTRL.DONEIE and STATUS.DONE) or (CTRL.ERRIE and STATUS.ERR)`, combinational in the register
bits (60_exceptions.md R243, R244). -/
def State.irq (s : State) : Bool :=
  (s.ctrl.doneie && s.status.done) || (s.ctrl.errie && s.status.err)

/-- FSGN's result: `p - 1` for -1 and 1 for +1 (40_field.md R145). -/
def sgnField (p x : Nat) : Nat := modP p (sgn p x)

/-- FISSQ's result: 1 for a square, else 0 (40_field.md R141). -/
def squareFlag (p x : Nat) : Nat := ofTruth (isSquare p x)

/-- FEQ's result on operand values (40_field.md R144). -/
def equalFlag (x y : Nat) : Nat := ofTruth (x == y)

/-- PEQ's result on checked points: both the identity, or both finite with equal coordinates
(41_point.md R184). -/
def pointEqualFlag (P Q : GroupPoint) : Nat := ofTruth (decide (P = Q))

end Sys2Proof.Machine
end

