-- ==== Sys2Proof/Machine/Operands.lean ====
section
/-! DEFINITION. The operand forms: how a command reads a field register, a point register, an immediate,
a constant and the buffer (10_state.md R52, R53; 30_encoding.md R107 to R112). -/

namespace Sys2Proof.Machine

open Sys2Proof.Config

/-- `Fv(i) = F[i] mod p`, the operand value of a field register (10_state.md R52). -/
def fv (E : Curve) (s : State) (i : FReg) : Nat := s.f[i].toNat % E.p

/-- The raw contents of a point register (00_scope.md R12). -/
def pv (s : State) (k : PReg) : Point := s.p[k]

/-- FLDI's operand `sext_22(imm22)` (30_encoding.md R109). -/
def immValue (imm : BitVec 22) : Int := imm.toInt

/-- The value of a selector in the entry (30_encoding.md R112). -/
def constValue (E : Curve) : CurveConst → Nat
  | .a => E.a
  | .b => E.b
  | .z => E.z % E.p
  | .c1 => curveC1 E
  | .c2 => curveC2 E
  | .h => E.h
  | .n => E.n
  | .gx => E.gx
  | .gy => E.gy

/-- `off = zext_10(w[21:12])` (30_encoding.md R110). -/
def offValue (off : BitVec 10) : Nat := off.toNat

/-- `len = zext_8(w[11:4])` (30_encoding.md R110). -/
def lenValue (len : BitVec 8) : Nat := len.toNat

/-- The integer counter of H2B (30_encoding.md R111). -/
def ctrValue (ctr : BitVec 1) : Nat := ctr.toNat

/-- A field result as register contents. Every result is below `p`, so it fits (10_state.md R55). -/
def toField (v : Nat) : FieldWord := BitVec.ofNat 521 v

/-- A field result written to `F[d]` (40_field.md R130). -/
def fieldResult (d : FReg) (v : Nat) : CmdResult := .ok (.field d (toField v))

/-- A computed point written to `P[d]` in canonical form (10_state.md R55; 41_point.md R170). -/
def pointResult (d : PReg) (q : GroupPoint) : CmdResult := .ok (.point d q.toPoint)

/-- Point validity: the identity, or unreduced coordinates below `p` that satisfy the curve equation
(10_state.md R53). -/
def validPoint (E : Curve) (q : Point) : Bool :=
  q.inf ||
    (decide (q.x.toNat < E.p) && decide (q.y.toNat < E.p) && onCurve E q.x.toNat q.y.toNat)

/-- The check of a point operand marked "checked": an invalid one raises InvalidGroupElement with info 1
for field a, 2 for field b (41_point.md R170; 60_exceptions.md R235). -/
def checkedPoint (E : Curve) (q : Point) (info : BitVec 4) (body : GroupPoint → CmdResult) :
    CmdResult :=
  if validPoint E q then body q.toGroup else .error ⟨.invalidGroupElement, info⟩

/-- The buffer-range check of format B as the meaning makes it; the decoder lets no other word through
(30_encoding.md R110, R114; log 15). -/
def withBufRange (off : BitVec 10) (len : BitVec 8) (r : CmdResult) : CmdResult :=
  if bufRangeOk off len then r else .error ⟨.illegalCommand, Illegal.bufferRange.info⟩

end Sys2Proof.Machine
end

