-- ==== Sys2Proof/Machine/Group.lean ====
section
/-! DEFINITION. The group law and scalar multiplication (41_point.md R171, R175). -/

namespace Sys2Proof.Machine

open Sys2Proof.Config

/-- The slope of the doubling case: `(3*x1^2 + A) * inv(2*y1) mod p` (41_point.md R171). -/
def slopeDouble (E : Curve) (x y : Nat) : Nat :=
  modP E.p ((3 * (x : Int) ^ 2 + E.a) * invP E.p (modP E.p (2 * (y : Int))))

/-- The slope of the chord: `(y2 - y1) * inv(x2 - x1) mod p` (41_point.md R171). -/
def slopeChord (E : Curve) (x1 y1 x2 y2 : Nat) : Nat :=
  modP E.p (((y2 : Int) - y1) * invP E.p (modP E.p ((x2 : Int) - x1)))

/-- The third point of slope `lam` through `(x1, y1)` and a point of coordinate `x2`
(41_point.md R171). -/
def thirdPoint (E : Curve) (lam x1 y1 x2 : Nat) : GroupPoint :=
  let x3 := modP E.p ((lam : Int) ^ 2 - x1 - x2)
  .aff x3 (modP E.p ((lam : Int) * ((x1 : Int) - x3) - y1))

/-- The group law `padd(P, Q)` (41_point.md R171). -/
def padd (E : Curve) : GroupPoint → GroupPoint → GroupPoint
  | .inf, Q => Q
  | P, .inf => P
  | .aff x1 y1, .aff x2 y2 =>
    if x1 = x2 ∧ (y1 + y2) % E.p = 0 then .inf
    else if x1 = x2 then thirdPoint E (slopeDouble E x1 y1) x1 y1 x2
    else thirdPoint E (slopeChord E x1 y1 x2 y2) x1 y1 x2

/-- Double-and-add on the `fuel` low binary digits of `k`, the highest first. -/
def smulLoop (E : Curve) (P : GroupPoint) : Nat → Nat → GroupPoint
  | 0, _ => .inf
  | fuel + 1, k =>
    if k = 0 then .inf
    else
      let half := smulLoop E P fuel (k / 2)
      let twice := padd E half half
      if k % 2 = 1 then padd E twice P else twice

/-- `smul(k, P)` (41_point.md R175), by double-and-add: the rule fixes only the value, and any method may
compute it (93 U12; log 12). -/
def smul (E : Curve) (k : Nat) (P : GroupPoint) : GroupPoint := smulLoop E P (k.log2 + 1) k

/-- The negation `-(x, y) = (x, (p - y) mod p)`, `-O = O` (41_point.md R171). -/
def pneg (E : Curve) : GroupPoint → GroupPoint
  | .inf => .inf
  | .aff x y => .aff x (modP E.p ((E.p : Int) - y))

end Sys2Proof.Machine
end

