-- ==== Sys2Proof/Machine/Ecge.lean ====
section
/-! DEFINITION. The elliptic curve group engine: the meanings of opcodes 0x20 to 0x2B
(41_point.md). -/

namespace Sys2Proof.Machine

open Sys2Proof.Config

/-- PADD: `P[d] <- padd(P[a], P[b])`, both operands checked, a first (41_point.md R172). -/
def execPadd (d a b : PReg) (s : State) : Host.Outcome State Fault Refusal :=
  complete s <| withCurve s fun E =>
    checkedPoint E (pv s a) 1#4 fun P =>
      checkedPoint E (pv s b) 2#4 fun Q => pointResult d (padd E P Q)

/-- PDBL: `P[d] <- padd(P[a], P[a])`, the operand checked (41_point.md R173). -/
def execPdbl (d a : PReg) (s : State) : Host.Outcome State Fault Refusal :=
  complete s <| withCurve s fun E =>
    checkedPoint E (pv s a) 1#4 fun P => pointResult d (padd E P P)

/-- PVALID: 1 if the point is valid, else 0; it raises nothing for an invalid one (41_point.md R174). -/
def execPvalid (d : FReg) (a : PReg) (s : State) : Host.Outcome State Fault Refusal :=
  complete s <| withCurve s fun E => fieldResult d (ofTruth (validPoint E (pv s a)))

/-- PCLR: `P[d] <- smul(h, P[a])`, the operand checked (41_point.md R176). -/
def execPclr (d a : PReg) (s : State) : Host.Outcome State Fault Refusal :=
  complete s <| withCurve s fun E =>
    checkedPoint E (pv s a) 1#4 fun P => pointResult d (smul E E.h P)

/-- PMUL: `P[d] <- smul(Fv(b), P[a])`, the point checked (41_point.md R177). -/
def execPmul (d a : PReg) (b : FReg) (s : State) : Host.Outcome State Fault Refusal :=
  complete s <| withCurve s fun E =>
    checkedPoint E (pv s a) 1#4 fun P => pointResult d (smul E (fv E s b) P)

/-- PMK: `P[d] <- (Fv(a), Fv(b), 0)`, with no curve check (41_point.md R178). -/
def execPmk (d : PReg) (a b : FReg) (s : State) : Host.Outcome State Fault Refusal :=
  complete s <| withCurve s fun E => pointResult d (.aff (fv E s a) (fv E s b))

/-- PX: `F[d] <- P[a].X mod p`, INF ignored (41_point.md R179). -/
def execPx (d : FReg) (a : PReg) (s : State) : Host.Outcome State Fault Refusal :=
  complete s <| withCurve s fun E => fieldResult d ((pv s a).x.toNat % E.p)

/-- PY: `F[d] <- P[a].Y mod p`, INF ignored (41_point.md R180). -/
def execPy (d : FReg) (a : PReg) (s : State) : Host.Outcome State Fault Refusal :=
  complete s <| withCurve s fun E => fieldResult d ((pv s a).y.toNat % E.p)

/-- PINF: `P[d] <- (0, 0, 1)`; the registry is read only for its presence (41_point.md R181). -/
def execPinf (d : PReg) (s : State) : Host.Outcome State Fault Refusal :=
  complete s <| withCurve s fun _ => pointResult d .inf

/-- PISINF: `F[d] <- P[a].INF` (41_point.md R182). -/
def execPisinf (d : FReg) (a : PReg) (s : State) : Host.Outcome State Fault Refusal :=
  complete s <| withCurve s fun _ => fieldResult d (ofTruth (pv s a).inf)

/-- PMOV: `P[d] <- P[a]`, all 1043 bits, unreduced and unchecked (41_point.md R183). -/
def execPmov (d a : PReg) (s : State) : Host.Outcome State Fault Refusal :=
  complete s <| withCurve s fun _ => .ok (.point d (pv s a))

/-- PEQ: 1 if the checked points are equal, else 0 (41_point.md R184). -/
def execPeq (d : FReg) (a b : PReg) (s : State) : Host.Outcome State Fault Refusal :=
  complete s <| withCurve s fun E =>
    checkedPoint E (pv s a) 1#4 fun P =>
      checkedPoint E (pv s b) 2#4 fun Q => fieldResult d (pointEqualFlag P Q)

end Sys2Proof.Machine
end

