-- ==== Sys2Proof/Machine/Hash.lean ====
section
/-! DEFINITION. The hash primitive of 42_hash_to_curve.md R201: SHA-512 (FIPS 180-4), HMAC (RFC 2104) and
HKDF (RFC 5869). The spec names these functions and leaves their insides out (00_scope.md R7); the
insides are PRESUMED from general knowledge, and the values of spec/95_test_vectors.md L2.3 agree
(log 9). -/

namespace Sys2Proof.Machine

open Sys2Proof.Config

/-- The eight working words of SHA-512. -/
structure HashRegs where
  a : BitVec 64
  b : BitVec 64
  c : BitVec 64
  d : BitVec 64
  e : BitVec 64
  f : BitVec 64
  g : BitVec 64
  h : BitVec 64
deriving DecidableEq, Repr

/-- Round constants 0 to 15 of SHA-512. -/
def roundConstants0 : List (BitVec 64) :=
  [0x428A2F98D728AE22#64, 0x7137449123EF65CD#64, 0xB5C0FBCFEC4D3B2F#64, 0xE9B5DBA58189DBBC#64,
   0x3956C25BF348B538#64, 0x59F111F1B605D019#64, 0x923F82A4AF194F9B#64, 0xAB1C5ED5DA6D8118#64,
   0xD807AA98A3030242#64, 0x12835B0145706FBE#64, 0x243185BE4EE4B28C#64, 0x550C7DC3D5FFB4E2#64,
   0x72BE5D74F27B896F#64, 0x80DEB1FE3B1696B1#64, 0x9BDC06A725C71235#64, 0xC19BF174CF692694#64]

/-- Round constants 16 to 31 of SHA-512. -/
def roundConstants1 : List (BitVec 64) :=
  [0xE49B69C19EF14AD2#64, 0xEFBE4786384F25E3#64, 0x0FC19DC68B8CD5B5#64, 0x240CA1CC77AC9C65#64,
   0x2DE92C6F592B0275#64, 0x4A7484AA6EA6E483#64, 0x5CB0A9DCBD41FBD4#64, 0x76F988DA831153B5#64,
   0x983E5152EE66DFAB#64, 0xA831C66D2DB43210#64, 0xB00327C898FB213F#64, 0xBF597FC7BEEF0EE4#64,
   0xC6E00BF33DA88FC2#64, 0xD5A79147930AA725#64, 0x06CA6351E003826F#64, 0x142929670A0E6E70#64]

/-- Round constants 32 to 47 of SHA-512. -/
def roundConstants2 : List (BitVec 64) :=
  [0x27B70A8546D22FFC#64, 0x2E1B21385C26C926#64, 0x4D2C6DFC5AC42AED#64, 0x53380D139D95B3DF#64,
   0x650A73548BAF63DE#64, 0x766A0ABB3C77B2A8#64, 0x81C2C92E47EDAEE6#64, 0x92722C851482353B#64,
   0xA2BFE8A14CF10364#64, 0xA81A664BBC423001#64, 0xC24B8B70D0F89791#64, 0xC76C51A30654BE30#64,
   0xD192E819D6EF5218#64, 0xD69906245565A910#64, 0xF40E35855771202A#64, 0x106AA07032BBD1B8#64]

/-- Round constants 48 to 63 of SHA-512. -/
def roundConstants3 : List (BitVec 64) :=
  [0x19A4C116B8D2D0C8#64, 0x1E376C085141AB53#64, 0x2748774CDF8EEB99#64, 0x34B0BCB5E19B48A8#64,
   0x391C0CB3C5C95A63#64, 0x4ED8AA4AE3418ACB#64, 0x5B9CCA4F7763E373#64, 0x682E6FF3D6B2B8A3#64,
   0x748F82EE5DEFB2FC#64, 0x78A5636F43172F60#64, 0x84C87814A1F0AB72#64, 0x8CC702081A6439EC#64,
   0x90BEFFFA23631E28#64, 0xA4506CEBDE82BDE9#64, 0xBEF9A3F7B2C67915#64, 0xC67178F2E372532B#64]

/-- Round constants 64 to 79 of SHA-512. -/
def roundConstants4 : List (BitVec 64) :=
  [0xCA273ECEEA26619C#64, 0xD186B8C721C0C207#64, 0xEADA7DD6CDE0EB1E#64, 0xF57D4F7FEE6ED178#64,
   0x06F067AA72176FBA#64, 0x0A637DC5A2C898A6#64, 0x113F9804BEF90DAE#64, 0x1B710B35131C471B#64,
   0x28DB77F523047D84#64, 0x32CAAB7B40C72493#64, 0x3C9EBE0A15C9BEBC#64, 0x431D67C49C100D4C#64,
   0x4CC5D4BECB3E42B6#64, 0x597F299CFC657E2A#64, 0x5FCB6FAB3AD6FAEC#64, 0x6C44198C4A475817#64]

/-- The 80 round constants of SHA-512. -/
def roundConstants : List (BitVec 64) :=
  roundConstants0 ++ roundConstants1 ++ roundConstants2 ++ roundConstants3 ++ roundConstants4

/-- The initial hash value of SHA-512. -/
def hashInit : HashRegs :=
  ⟨0x6A09E667F3BCC908#64, 0xBB67AE8584CAA73B#64, 0x3C6EF372FE94F82B#64, 0xA54FF53A5F1D36F1#64,
   0x510E527FADE682D1#64, 0x9B05688C2B3E6C1F#64, 0x1F83D9ABFB41BD6B#64, 0x5BE0CD19137E2179#64⟩

/-- The message-schedule function of the second-newest word. -/
def smallSigma1 (x : BitVec 64) : BitVec 64 :=
  x.rotateRight 19 ^^^ x.rotateRight 61 ^^^ (x >>> 6)

/-- The message-schedule function of the second-oldest word. -/
def smallSigma0 (x : BitVec 64) : BitVec 64 :=
  x.rotateRight 1 ^^^ x.rotateRight 8 ^^^ (x >>> 7)

/-- The window of the last 16 schedule words, oldest first, moved on by one word. -/
def nextWindow (win : List (BitVec 64)) : List (BitVec 64) :=
  win.tail ++ [smallSigma1 (win.getD 14 0#64) + win.getD 9 0#64 + smallSigma0 (win.getD 1 0#64)
    + win.headD 0#64]

/-- One round with constant `k` and schedule word `w`. -/
def hashRound (k w : BitVec 64) (r : HashRegs) : HashRegs :=
  let big1 := r.e.rotateRight 14 ^^^ r.e.rotateRight 18 ^^^ r.e.rotateRight 41
  let choose := (r.e &&& r.f) ^^^ (~~~r.e &&& r.g)
  let t1 := r.h + big1 + choose + k + w
  let big0 := r.a.rotateRight 28 ^^^ r.a.rotateRight 34 ^^^ r.a.rotateRight 39
  let majority := (r.a &&& r.b) ^^^ (r.a &&& r.c) ^^^ (r.b &&& r.c)
  ⟨t1 + (big0 + majority), r.a, r.b, r.c, r.d + t1, r.e, r.f, r.g⟩

/-- The rounds of the constants given, on a window of schedule words. -/
def hashRounds : List (BitVec 64) → List (BitVec 64) → HashRegs → HashRegs
  | [], _, r => r
  | k :: ks, win, r => hashRounds ks (nextWindow win) (hashRound k (win.headD 0#64) r)

/-- The big-endian 64-bit words of a string, `fuel` of them. -/
def hashWords : Nat → List Byte → List (BitVec 64)
  | 0, _ => []
  | fuel + 1, s => BitVec.ofNat 64 (os2ip (s.take 8)) :: hashWords fuel (s.drop 8)

/-- One 128-byte block added to the hash value. -/
def hashBlock (block : List Byte) (r : HashRegs) : HashRegs :=
  let t := hashRounds roundConstants (hashWords 16 block) r
  ⟨r.a + t.a, r.b + t.b, r.c + t.c, r.d + t.d, r.e + t.e, r.f + t.f, r.g + t.g, r.h + t.h⟩

/-- `fuel` blocks of a padded message. -/
def hashBlocks : Nat → List Byte → HashRegs → HashRegs
  | 0, _, r => r
  | fuel + 1, s, r => hashBlocks fuel (s.drop 128) (hashBlock (s.take 128) r)

/-- A message padded to whole blocks: 0x80, zeros, and the bit length in 16 bytes. -/
def hashPad (s : List Byte) : List Byte :=
  s ++ [0x80#8] ++ List.replicate ((239 - s.length % 128) % 128) 0x00#8 ++ i2osp (8 * s.length) 16

/-- The 64 bytes of a hash value. -/
def hashBytes (r : HashRegs) : List Byte :=
  ([r.a, r.b, r.c, r.d, r.e, r.f, r.g, r.h].map fun x => i2osp x.toNat 8).flatten

/-- SHA-512. -/
def sha512 (s : List Byte) : List Byte :=
  let padded := hashPad s
  hashBytes (hashBlocks (padded.length / 128) padded hashInit)

/-- The hash H a registry entry names (42_hash_to_curve.md R201). -/
def hashOf : HashId → List Byte → List Byte
  | .sha512 => sha512

/-- The block length in bytes of the hash (RFC 2104 writes B). -/
def hashBlockBytes : HashId → Nat
  | .sha512 => 128

/-- `HMAC(key, data)` of RFC 2104 over the hash H (42_hash_to_curve.md R201). -/
def hmac (H : HashId) (key data : List Byte) : List Byte :=
  let short := if key.length > hashBlockBytes H then hashOf H key else key
  let k := short ++ List.replicate (hashBlockBytes H - short.length) 0x00#8
  hashOf H ((k.map (· ^^^ 0x5C#8)) ++ hashOf H ((k.map (· ^^^ 0x36#8)) ++ data))

/-- `HKDF_Extract(salt, ikm) = HMAC(salt, ikm)` (42_hash_to_curve.md R201). -/
def hkdfExtract (H : HashId) (salt ikm : List Byte) : List Byte := hmac H salt ikm

/-- `T(i) || T(i+1) || ...`, `fuel` blocks, where `prev` is `T(i-1)` and
`T(i) = HMAC(prk, T(i-1) || info || I2OSP(i, 1))` (42_hash_to_curve.md R201). -/
def hkdfBlocks (H : HashId) (prk info : List Byte) : Nat → Nat → List Byte → List Byte
  | 0, _, _ => []
  | fuel + 1, i, prev =>
    let t := hmac H prk (prev ++ info ++ i2osp i 1)
    t ++ hkdfBlocks H prk info fuel (i + 1) t

/-- The output length in bytes of the hash (42_hash_to_curve.md R201: 64 for SHA-512). -/
def hashOutBytes : HashId → Nat
  | .sha512 => 64

/-- `HKDF_Expand(prk, info, L)`: the first L bytes of `T(1) || T(2) || ...`, where `T(0)` is empty
(42_hash_to_curve.md R201). -/
def hkdfExpand (H : HashId) (prk info : List Byte) (len : Nat) : List Byte :=
  (hkdfBlocks H prk info ((len + hashOutBytes H - 1) / hashOutBytes H) 1 []).take len

end Sys2Proof.Machine
end

