-- ==== Sys2Proof/Machine/Mapping.lean ====
section
/-! DEFINITION. Hash to base field and the Simplified SWU map (42_hash_to_curve.md R203, R205), and the
preamble tests of the H2CM (R200). -/

namespace Sys2Proof.Machine

open Sys2Proof.Config

/-- The HKDF info string `"H2C" || I2OSP(ctr, 1) || I2OSP(i, 1)` (42_hash_to_curve.md R203). -/
def hashInfo (ctr i : Nat) : List Byte :=
  [0x48#8, 0x32#8, 0x43#8] ++ i2osp ctr 1 ++ i2osp i 1

/-- Block `i` of the draw: `OS2IP(HKDF_Expand(HKDF_Extract(DST, msg || 0x00), info, l)) mod p`
(42_hash_to_curve.md R203). -/
def hashToBaseBlock (E : Curve) (msg : List Byte) (ctr i : Nat) : Nat :=
  let prk := hkdfExtract E.hash E.dst (msg ++ [0x00#8])
  os2ip (hkdfExpand E.hash prk (hashInfo ctr i) E.l) % E.p

/-- `hash_to_base(msg, ctr)` for a general m: the vector of the m values, block index 1 to m
(42_hash_to_curve.md R203). -/
def hashToBaseVector (E : Curve) (msg : List Byte) (ctr : Nat) : List Nat :=
  (List.range E.m).map fun j => hashToBaseBlock E msg ctr (j + 1)

/-- `hash_to_base(msg, ctr)` with m = 1, the only reachable case: block 1 (42_hash_to_curve.md R203). -/
def hashToBase (E : Curve) (msg : List Byte) (ctr : Nat) : Nat := hashToBaseBlock E msg ctr 1

/-- Lines 1 to 7 of the map: `x1`, normal or exceptional, from `t1` (42_hash_to_curve.md R205, R206). -/
def sswuX1 (E : Curve) (t1 : Nat) : Nat :=
  let t2 := modP E.p ((t1 : Int) ^ 2)
  let x1 := invP E.p (t1 + t2)
  let e1 := ofTruth (x1 == 0)
  let x1 := modP E.p ((x1 : Int) + 1)
  let x1 := cmov E.p x1 (curveC2 E) e1
  modP E.p ((x1 : Int) * curveC1 E)

/-- `sswu(u)`: the 17 lines (42_hash_to_curve.md R205). -/
def sswuMap (E : Curve) (u : Nat) : Nat × Nat :=
  let t1 := modP E.p ((E.z : Int) * (u : Int) ^ 2)
  let x1 := sswuX1 E t1
  let gx1 := curveRhs E x1
  let x2 := modP E.p ((t1 : Int) * x1)
  let gx2 := modP E.p ((gx1 : Int) * (t1 : Int) ^ 3)
  let e2 := ofTruth (isSquare E.p gx1)
  let x := cmov E.p x2 x1 e2
  let y2 := cmov E.p gx2 gx1 e2
  let y := sqrtP E.p y2
  let e3 := ofTruth (decide (sgn E.p u = sgn E.p y))
  (x, cmov E.p (modP E.p ((E.p : Int) - y)) y e3)

/-- The mapped point with its validation: an output off the curve raises InvalidGroupElement
(42_hash_to_curve.md R209, R210; 60_exceptions.md R235). -/
def checkedMap (E : Curve) (u : Nat) (info : BitVec 4) (body : GroupPoint → CmdResult) : CmdResult :=
  let q := sswuMap E u
  if onCurve E q.1 q.2 then body (.aff q.1 q.2) else .error ⟨.invalidGroupElement, info⟩

/-- The m test of H2B and H2C: only one field element can be delivered (42_hash_to_curve.md R200;
60_exceptions.md R233). -/
def requireOneElement (E : Curve) (body : CmdResult) : CmdResult :=
  if E.m = 1 then body else .error ⟨.incompatibleGroupParams, 0#4⟩

/-- The mapping test of SSWU and H2C (42_hash_to_curve.md R200; 60_exceptions.md R233). -/
def requireSswu (E : Curve) (body : CmdResult) : CmdResult :=
  if E.mapping = .sswu then body else .error ⟨.incompatibleGroupParams, 0#4⟩

/-- The message `BufRead(0, MSGLEN)`: a MSGLEN above 1024 raises InternalInstantiation with info 6
(42_hash_to_curve.md R200; 60_exceptions.md R232). -/
def withMessage (s : State) (body : List Byte → CmdResult) : CmdResult :=
  if s.msglen.toNat > 1024 then .error ⟨.internalInstantiation, 6#4⟩
  else body (bufRead s 0 s.msglen.toNat)

/-- The final point of H2C with its check: an invalid one raises InvalidGroupElement with info 5
(42_hash_to_curve.md R210). -/
def checkedFinal (E : Curve) (d : PReg) (q : GroupPoint) : CmdResult :=
  if validPoint E q.toPoint then pointResult d q else .error ⟨.invalidGroupElement, 5#4⟩

end Sys2Proof.Machine
end

