-- ==== Sys2Proof/Machine/H2cm.lean ====
section
/-! DEFINITION. The hash-to-curve mapper: the meanings of opcodes 0x30 to 0x32
(42_hash_to_curve.md). -/

namespace Sys2Proof.Machine

open Sys2Proof.Config

/-- H2B: `F[d] <- hash_to_base(BufRead(0, MSGLEN), ctr)` (42_hash_to_curve.md R204). -/
def execH2b (d : FReg) (ctr : BitVec 1) (s : State) : Host.Outcome State Fault Refusal :=
  complete s <| withCurve s fun E =>
    requireOneElement E <| withMessage s fun msg =>
      fieldResult d (hashToBase E msg (ctrValue ctr))

/-- SSWU: `P[d] <- sswu(Fv(a))`, validated with info 3 (42_hash_to_curve.md R209). -/
def execSswu (d : PReg) (a : FReg) (s : State) : Host.Outcome State Fault Refusal :=
  complete s <| withCurve s fun E =>
    requireSswu E <| checkedMap E (fv E s a) 3#4 fun q => pointResult d q

/-- H2C: the two draws mapped and checked (info 3, then 4), added, cleared of the cofactor, and the sum
checked (info 5) (42_hash_to_curve.md R210). -/
def execH2c (d : PReg) (s : State) : Host.Outcome State Fault Refusal :=
  complete s <| withCurve s fun E =>
    requireOneElement E <| requireSswu E <| withMessage s fun msg =>
      checkedMap E (hashToBase E msg 0) 3#4 fun Q0 =>
        checkedMap E (hashToBase E msg 1) 4#4 fun Q1 =>
          checkedFinal E d (smul E E.h (padd E Q0 Q1))

end Sys2Proof.Machine
end

