-- ==== Sys2Proof/Machine/Mau.lean ====
section
/-! DEFINITION. The modular arithmetic unit: the meanings of opcodes 0x00 to 0x11 (40_field.md). -/

namespace Sys2Proof.Machine

open Sys2Proof.Config

/-- A MAU command with a field result: the preamble, then the body's value written to `F[d]`
(40_field.md R130). -/
def fieldCommand (d : FReg) (s : State) (value : Curve → Nat) :
    Host.Outcome State Fault Refusal :=
  complete s (withCurve s fun E => fieldResult d (value E))

/-- NOP: it reads no registry entry and succeeds for every CURVE_SEL (40_field.md R131). -/
def execNop (s : State) : Host.Outcome State Fault Refusal := complete s (.ok .none)

/-- FMOV: `F[d] <- Fv(a)` (40_field.md R132). -/
def execFmov (d a : FReg) (s : State) : Host.Outcome State Fault Refusal :=
  fieldCommand d s fun E => fv E s a

/-- FLDI: `F[d] <- sext_22(imm22) mod p` (40_field.md R133). -/
def execFldi (d : FReg) (imm : BitVec 22) (s : State) : Host.Outcome State Fault Refusal :=
  fieldCommand d s fun E => modP E.p (immValue imm)

/-- FADD: `F[d] <- (Fv(a) + Fv(b)) mod p` (40_field.md R134). -/
def execFadd (d a b : FReg) (s : State) : Host.Outcome State Fault Refusal :=
  fieldCommand d s fun E => modP E.p ((fv E s a : Int) + fv E s b)

/-- FSUB: `F[d] <- (Fv(a) - Fv(b)) mod p` (40_field.md R135). -/
def execFsub (d a b : FReg) (s : State) : Host.Outcome State Fault Refusal :=
  fieldCommand d s fun E => modP E.p ((fv E s a : Int) - fv E s b)

/-- FMUL: `F[d] <- (Fv(a) * Fv(b)) mod p` (40_field.md R136). -/
def execFmul (d a b : FReg) (s : State) : Host.Outcome State Fault Refusal :=
  fieldCommand d s fun E => modP E.p ((fv E s a : Int) * fv E s b)

/-- FSQR: `F[d] <- (Fv(a) * Fv(a)) mod p` (40_field.md R137). -/
def execFsqr (d a : FReg) (s : State) : Host.Outcome State Fault Refusal :=
  fieldCommand d s fun E => modP E.p ((fv E s a : Int) * fv E s a)

/-- FNEG: `F[d] <- (0 - Fv(a)) mod p` (40_field.md R138). -/
def execFneg (d a : FReg) (s : State) : Host.Outcome State Fault Refusal :=
  fieldCommand d s fun E => modP E.p (0 - (fv E s a : Int))

/-- FINV, inverseOrZero: `F[d] <- x^(p-2) mod p` (40_field.md R139). -/
def execFinv (d a : FReg) (s : State) : Host.Outcome State Fault Refusal :=
  fieldCommand d s fun E => invP E.p (fv E s a)

/-- FPOW: `F[d] <- pow(x, e) mod p` with `e = Fv(b)` (40_field.md R140). -/
def execFpow (d a b : FReg) (s : State) : Host.Outcome State Fault Refusal :=
  fieldCommand d s fun E => powMod E.p (fv E s a) (fv E s b)

/-- FISSQ: 1 for a square, else 0 (40_field.md R141). -/
def execFissq (d a : FReg) (s : State) : Host.Outcome State Fault Refusal :=
  fieldCommand d s fun E => squareFlag E.p (fv E s a)

/-- FSQRT: `F[d] <- x^((p+1)/4) mod p`, for every x (40_field.md R142). -/
def execFsqrt (d a : FReg) (s : State) : Host.Outcome State Fault Refusal :=
  fieldCommand d s fun E => sqrtP E.p (fv E s a)

/-- FSGN: `p - 1` if `x > (p-1)/2`, else 1 (40_field.md R145). -/
def execFsgn (d a : FReg) (s : State) : Host.Outcome State Fault Refusal :=
  fieldCommand d s fun E => sgnField E.p (fv E s a)

/-- FEQ: 1 if the operand values are equal, else 0 (40_field.md R144). -/
def execFeq (d a b : FReg) (s : State) : Host.Outcome State Fault Refusal :=
  fieldCommand d s fun E => equalFlag (fv E s a) (fv E s b)

/-- FCSEL: the arithmetic blend `(c*B + (1-c)*A) mod p`, for every c (40_field.md R147). -/
def execFcsel (d a b c : FReg) (s : State) : Host.Outcome State Fault Refusal :=
  fieldCommand d s fun E => cmov E.p (fv E s a) (fv E s b) (fv E s c)

/-- FLDC: `F[d] <- const(E, sel)` (40_field.md R148). -/
def execFldc (d : FReg) (sel : CurveConst) (s : State) : Host.Outcome State Fault Refusal :=
  fieldCommand d s fun E => constValue E sel

/-- FENC: the bytes of `I2OSP(Fv(r), len)` into BUF at `off`; a value that does not fit raises
InternalInstantiation with info 7 (40_field.md R149). -/
def execFenc (r : FReg) (off : BitVec 10) (len : BitVec 8) (s : State) :
    Host.Outcome State Fault Refusal :=
  complete s <| withBufRange off len <| withCurve s fun E =>
    if fv E s r ≥ 2 ^ (8 * lenValue len) then .error ⟨.internalInstantiation, 7#4⟩
    else .ok (.bytes (offValue off) (i2osp (fv E s r) (lenValue len)))

/-- FDEC: `F[r] <- OS2IP(BufRead(off, len)) mod p` (40_field.md R150). -/
def execFdec (r : FReg) (off : BitVec 10) (len : BitVec 8) (s : State) :
    Host.Outcome State Fault Refusal :=
  complete s <| withBufRange off len <| withCurve s fun E =>
    fieldResult r (os2ip (bufRead s (offValue off) (lenValue len)) % E.p)

end Sys2Proof.Machine
end

