-- ==== Sys2Proof/Machine/Dispatch.lean ====
section
/-! DEFINITION. The dispatch: one arm per command of 30_encoding.md R113. `exec i s` is the completion of
the in-flight command `i` (10_state.md R49, R56). -/

namespace Sys2Proof.Machine

def exec (i : Instr) (s : State) : Host.Outcome State Fault Refusal :=
  match i with
  | .nop => Sys2Proof.Machine.execNop s
  | .fmov d a => Sys2Proof.Machine.execFmov d a s
  | .fldi d imm => Sys2Proof.Machine.execFldi d imm s
  | .fadd d a b => Sys2Proof.Machine.execFadd d a b s
  | .fsub d a b => Sys2Proof.Machine.execFsub d a b s
  | .fmul d a b => Sys2Proof.Machine.execFmul d a b s
  | .fsqr d a => Sys2Proof.Machine.execFsqr d a s
  | .fneg d a => Sys2Proof.Machine.execFneg d a s
  | .finv d a => Sys2Proof.Machine.execFinv d a s
  | .fpow d a b => Sys2Proof.Machine.execFpow d a b s
  | .fissq d a => Sys2Proof.Machine.execFissq d a s
  | .fsqrt d a => Sys2Proof.Machine.execFsqrt d a s
  | .fsgn d a => Sys2Proof.Machine.execFsgn d a s
  | .feq d a b => Sys2Proof.Machine.execFeq d a b s
  | .fcsel d a b c => Sys2Proof.Machine.execFcsel d a b c s
  | .fldc d sel => Sys2Proof.Machine.execFldc d sel s
  | .fenc r off len => Sys2Proof.Machine.execFenc r off len s
  | .fdec r off len => Sys2Proof.Machine.execFdec r off len s
  | .padd d a b => Sys2Proof.Machine.execPadd d a b s
  | .pdbl d a => Sys2Proof.Machine.execPdbl d a s
  | .pvalid d a => Sys2Proof.Machine.execPvalid d a s
  | .pclr d a => Sys2Proof.Machine.execPclr d a s
  | .pmul d a b => Sys2Proof.Machine.execPmul d a b s
  | .pmk d a b => Sys2Proof.Machine.execPmk d a b s
  | .px d a => Sys2Proof.Machine.execPx d a s
  | .py d a => Sys2Proof.Machine.execPy d a s
  | .pinf d => Sys2Proof.Machine.execPinf d s
  | .pisinf d a => Sys2Proof.Machine.execPisinf d a s
  | .pmov d a => Sys2Proof.Machine.execPmov d a s
  | .peq d a b => Sys2Proof.Machine.execPeq d a b s
  | .h2b d ctr => Sys2Proof.Machine.execH2b d ctr s
  | .sswu d a => Sys2Proof.Machine.execSswu d a s
  | .h2c d => Sys2Proof.Machine.execH2c d s

end Sys2Proof.Machine
end

