-- ==== Sys2Proof/Machine/Bus.lean ====
section
/-! DEFINITION. The host bus, the acceptance and completion of commands in time, and the moves of the
host, the platform and the clock (20_memory.md; 10_state.md R33 to R49; 70_reset_and_hazards.md). -/

namespace Sys2Proof.Machine

open Sys2Proof.Config

/-! ### The address map (20_memory.md R71 to R75) -/

/-- What a word address names. -/
inductive Place where
  | id
  | ctrl
  | status
  | errcode
  | errinfo
  | errcmd
  | cmd
  | curveSel
  | msglen
  | cmdcnt
  /-- word `j` of the 0x80-byte block of F register `i` -/
  | field (i : FReg) (j : Nat)
  /-- word `j` of the 0x100-byte block of P register `k` -/
  | point (k : PReg) (j : Nat)
  /-- word `w` of the BUF window -/
  | buf (w : Nat)
  | reserved
deriving DecidableEq, Repr

/-- The control window's words, byte offset `4*n` (20_memory.md R71). -/
def controlPlace (n : Nat) : Place :=
  if n = 0 then .id else if n = 1 then .ctrl else if n = 2 then .status
  else if n = 3 then .errcode else if n = 4 then .errinfo else if n = 5 then .errcmd
  else if n = 6 then .cmd else if n = 7 then .curveSel else if n = 8 then .msglen
  else if n = 9 then .cmdcnt else .reserved

/-- The place of a word address, that is of byte offset `4*addr` (20_memory.md R71 to R74): the F window
is at 0x1000 to 0x17FF, the P window at 0x2000 to 0x27FF, the BUF window at 0x4000 to 0x43FF. -/
def placeOf (addr : WordAddr) : Place :=
  if addr.extractLsb' 9 5 = 2#5 then
    .field (addr.extractLsb' 5 4).toFin (addr.extractLsb' 0 5).toNat
  else if addr.extractLsb' 9 5 = 4#5 then
    .point (addr.extractLsb' 6 3).toFin (addr.extractLsb' 0 6).toNat
  else if addr.extractLsb' 8 6 = 16#6 then .buf (addr.extractLsb' 0 8).toNat
  else controlPlace addr.toNat

/-- The F, P and BUF windows (20_memory.md R80, R81). A word of a window that R72 or R73 calls RAZ/WI
still lies in the window (log 13). -/
def Place.inWindow : Place → Bool
  | .field _ _ => true
  | .point _ _ => true
  | .buf _ => true
  | _ => false

/-! ### Words of multi-word values (20_memory.md R72 to R74, R76) -/

/-- The constant ID reads (10_state.md R33). -/
def idValue : Word := 0x4D415531#32

/-- Word `j` of a 521-bit value: bits `32*j+31 : 32*j`, zero above bit 520; words past 16 read 0
(20_memory.md R72). -/
def wordOf (v : FieldWord) (j : Nat) : Word := if j ≤ 16 then v.extractLsb' (32 * j) 32 else 0#32

/-- A 521-bit value with word `j` replaced: exactly those bits, and for word 16 only bits 520:512; words
past 16 ignore the write (20_memory.md R72). -/
def withWord (v : FieldWord) (j : Nat) (x : Word) : FieldWord :=
  if j ≤ 16 then
    (v &&& ~~~((0xFFFFFFFF#32).setWidth 521 <<< (32 * j))) ||| (x.setWidth 521 <<< (32 * j))
  else v

/-- Word `j` of a point register's block: X at 0, Y at 32 (offset +0x80), INF in bit 0 of word 63
(offset +0xFC); every other word reads 0 (20_memory.md R73). So 35 words of the block hold the register;
70_reset_and_hazards.md R268 counts 33, and the model follows the layout of R73 (DESIGN CHOICE, log 20). -/
def pointWordOf (q : Point) (j : Nat) : Word :=
  if j ≤ 16 then wordOf q.x j
  else if 32 ≤ j ∧ j ≤ 48 then wordOf q.y (j - 32)
  else if j = 63 then bitAt 0 q.inf
  else 0#32

/-- A point register with word `j` of its block written (20_memory.md R73). -/
def pointWithWord (q : Point) (j : Nat) (x : Word) : Point :=
  if j ≤ 16 then { q with x := withWord q.x j x }
  else if 32 ≤ j ∧ j ≤ 48 then { q with y := withWord q.y (j - 32) x }
  else if j = 63 then { q with inf := x.getLsbD 0 }
  else q

/-- Word `w` of BUF: `{BUF[4w+3], BUF[4w+2], BUF[4w+1], BUF[4w]}` (20_memory.md R74). -/
def bufWordOf (m : Memory) (w : Nat) : Word :=
  Memory.read m (4 * w + 3) ++ Memory.read m (4 * w + 2) ++ Memory.read m (4 * w + 1)
    ++ Memory.read m (4 * w)

/-- BUF with word `w` written: `BUF[4w+k] <- v[8k+7 : 8k]` for `k = 0..3` (20_memory.md R74). -/
def bufWithWord (m : Memory) (w : Nat) (v : Word) : Memory :=
  Memory.writeBytes m (4 * w)
    [v.extractLsb' 0 8, v.extractLsb' 8 8, v.extractLsb' 16 8, v.extractLsb' 24 8]

/-! ### Reads (10_state.md R33 to R42; 20_memory.md R72 to R75) -/

/-- The defined value of a place: what a read returns while the unit is idle, and of a control or status
register at all times (20_memory.md R81). -/
def readPlace (s : State) : Place → Word
  | .id => idValue
  | .ctrl => s.ctrl.toWord
  | .status => s.status.toWord
  | .errcode => s.errcode.setWidth 32
  | .errinfo => s.errinfo.setWidth 32
  | .errcmd => s.errcmd
  | .cmd => 0#32
  | .curveSel => s.curveSel.setWidth 32
  | .msglen => s.msglen.setWidth 32
  | .cmdcnt => s.cmdcnt
  | .field i j => wordOf s.f[i] j
  | .point k j => pointWordOf s.p[k] j
  | .buf w => bufWordOf s.buf w
  | .reserved => 0#32

/-- The value of a read is unspecified: of a data window while BUSY = 1, of anything but ID while the
reset input is asserted (20_memory.md R81; 70_reset_and_hazards.md R263). -/
def readUnspecified (s : State) (l : Place) : Bool :=
  (s.resetIn && l != .id) || (!s.resetIn && s.status.busy && l.inWindow)

/-- A host read: no side effect on the unit; an unspecified value is a fresh free word
(20_memory.md R78, R81; log 4). -/
def busRead (s : State) (addr : WordAddr) : State :=
  let l := placeOf addr
  if readUnspecified s l then { s with rdata := some (freeWord s.draws), draws := s.draws + 1 }
  else { s with rdata := some (readPlace s l) }

/-! ### Acceptance and completion of a command (10_state.md R49) -/

/-- The completion of the command word `w`: the decoded command's Exec, or IllegalCommand with its info
code (10_state.md R49; 60_exceptions.md R236). -/
def completeWord (w : Word) (s : State) : Host.Outcome State Fault Refusal :=
  match decode w with
  | .ok i => exec i s
  | .error e => complete s (.error ⟨.illegalCommand, e.info⟩)

/-- Does the command `w`, accepted with ERR = 0, complete with an error? Nothing it reads can change
before its completion (20_memory.md R80), so this is settled at acceptance. -/
def completesInError (w : Word) (s : State) : Bool :=
  match completeWord w s with
  | .next t => t.status.err
  | _ => false

/-- The MSGLEN argument of LAT: MSGLEN for H2B and H2C, nothing for the others
(70_reset_and_hazards.md R271, R272). -/
def latencyLen (op : BitVec 6) (s : State) : Nat :=
  if op = 0x30#6 ∨ op = 0x32#6 then s.msglen.toNat else 0

/-- The number of cycles from the acceptance of `w` to its completion: LAT(op, curve), or any positive
number for a command that completes with an error (70_reset_and_hazards.md R271, R274; log 6, log 7). -/
def latencyOf (w : Word) (s : State) : Nat :=
  if completesInError w s then errorLatency s.draws + 1
  else latency (opcodeOf w) s.curveSel (latencyLen (opcodeOf w) s) + 1

/-- An accepted CMD write: `INFLIGHT <- w; STATUS.BUSY <- 1` (10_state.md R49). -/
def acceptCommand (s : State) (w : Word) : State :=
  { s with
    inflight := some ⟨w, 0, latencyOf w s⟩
    status := { s.status with busy := true }
    draws := s.draws + 1 }

/-- A CMD write: accepted when BUSY = 0 and ERR = 0, otherwise dropped (10_state.md R39, R49;
70_reset_and_hazards.md R265). -/
def writeCmd (s : State) (w : Word) : State :=
  if s.status.busy || s.status.err then s.dropped else acceptCommand s w

/-! ### Writes (10_state.md R33 to R42; 20_memory.md R72 to R80) -/

/-- A data write: dropped while BUSY = 1, otherwise it takes effect (20_memory.md R80). -/
def dataWrite (s t : State) : State := if s.status.busy then s.dropped else t

/-- A CTRL write: with bit 2 = 1 the soft reset, and bits 0 and 1 are discarded; otherwise the enables
are stored. It takes effect at any time (10_state.md R34; 70_reset_and_hazards.md R260). -/
def writeCtrl (s : State) (v : Word) : State :=
  if v.getLsbD 2 then s.resetUnit else { s with ctrl := ctrlOf v }

/-- A host write to a place, with the reset input released. -/
def writePlace (s : State) (v : Word) : Place → State
  | .id => s
  | .ctrl => writeCtrl s v
  | .status => s.writeStatus v
  | .errcode => s
  | .errinfo => s
  | .errcmd => s
  | .cmd => writeCmd s v
  | .curveSel => dataWrite s { s with curveSel := v.setWidth 4 }
  | .msglen => dataWrite s { s with msglen := v.setWidth 11 }
  | .cmdcnt => s
  | .field i j => dataWrite s (s.setF i (withWord s.f[i] j v))
  | .point k j => dataWrite s (s.setP k (pointWithWord s.p[k] j v))
  | .buf w => dataWrite s { s with buf := bufWithWord s.buf w v }
  | .reserved => s

/-- A host write: ignored, without DROP, while the reset input is asserted (70_reset_and_hazards.md
R263). -/
def busWrite (s : State) (addr : WordAddr) (v : Word) : State :=
  if s.resetIn then s else writePlace s v (placeOf addr)

/-! ### Time and the reset input -/

/-- One cycle of the unit clock: the in-flight command completes on the last cycle of its latency, and
otherwise its elapsed time grows by one. An idle unit, or one held in reset, keeps its state
(10_state.md R49; 70_reset_and_hazards.md R271, R273; 60_exceptions.md R252). -/
def clockCycle (s : State) : Host.Outcome State Fault Refusal :=
  if s.resetIn then .next s
  else
    match s.inflight with
    | none => .next s
    | some c =>
      if c.latency ≤ c.elapsed + 1 then completeWord c.word s
      else .next { s with inflight := some { c with elapsed := c.elapsed + 1 } }

/-- One move. A reset that arrives while a command is in flight wins (60_exceptions.md R245). -/
def applyEvent (s : State) : Event → Host.Outcome State Fault Refusal
  | .read addr => .next (busRead s addr)
  | .write addr v => .next (busWrite s addr v)
  | .cycle => clockCycle s
  | .assertReset => .next { s.resetUnit with resetIn := true }
  | .releaseReset => .next { s with resetIn := false }

/-- The next move: the oldest of those to come, or a clock cycle when the host has no more
(70_reset_and_hazards.md R273; log 5). -/
def nextEvent (s : State) : Event :=
  match s.sched with
  | [] => .cycle
  | e :: _ => e

/-- The machine with the next move taken from the moves to come. -/
def State.popMove (s : State) : State := { s with sched := s.sched.tail }

/-- The machine with the command word `w` in flight and its last cycle the next move (log 8). -/
def State.loadCommand (s : State) (w : Word) : State :=
  { s with
    inflight := some ⟨w, 0, 1⟩
    status := { s.status with busy := true }
    resetIn := false
    sched := .cycle :: s.sched }

end Sys2Proof.Machine
end

