-- ==== Sys2Proof/Machine/Step.lean ====
section
/-! DEFINITION. One step of the machine: the next move in the total order of 20_memory.md R82, and where
a command stands when the next step is to run it. -/

namespace Sys2Proof.Machine

/-- One step: the next move, applied (20_memory.md R82; 60_exceptions.md R245). -/
def step (s : State) : Host.Outcome State Fault Refusal := applyEvent s.popMove (nextEvent s)

/-- `s` with the command word `w` where the next step completes it: in flight, with the clock cycle on
which it completes as the next move (log 8). A command is one 32-bit word; the bits above `nbits`
are 0. -/
def State.withFetchWord (s : State) (nbits w : Nat) : State :=
  s.loadCommand (BitVec.ofNat 32 (w % 2 ^ nbits))

end Sys2Proof.Machine
end

