-- ==== Sys2Proof/Safety.lean ====
section
/-! DEFINITION. The terms claims about the machine use: the invariant of its states, the host's
discipline, and the observation at the end of a run. -/

namespace Sys2Proof.Machine

open Sys2Proof.Config

/-- The pairs (ERRCODE, ERRINFO) the error registers can hold: (0, 0) after reset, and each detail code
with its kind (60_exceptions.md R230, R234). -/
def errorPairs : List (BitVec 4 × BitVec 4) :=
  [(0#4, 0#4), (1#4, 0#4), (2#4, 6#4), (2#4, 7#4), (3#4, 0#4), (4#4, 1#4), (4#4, 2#4), (4#4, 3#4),
   (4#4, 4#4), (4#4, 5#4), (5#4, 8#4), (5#4, 9#4), (5#4, 10#4), (5#4, 11#4), (5#4, 12#4)]

/-- The in-flight command has not passed its latency (70_reset_and_hazards.md R271). -/
def inTime : Option InFlight → Bool
  | none => true
  | some c => decide (c.elapsed < c.latency)

/-- What holds of the machine at every moment. -/
structure Invariant (s : State) : Prop where
  /-- BUF keeps its canonical form and its 1024 bytes (10_state.md R32; log 3) -/
  buf : Memory.wf s.buf = true
  /-- BUSY = 1 exactly when a command is in flight (10_state.md R49) -/
  busy : s.status.busy = s.inflight.isSome
  /-- no command is in flight in the error state (60_exceptions.md R240, R241) -/
  calm : (s.status.busy && s.status.err) = false
  /-- the error registers hold a code with a detail of its own (60_exceptions.md R234) -/
  pair : (s.errcode, s.errinfo) ∈ errorPairs
  /-- the error state comes from an error (60_exceptions.md R238) -/
  cause : s.status.err = true → s.errcode ≠ 0#4
  /-- the command in flight completes in time (70_reset_and_hazards.md R271) -/
  time : inTime s.inflight = true
  /-- a unit held in reset has no command in flight (70_reset_and_hazards.md R262, R263) -/
  held : s.resetIn = true → s.inflight = none

/-- A field value in canonical form for the entry (10_state.md R55). -/
def canonicalField (E : Curve) (v : FieldWord) : Prop := v.toNat < E.p

/-- A point in canonical form for the entry: `(0, 0, 1)`, or finite with coordinates below `p`
(10_state.md R54, R55). -/
def canonicalPoint (E : Curve) (q : Point) : Prop :=
  q = ⟨0#521, 0#521, true⟩ ∨ (q.inf = false ∧ q.x.toNat < E.p ∧ q.y.toNat < E.p)

/-- A move a disciplined host makes: it writes data only while BUSY = 0, and a command only while
BUSY = 0 and ERR = 0 (70_reset_and_hazards.md R265, R266, R276). -/
def disciplined (s : State) : Event → Bool
  | .write addr _ =>
    match placeOf addr with
    | .cmd => !s.status.busy && !s.status.err
    | .curveSel => !s.status.busy
    | .msglen => !s.status.busy
    | .field _ _ => !s.status.busy
    | .point _ _ => !s.status.busy
    | .buf _ => !s.status.busy
    | _ => true
  | _ => true

/-- A move that resets the unit: the reset input, or a CTRL write with SRST = 1
(70_reset_and_hazards.md R260). -/
def resets (s : State) : Event → Bool
  | .assertReset => true
  | .write addr v => !s.resetIn && decide (placeOf addr = .ctrl) && v.getLsbD 2
  | _ => false

/-- A move that issues a command: a CMD write (70_reset_and_hazards.md R276). -/
def issuesCommand : Event → Bool
  | .write addr _ => decide (placeOf addr = .cmd)
  | .read _ => false
  | .cycle => false
  | .assertReset => false
  | .releaseReset => false

/-- A run is over when the host has issued its last command, so no move to come is a CMD write, and BUSY
is 0 (70_reset_and_hazards.md R275). -/
def runOver (s : State) : Bool := !s.sched.any issuesCommand && !s.status.busy

/-- A run that is over with ERR set ended in an error (70_reset_and_hazards.md R275). -/
def endedInError (s : State) : Bool := runOver s && s.status.err

/-- What is observed at the end of a run (70_reset_and_hazards.md R275). -/
structure Observation where
  f : Vector FieldWord 16
  p : Vector Point 8
  buf : List Byte
  status : Word
  errcode : Word
  errinfo : Word
  errcmd : Word
  cmdcnt : Word
  curveSel : Word
  msglen : Word
deriving DecidableEq, Repr

/-- The observation of a state (70_reset_and_hazards.md R275). -/
def observe (s : State) : Observation where
  f := s.f
  p := s.p
  buf := bufRead s 0 1024
  status := readPlace s .status
  errcode := readPlace s .errcode
  errinfo := readPlace s .errinfo
  errcmd := readPlace s .errcmd
  cmdcnt := readPlace s .cmdcnt
  curveSel := readPlace s .curveSel
  msglen := readPlace s .msglen

end Sys2Proof.Machine
end

