-- ==== Sys2Proof/Certificates/Slice0/Obligations.lean ====
section
/-! DEFINITION. The statements about the machine, from the numbered rules of spec/, and the terms they are
written in. -/

/-! ## The terms of the statements -/

namespace Sys2Proof.Claims

open Sys2Proof.Machine Sys2Proof.Config

/-! ### Command words (30_encoding.md R121) -/

/-- `(op << 26) | (d << 22) | (a << 18) | (b << 14) | (c << 10)` (30_encoding.md R121). -/
def wordR (op d a b c : Nat) : Word :=
  BitVec.ofNat 32 (op <<< 26 ||| d <<< 22 ||| a <<< 18 ||| b <<< 14 ||| c <<< 10)

/-- `(op << 26) | (d << 22) | (imm & 0x3FFFFF)`: the low 22 bits of the integer are its remainder
modulo `2^22` (30_encoding.md R121). -/
def wordI (op d : Nat) (imm : Int) : Word :=
  BitVec.ofNat 32 (op <<< 26 ||| d <<< 22 ||| (imm % 2 ^ 22).toNat)

/-- `(op << 26) | (r << 22) | (off << 12) | (len << 4)` (30_encoding.md R121). -/
def wordB (op r off len : Nat) : Word :=
  BitVec.ofNat 32 (op <<< 26 ||| r <<< 22 ||| off <<< 12 ||| len <<< 4)

/-- `(op << 26) | (d << 22) | (ctr << 21)` (30_encoding.md R121). -/
def wordH (op d ctr : Nat) : Word := BitVec.ofNat 32 (op <<< 26 ||| d <<< 22 ||| ctr <<< 21)

/-- The instruction's word is `w`, and `w` is the only word that decodes to it. -/
def EncodedAs (i : Instr) (w : Word) : Prop :=
  encode i = w ∧ ∀ v : Word, decode v = .ok i ↔ v = w

/-! ### The states after a command -/

/-- `Fv(i) = F[i] mod p` (10_state.md R52). -/
def operand (E : Curve) (s : State) (i : FReg) : Nat := s.f[i].toNat % E.p

/-- The remainder in `[0, p)` of an integer (00_scope.md R11). -/
def residue (E : Curve) (x : Int) : Nat := (x % (E.p : Int)).toNat

/-- After a successful command that writes no register: CMDCNT counts it, BUSY is 0, DONE is 1, INFLIGHT
is none, and nothing else changes (10_state.md R49). -/
def done (s : State) : State :=
  { s with
    cmdcnt := s.cmdcnt + 1#32
    status := { s.status with busy := false, done := true }
    inflight := none }

/-- After a successful command that writes the number `v` to `F[d]`. -/
def fieldDone (s : State) (d : FReg) (v : Nat) : State :=
  { done s with f := s.f.set d (BitVec.ofNat 521 v) }

/-- After a successful command that writes the point `q` to `P[d]`. -/
def pointDone (s : State) (d : PReg) (q : Point) : State := { done s with p := s.p.set d q }

/-- After the error entry of the command `c` in flight (60_exceptions.md R238). -/
def failed (s : State) (c : InFlight) (code info : Nat) : State :=
  { s with
    errcode := BitVec.ofNat 4 code
    errinfo := BitVec.ofNat 4 info
    errcmd := c.word
    status := { s.status with err := true, done := true, busy := false }
    inflight := none }

/-- After a host write that the unit ignores and reports (60_exceptions.md R242). -/
def droppedState (s : State) : State := { s with status := { s.status with drop := true } }

/-- The command fails with UnsupportedGroup where CURVE_SEL names no entry (60_exceptions.md R231). -/
def NeedsCurve (i : Instr) : Prop :=
  ∀ s c, registry s.tags s.curveSel = none → s.inflight = some c → exec i s = .next (failed s c 1 0)

/-- The command writes the residue `value E s` to `F[d]` wherever CURVE_SEL names an entry `E`, and
changes nothing else but the completion's bits; it fails where CURVE_SEL names none. -/
def WritesField (i : Instr) (d : FReg) (value : Curve → State → Nat) : Prop :=
  (∀ s E, registry s.tags s.curveSel = some E →
    value E s < E.p ∧ exec i s = .next (fieldDone s d (value E s))) ∧ NeedsCurve i

/-- The same for a command that writes the point `value E s` to `P[d]`. -/
def WritesPoint (i : Instr) (d : PReg) (value : Curve → State → Point) : Prop :=
  (∀ s E, registry s.tags s.curveSel = some E → exec i s = .next (pointDone s d (value E s))) ∧
    NeedsCurve i

/-! ### Points (10_state.md R53, R54; 41_point.md R171) -/

/-- The identity in register form. -/
def identity : Point := ⟨0#521, 0#521, true⟩

/-- The affine point `(x, y)` in register form. -/
def affine (x y : Nat) : Point := ⟨BitVec.ofNat 521 x, BitVec.ofNat 521 y, false⟩

/-- `(y^2 - (x^3 + A*x + B)) mod p = 0` (10_state.md R53). -/
def CurveEquation (E : Curve) (x y : Nat) : Prop :=
  ((y : Int) ^ 2 - ((x : Int) ^ 3 + E.a * x + E.b)) % (E.p : Int) = 0

/-- Point validity (10_state.md R53). -/
def ValidPoint (E : Curve) (q : Point) : Prop :=
  q.inf = true ∨ (q.x.toNat < E.p ∧ q.y.toNat < E.p ∧ CurveEquation E q.x.toNat q.y.toNat)

/-- The third point `(x3, y3)` of slope `lam` through `(x1, y1)` and a point of X `x2`
(41_point.md R171). -/
def ThirdPoint (E : Curve) (lam x1 y1 x2 : Nat) : Point :=
  let x3 := residue E ((lam : Int) ^ 2 - x1 - x2)
  affine x3 (residue E ((lam : Int) * ((x1 : Int) - x3) - y1))

/-- `lam` is the slope of the chord or of the tangent: `lam` times the denominator is the numerator
modulo p (41_point.md R171). -/
def IsSlope (E : Curve) (lam x1 y1 x2 y2 : Nat) : Prop :=
  lam < E.p ∧
    if x1 = x2 then ((lam : Int) * (2 * y1) - (3 * (x1 : Int) ^ 2 + E.a)) % (E.p : Int) = 0
    else ((lam : Int) * ((x2 : Int) - x1) - ((y2 : Int) - y1)) % (E.p : Int) = 0

/-- `R` is the sum of the points the registers `P` and `Q` hold, in canonical form
(41_point.md R171). -/
def IsSum (E : Curve) (P Q R : Point) : Prop :=
  if P.inf then (if Q.inf then R = identity else R = Q)
  else if Q.inf then R = P
  else if P.x = Q.x ∧ (P.y.toNat + Q.y.toNat) % E.p = 0 then R = identity
  else ∃ lam, IsSlope E lam P.x.toNat P.y.toNat Q.x.toNat Q.y.toNat ∧
    R = ThirdPoint E lam P.x.toNat P.y.toNat Q.x.toNat

/-! ### Hash to curve (42_hash_to_curve.md R203, R205) -/

/-- The message `BUF[0 .. MSGLEN-1]`. -/
def message (s : State) : List Byte :=
  (List.range s.msglen.toNat).map fun j => Memory.read s.buf j

/-- `hash_to_base(msg, ctr)`: HKDF with the salt DST, the key material `msg || 0x00` and the info
`"H2C" || ctr || 0x01`, decoded and reduced (42_hash_to_curve.md R203). -/
def draw (E : Curve) (msg : List Byte) (ctr : Byte) : Nat :=
  os2ip (hkdfExpand E.hash (hkdfExtract E.hash E.dst (msg ++ [0x00#8]))
    [0x48#8, 0x32#8, 0x43#8, ctr, 0x01#8] E.l) % E.p

/-- The point `sswu(u)` in register form. -/
def mapped (E : Curve) (u : Nat) : Point := affine (sswuMap E u).1 (sswuMap E u).2

/-- What determines the image `(x, y)` of `u`: the point is on the curve; y has the sign of u unless it
is 0; x is x1 when `g(x1)` is a square and `t1*x1` otherwise; x1 solves the normal equation, or the
exceptional one where `t1 + t1^2 = 0` (42_hash_to_curve.md R205 to R208). -/
def IsImage (E : Curve) (u x y : Nat) : Prop :=
  let t1 := residue E ((E.z : Int) * (u : Int) ^ 2)
  let t := residue E ((t1 : Int) + (t1 : Int) ^ 2)
  CurveEquation E x y ∧ (y = 0 ∨ ((E.p - 1) / 2 < y ↔ (E.p - 1) / 2 < u)) ∧
    ∃ x1, x1 < E.p ∧
      (if t = 0 then ((x1 : Int) * (E.z * E.a) - E.b) % (E.p : Int) = 0
        else ((x1 : Int) * (E.a * t) + E.b * (1 + t)) % (E.p : Int) = 0) ∧
      ((∃ r, CurveEquation E x1 r) → x = x1) ∧
      ((¬ ∃ r, CurveEquation E x1 r) → x = t1 * x1 % E.p)

/-! ### The bus

The data of a read stands in the model's own field `rdata` (log 16). -/

/-- The word address of a byte offset (20_memory.md R70). -/
def wordAt (offset : Nat) : WordAddr := BitVec.ofNat 14 (offset / 4)

/-- The offsets of the F, P and BUF windows that hold a register's or the buffer's bits
(20_memory.md R72 to R74): words 0 to 16 of an F block; X, Y and INF of a P block; every word of the BUF
window. -/
def holdsData (offset : Nat) : Prop :=
  (0x1000 ≤ offset ∧ offset < 0x1800 ∧ offset % 0x80 ≤ 0x40) ∨
    (0x2000 ≤ offset ∧ offset < 0x2800 ∧ (offset % 0x100 ≤ 0x40 ∨
      (0x80 ≤ offset % 0x100 ∧ offset % 0x100 ≤ 0xC0) ∨ offset % 0x100 = 0xFC)) ∨
    (0x4000 ≤ offset ∧ offset < 0x4400)

/-- The offsets outside the F, P and BUF windows (20_memory.md R71). -/
def outsideWindows (offset : Nat) : Prop :=
  offset < 0x1000 ∨ (0x1800 ≤ offset ∧ offset < 0x2000) ∨ (0x2800 ≤ offset ∧ offset < 0x4000) ∨
    0x4400 ≤ offset

/-- The reserved offsets (20_memory.md R71). -/
def isReserved (offset : Nat) : Prop :=
  (0x0028 ≤ offset ∧ offset < 0x1000) ∨ (0x1800 ≤ offset ∧ offset < 0x2000) ∨
    (0x2800 ≤ offset ∧ offset < 0x4000) ∨ (0x4400 ≤ offset ∧ offset < 0x10000)

/-! ### What a command may write (10_state.md R57) -/

/-- The field register an instruction names as its destination. -/
def fieldDest : Instr → Option FReg
  | .fmov d _ => some d
  | .fldi d _ => some d
  | .fadd d _ _ => some d
  | .fsub d _ _ => some d
  | .fmul d _ _ => some d
  | .fsqr d _ => some d
  | .fneg d _ => some d
  | .finv d _ => some d
  | .fpow d _ _ => some d
  | .fissq d _ => some d
  | .fsqrt d _ => some d
  | .fsgn d _ => some d
  | .feq d _ _ => some d
  | .fcsel d _ _ _ => some d
  | .fldc d _ => some d
  | .fdec d _ _ => some d
  | .pvalid d _ => some d
  | .px d _ => some d
  | .py d _ => some d
  | .pisinf d _ => some d
  | .peq d _ _ => some d
  | .h2b d _ => some d
  | .nop => none
  | .fenc _ _ _ => none
  | .padd _ _ _ => none
  | .pdbl _ _ => none
  | .pclr _ _ => none
  | .pmul _ _ _ => none
  | .pmk _ _ _ => none
  | .pinf _ => none
  | .pmov _ _ => none
  | .sswu _ _ => none
  | .h2c _ => none

/-- The point register an instruction names as its destination. -/
def pointDest : Instr → Option PReg
  | .padd d _ _ => some d
  | .pdbl d _ => some d
  | .pclr d _ => some d
  | .pmul d _ _ => some d
  | .pmk d _ _ => some d
  | .pinf d => some d
  | .pmov d _ => some d
  | .sswu d _ => some d
  | .h2c d => some d
  | .nop => none
  | .fmov _ _ => none
  | .fldi _ _ => none
  | .fadd _ _ _ => none
  | .fsub _ _ _ => none
  | .fmul _ _ _ => none
  | .fsqr _ _ => none
  | .fneg _ _ => none
  | .finv _ _ => none
  | .fpow _ _ _ => none
  | .fissq _ _ => none
  | .fsqrt _ _ => none
  | .fsgn _ _ => none
  | .feq _ _ _ => none
  | .fcsel _ _ _ _ => none
  | .fldc _ _ => none
  | .fenc _ _ _ => none
  | .fdec _ _ _ => none
  | .pvalid _ _ => none
  | .px _ _ => none
  | .py _ _ => none
  | .pisinf _ _ => none
  | .peq _ _ _ => none
  | .h2b _ _ => none

/-- Index `a` is one of the bytes the instruction stores to: `BUF[off .. off+len-1]` for FENC, none for
any other (10_state.md R32; 40_field.md R149). -/
def Stores (i : Instr) (a : Nat) : Prop :=
  ∃ r off len, i = .fenc r off len ∧ offValue off ≤ a ∧ a < offValue off + lenValue len

end Sys2Proof.Claims

open Sys2Proof Sys2Proof.Machine Sys2Proof.Config Sys2Proof.Claims

/-! ## Encoding -/

/-- Decoding the word of a well-formed instruction gives the instruction back, for every operand the
encoding admits. -/
def Obligations.DecodeOfEncode : Prop := ∀ i : Instr, i.wellFormed = true → decode (encode i) = .ok i

/-- A word that decodes to an instruction is that instruction's word, and the instruction is well
formed. -/
def Obligations.EncodeOfDecode : Prop :=
  ∀ (w : Word) (i : Instr), decode w = .ok i → encode i = w ∧ i.wellFormed = true

/-- 30_encoding.md R113 and R116: a word is the listed instruction exactly when it matches the row and
meets the row's extra constraint; every word decodes to one instruction of the map or to one info code;
no two rows match one word. -/
def Obligations.OpcodeMapIsExact : Prop :=
  (∀ (w : Word) (r : OpcodeRow), r ∈ opcodeMap →
    ((∃ i, decode w = .ok i ∧ i.mnemonic = r.mnemonic) ↔
      (w &&& r.mask = r.pattern ∧ extraConstraint w = true))) ∧
  (∀ w : Word, (∃ i, decode w = .ok i ∧ ∃ r ∈ opcodeMap, r.mnemonic = i.mnemonic) ∨
    ∃ e, decode w = .error e ∧ e.info.toNat ∈ [8, 9, 10, 11, 12]) ∧
  ∀ (w : Word) (r r' : OpcodeRow), r ∈ opcodeMap → r' ∈ opcodeMap →
    w &&& r.mask = r.pattern → w &&& r'.mask = r'.pattern → r = r'

/-- 30_encoding.md R114: the first check that applies gives the info code, and the word completes with
IllegalCommand and that code, writing nothing but the error state. The must-be-zero bits and the top bits
of the P-typed fields of each opcode are written out from R108 and R113. -/
def Obligations.IllegalChecksInOrder : Prop :=
  (∀ w : Word, (opcodeOf w).toNat ∈
      List.range' 0x12 14 ++ List.range' 0x2C 4 ++ List.range' 0x33 13 →
    decode w = .error .reservedOpcode ∧ Illegal.info .reservedOpcode = 8#4) ∧
  (∀ (w : Word) (op : Nat) (zeros : Word), (opcodeOf w).toNat = op →
      (op, zeros) ∈ [(0x00, 0x03FFFFFF#32), (0x01, 0x0003FFFF#32), (0x03, 0x00003FFF#32),
        (0x04, 0x00003FFF#32), (0x05, 0x00003FFF#32), (0x06, 0x0003FFFF#32), (0x07, 0x0003FFFF#32),
        (0x08, 0x0003FFFF#32), (0x09, 0x00003FFF#32), (0x0A, 0x0003FFFF#32), (0x0B, 0x0003FFFF#32),
        (0x0C, 0x0003FFFF#32), (0x0D, 0x00003FFF#32), (0x0E, 0x000003FF#32), (0x0F, 0x0003FFFF#32),
        (0x10, 0x0000000F#32), (0x11, 0x0000000F#32), (0x20, 0x00003FFF#32), (0x21, 0x0003FFFF#32),
        (0x22, 0x0003FFFF#32), (0x23, 0x0003FFFF#32), (0x24, 0x00003FFF#32), (0x25, 0x00003FFF#32),
        (0x26, 0x0003FFFF#32), (0x27, 0x0003FFFF#32), (0x28, 0x003FFFFF#32), (0x29, 0x0003FFFF#32),
        (0x2A, 0x0003FFFF#32), (0x2B, 0x00003FFF#32), (0x30, 0x001FFFFF#32), (0x31, 0x0003FFFF#32),
        (0x32, 0x003FFFFF#32)] →
    (w &&& zeros ≠ 0#32 → decode w = .error .mustBeZero ∧ Illegal.info .mustBeZero = 9#4) ∧
    (w &&& zeros = 0#32 → ∀ pbits : Word,
      (op, pbits) ∈ [(0x20, 0x02220000#32), (0x21, 0x02200000#32), (0x22, 0x00200000#32),
        (0x23, 0x02200000#32), (0x24, 0x02200000#32), (0x25, 0x02000000#32), (0x26, 0x00200000#32),
        (0x27, 0x00200000#32), (0x28, 0x02000000#32), (0x29, 0x00200000#32), (0x2A, 0x02200000#32),
        (0x2B, 0x00220000#32), (0x31, 0x02000000#32), (0x32, 0x02000000#32)] →
      w &&& pbits ≠ 0#32 → decode w = .error .pointIndex ∧ Illegal.info .pointIndex = 10#4) ∧
    (w &&& zeros = 0#32 → op = 0x0F → 9 ≤ (fieldA w).toNat →
      decode w = .error .constSelector ∧ Illegal.info .constSelector = 11#4) ∧
    (w &&& zeros = 0#32 → op = 0x10 ∨ op = 0x11 →
      1024 < (fieldOff w).toNat + (fieldLen w).toNat →
      decode w = .error .bufferRange ∧ Illegal.info .bufferRange = 12#4)) ∧
  ∀ (s : State) (c : InFlight) (e : Illegal), s.inflight = some c → decode c.word = .error e →
    completeWord c.word s = .next (failed s c 5 e.info.toNat)

/-- Words of the spec's examples, one for each family, decode to the instructions they stand for. -/
def Obligations.SpecWordsDecode : Prop :=
  decode 0x0C48C000#32 = .ok (.fadd 1 2 3) ∧ decode 0x083FFFF4#32 = .ok (.fldi 0 (BitVec.ofInt 22 (-12))) ∧
  decode 0x40C00480#32 = .ok (.fenc 3 0#10 72#8) ∧ decode 0x80804000#32 = .ok (.padd 2 0 1) ∧
  decode 0xC0600000#32 = .ok (.h2b 1 1#1) ∧ decode 0xC8C00000#32 = .ok (.h2c 3) ∧
  decode 0x39048C00#32 = .ok (.fcsel 4 1 2 3) ∧ decode 0x3C900000#32 = .ok (.fldc 2 .c2)

/-- 30_encoding.md R120: each pseudo-instruction is one command, with its effect. -/
def Obligations.PseudoInstructions : Prop :=
  ∀ d a c : FReg,
    (Instr.fzero d = .fldi d (BitVec.ofInt 22 0) ∧ WritesField (Instr.fzero d) d fun _ _ => 0) ∧
    (Instr.fone d = .fldi d (BitVec.ofInt 22 1) ∧ WritesField (Instr.fone d) d fun _ _ => 1) ∧
    (Instr.fmone d = .fldi d (BitVec.ofInt 22 (-1)) ∧
      WritesField (Instr.fmone d) d fun E _ => E.p - 1) ∧
    Instr.fcmov d a c = .fcsel d d a c ∧
    (∀ s E, registry s.tags s.curveSel = some E → operand E s c = 1 →
      exec (Instr.fcmov d a c) s = .next (fieldDone s d (operand E s a))) ∧
    (∀ s E, registry s.tags s.curveSel = some E → operand E s c = 0 →
      exec (Instr.fcmov d a c) s = .next (fieldDone s d (operand E s d)))

/-! ## The field commands (40_field.md) -/

/-- 40_field.md R131 and 30_encoding.md R115: NOP does nothing but complete, for every CURVE_SEL; the zero
word is the only no-op, every other word of opcode 0 and every reserved opcode is illegal. -/
def Obligations.NopOnlyCompletes : Prop :=
  EncodedAs .nop 0x00000000#32 ∧
  (∀ w : Word, opcodeOf w = 0#6 → w ≠ 0#32 →
    decode w = .error .mustBeZero ∧ Illegal.info .mustBeZero = 9#4) ∧
  (∀ w : Word, (opcodeOf w).toNat ∈ List.range' 0x12 14 ++ List.range' 0x2C 4 ++ List.range' 0x33 13 →
    decode w = .error .reservedOpcode) ∧
  ∀ s : State, exec .nop s = .next (done s)

/-- 40_field.md R132 and R133: FMOV writes the reduced value of its source, FLDI its signed immediate
modulo p. -/
def Obligations.MovesAndImmediates : Prop :=
  (∀ d a : FReg, EncodedAs (.fmov d a) (wordR 0x01 d a 0 0) ∧
    WritesField (.fmov d a) d fun E s => operand E s a) ∧
  ∀ (d : FReg) (n : Int), -2097152 ≤ n → n ≤ 2097151 →
    EncodedAs (.fldi d (BitVec.ofInt 22 n)) (wordI 0x02 d n) ∧
    WritesField (.fldi d (BitVec.ofInt 22 n)) d fun E _ => residue E n

/-- 40_field.md R134 to R138: the ring commands write the exact integer result modulo p. -/
def Obligations.RingCommandsReduce : Prop :=
  ∀ d a b : FReg,
    (EncodedAs (.fadd d a b) (wordR 0x03 d a b 0) ∧
      WritesField (.fadd d a b) d fun E s => (operand E s a + operand E s b) % E.p) ∧
    (EncodedAs (.fsub d a b) (wordR 0x04 d a b 0) ∧
      WritesField (.fsub d a b) d fun E s => residue E ((operand E s a : Int) - operand E s b)) ∧
    (EncodedAs (.fmul d a b) (wordR 0x05 d a b 0) ∧
      WritesField (.fmul d a b) d fun E s => operand E s a * operand E s b % E.p) ∧
    (EncodedAs (.fsqr d a) (wordR 0x06 d a 0 0) ∧
      WritesField (.fsqr d a) d fun E s => operand E s a * operand E s a % E.p) ∧
    (EncodedAs (.fneg d a) (wordR 0x07 d a 0 0) ∧
      WritesField (.fneg d a) d fun E s => residue E (0 - (operand E s a : Int)))

/-- 40_field.md R139: FINV writes the power `x^(p-2)`, which is the inverse of a non-zero x and 0 for
0. -/
def Obligations.FinvInverts : Prop :=
  ∀ d a : FReg, EncodedAs (.finv d a) (wordR 0x08 d a 0 0) ∧
    (WritesField (.finv d a) d fun E s => operand E s a ^ (E.p - 2) % E.p) ∧
    ∀ s E, registry s.tags s.curveSel = some E →
      (operand E s a = 0 → exec (.finv d a) s = .next (fieldDone s d 0)) ∧
      (operand E s a ≠ 0 → ∃ v, v < E.p ∧ operand E s a * v % E.p = 1 ∧
        exec (.finv d a) s = .next (fieldDone s d v))

/-- 40_field.md R140: FPOW writes the power, with exponent 0 giving 1 for every base. -/
def Obligations.FpowRaises : Prop :=
  ∀ d a b : FReg, EncodedAs (.fpow d a b) (wordR 0x09 d a b 0) ∧
    (WritesField (.fpow d a b) d fun E s => operand E s a ^ operand E s b % E.p) ∧
    ∀ s E, registry s.tags s.curveSel = some E →
      (operand E s b = 0 → exec (.fpow d a b) s = .next (fieldDone s d 1)) ∧
      (operand E s b = E.p - 1 → operand E s a ≠ 0 →
        exec (.fpow d a b) s = .next (fieldDone s d 1))

/-- 40_field.md R141: FISSQ writes 1 exactly when Euler's criterion gives 0 or 1, that is, exactly when
the operand is a square; p - 1 and Z are none. -/
def Obligations.FissqTestsSquares : Prop :=
  ∀ d a : FReg, EncodedAs (.fissq d a) (wordR 0x0A d a 0 0) ∧
    (WritesField (.fissq d a) d fun E s =>
      if operand E s a ^ ((E.p - 1) / 2) % E.p = 0 ∨ operand E s a ^ ((E.p - 1) / 2) % E.p = 1 then 1
      else 0) ∧
    ∀ s E, registry s.tags s.curveSel = some E →
      ((∃ r, r * r % E.p = operand E s a) → exec (.fissq d a) s = .next (fieldDone s d 1)) ∧
      ((¬ ∃ r, r * r % E.p = operand E s a) → exec (.fissq d a) s = .next (fieldDone s d 0)) ∧
      (operand E s a = E.p - 1 ∨ operand E s a = E.z →
        exec (.fissq d a) s = .next (fieldDone s d 0))

/-- 40_field.md R142: FSQRT writes `x^((p+1)/4)`: the root of a square x that is itself a square, and a
root of -x for any other x. -/
def Obligations.FsqrtFindsRoots : Prop :=
  ∀ d a : FReg, EncodedAs (.fsqrt d a) (wordR 0x0B d a 0 0) ∧
    (WritesField (.fsqrt d a) d fun E s => operand E s a ^ ((E.p + 1) / 4) % E.p) ∧
    ∀ s E, registry s.tags s.curveSel = some E → ∃ r, r < E.p ∧
      exec (.fsqrt d a) s = .next (fieldDone s d r) ∧
      ((∃ q, q * q % E.p = operand E s a) →
        r * r % E.p = operand E s a ∧ ∃ q, q * q % E.p = r) ∧
      ((¬ ∃ q, q * q % E.p = operand E s a) → r * r % E.p = E.p - operand E s a)

/-- 40_field.md R144 and R145: FEQ compares after reduction, and FSGN splits at `(p-1)/2`. -/
def Obligations.ComparisonAndSign : Prop :=
  ∀ d a b : FReg,
    (EncodedAs (.feq d a b) (wordR 0x0D d a b 0) ∧
      WritesField (.feq d a b) d fun E s => if operand E s a = operand E s b then 1 else 0) ∧
    (EncodedAs (.fsgn d a) (wordR 0x0C d a 0 0) ∧
      WritesField (.fsgn d a) d fun E s => if operand E s a > (E.p - 1) / 2 then E.p - 1 else 1)

/-- 40_field.md R147: FCSEL is the arithmetic blend for every selector, and a select for 0 and 1. -/
def Obligations.FcselBlends : Prop :=
  ∀ d a b c : FReg, EncodedAs (.fcsel d a b c) (wordR 0x0E d a b c) ∧
    (WritesField (.fcsel d a b c) d fun E s =>
      residue E ((operand E s c : Int) * operand E s b +
        (1 - (operand E s c : Int)) * operand E s a)) ∧
    ∀ s E, registry s.tags s.curveSel = some E →
      (operand E s c = 0 → exec (.fcsel d a b c) s = .next (fieldDone s d (operand E s a))) ∧
      (operand E s c = 1 → exec (.fcsel d a b c) s = .next (fieldDone s d (operand E s b)))

/-- 40_field.md R148 with 30_encoding.md R112: FLDC writes the selected constant; c1 and c2 are the
quotients -B/A and -1/Z; selectors 9 to 15 are illegal with info 11. -/
def Obligations.FldcLoadsConstants : Prop :=
  ∀ d : FReg,
    (∀ x ∈ ([(0, .a, fun E => E.a), (1, .b, fun E => E.b), (2, .z, fun E => E.z % E.p),
        (5, .h, fun E => E.h), (6, .n, fun E => E.n), (7, .gx, fun E => E.gx),
        (8, .gy, fun E => E.gy)] : List (Nat × CurveConst × (Curve → Nat))),
      EncodedAs (.fldc d x.2.1) (wordR 0x0F d x.1 0 0) ∧
      WritesField (.fldc d x.2.1) d fun E _ => x.2.2 E) ∧
    EncodedAs (.fldc d .c1) (wordR 0x0F d 3 0 0) ∧ EncodedAs (.fldc d .c2) (wordR 0x0F d 4 0 0) ∧
    NeedsCurve (.fldc d .c1) ∧ NeedsCurve (.fldc d .c2) ∧
    (∀ sel : Nat, 9 ≤ sel → sel ≤ 15 → decode (wordR 0x0F d sel 0 0) = .error .constSelector ∧
      Illegal.info .constSelector = 11#4) ∧
    ∀ s E, registry s.tags s.curveSel = some E →
      (∃ v, v < E.p ∧ exec (.fldc d .c1) s = .next (fieldDone s d v) ∧
        ((v : Int) * E.a + E.b) % (E.p : Int) = 0) ∧
      (∃ v, v < E.p ∧ exec (.fldc d .c2) s = .next (fieldDone s d v) ∧
        ((v : Int) * E.z + 1) % (E.p : Int) = 0)

/-- 10_state.md R46: the values of the derived constants of both entries. -/
def Obligations.DerivedConstants : Prop :=
  curveC1 p384 = 0xE665BA8D4B6A4D4C32DA01CEA152B9B30809DECFAA2B15B0ABB1582FC55BD7C8421CBDD92E0F9B346381EDA546A40E4F ∧
  curveC2 p384 = 0x15555555555555555555555555555555555555555555555555555555555555553FFFFFFFEAAAAAAAAAAAAAAAC0000000 ∧
  expSq p384.p = 0x7FFFFFFFFFFFFFFFFFFFFFFFFFFFFFFFFFFFFFFFFFFFFFFFFFFFFFFFFFFFFFFF7FFFFFFF80000000000000007FFFFFFF ∧
  expSqrt p384.p = 0x3FFFFFFFFFFFFFFFFFFFFFFFFFFFFFFFFFFFFFFFFFFFFFFFFFFFFFFFFFFFFFFFBFFFFFFFC00000000000000040000000 ∧
  curveC1 p521 = 0xC5DC6A3DCB2F5EDE0A8633608AE781C04F8B9E261E889107513D91833084FB034B1CB3131B4ED4DBD3B21B9594693B3FAD11D14A82BF0EBC50A5170A9C23C56A55 ∧
  curveC2 p521 = 2 ^ 519 ∧ expSq p521.p = 2 ^ 520 - 1 ∧ expSqrt p521.p = 2 ^ 519 ∧
  ∀ E ∈ [p384, p521], E.p % 4 = 3 ∧ expSq E.p = (E.p - 1) / 2 ∧ expSqrt E.p = (E.p + 1) / 4 ∧
    expInv E.p = E.p - 2 ∧ ((curveC1 E : Int) * E.a + E.b) % (E.p : Int) = 0 ∧
    ((curveC2 E : Int) * E.z + 1) % (E.p : Int) = 0

/-- 40_field.md R149: FENC stores the big-endian bytes of a value that fits at `BUF[off]` and on, and
changes no other byte and nothing else; a value that does not fit raises InternalInstantiation with
info 7; a range past the buffer is illegal with info 12. -/
def Obligations.FencWritesBytes : Prop :=
  ∀ (r : FReg) (off : BitVec 10) (len : BitVec 8),
    (lenValue len + offValue off ≤ 1024 →
      EncodedAs (.fenc r off len) (wordB 0x10 r off.toNat len.toNat) ∧ NeedsCurve (.fenc r off len) ∧
      ∀ s E, registry s.tags s.curveSel = some E →
        (operand E s r < 2 ^ (8 * lenValue len) → Memory.wf s.buf = true →
          ∃ t, exec (.fenc r off len) s = .next t ∧ t = { done s with buf := t.buf } ∧
            (∀ j, j < lenValue len → Memory.read t.buf (offValue off + j) =
              BitVec.ofNat 8 (operand E s r / 256 ^ (lenValue len - 1 - j))) ∧
            ∀ x, ¬ (offValue off ≤ x ∧ x < offValue off + lenValue len) →
              Memory.read t.buf x = Memory.read s.buf x) ∧
        (2 ^ (8 * lenValue len) ≤ operand E s r → ∀ c, s.inflight = some c →
          exec (.fenc r off len) s = .next (failed s c 2 7))) ∧
    (1024 < lenValue len + offValue off →
      decode (wordB 0x10 r off.toNat len.toNat) = .error .bufferRange ∧
      Illegal.info .bufferRange = 12#4)

/-- 40_field.md R150: FDEC writes the big-endian value of the bytes at `BUF[off]` and on, modulo p, and
stores nothing; a range past the buffer is illegal with info 12. -/
def Obligations.FdecReadsBytes : Prop :=
  ∀ (r : FReg) (off : BitVec 10) (len : BitVec 8),
    (lenValue len + offValue off ≤ 1024 →
      EncodedAs (.fdec r off len) (wordB 0x11 r off.toNat len.toNat) ∧
      WritesField (.fdec r off len) r fun E s =>
        (∑ j ∈ Finset.range (lenValue len), (Memory.read s.buf (offValue off + j)).toNat *
          2 ^ (8 * (lenValue len - 1 - j))) % E.p) ∧
    (1024 < lenValue len + offValue off →
      decode (wordB 0x11 r off.toNat len.toNat) = .error .bufferRange ∧
      Illegal.info .bufferRange = 12#4)

/-- 40_field.md R152: FENC of a value that fits, then FDEC from the same range, gives the value back. -/
def Obligations.EncodeDecodeRoundTrip : Prop :=
  ∀ (s : State) (E : Curve) (f g : FReg) (off : BitVec 10) (len : BitVec 8),
    registry s.tags s.curveSel = some E → Memory.wf s.buf = true →
    offValue off + lenValue len ≤ 1024 →
    operand E s f < 2 ^ (8 * lenValue len) →
    ∃ t u, exec (.fenc f off len) s = .next t ∧ exec (.fdec g off len) t = .next u ∧
      operand E u g = operand E s f

/-! ## The point commands (41_point.md) -/

/-- 41_point.md R171 to R173: PADD and PDBL write the sum of their checked operands by the group law;
an invalid operand raises InvalidGroupElement, a before b. -/
def Obligations.PointsAddByGroupLaw : Prop :=
  ∀ d a b : PReg,
    EncodedAs (.padd d a b) (wordR 0x20 d a b 0) ∧ EncodedAs (.pdbl d a) (wordR 0x21 d a 0 0) ∧
    NeedsCurve (.padd d a b) ∧ NeedsCurve (.pdbl d a) ∧
    ∀ s E, registry s.tags s.curveSel = some E →
      (ValidPoint E s.p[a] → ValidPoint E s.p[b] →
        ∃ R, IsSum E s.p[a] s.p[b] R ∧ exec (.padd d a b) s = .next (pointDone s d R)) ∧
      (ValidPoint E s.p[a] →
        ∃ R, IsSum E s.p[a] s.p[a] R ∧ exec (.pdbl d a) s = .next (pointDone s d R)) ∧
      (∀ c, s.inflight = some c → ¬ ValidPoint E s.p[a] →
        exec (.padd d a b) s = .next (failed s c 4 1) ∧ exec (.pdbl d a) s = .next (failed s c 4 1)) ∧
      (∀ c, s.inflight = some c → ValidPoint E s.p[a] → ¬ ValidPoint E s.p[b] →
        exec (.padd d a b) s = .next (failed s c 4 2))

/-- 41_point.md R174 with 10_state.md R53: PVALID writes 1 for a valid point and 0 for any other, and
raises nothing. -/
def Obligations.PvalidTestsValidity : Prop :=
  ∀ (d : FReg) (a : PReg), EncodedAs (.pvalid d a) (wordR 0x22 d a 0 0) ∧ NeedsCurve (.pvalid d a) ∧
    ∀ s E, registry s.tags s.curveSel = some E →
      (ValidPoint E s.p[a] → exec (.pvalid d a) s = .next (fieldDone s d 1)) ∧
      (¬ ValidPoint E s.p[a] → exec (.pvalid d a) s = .next (fieldDone s d 0))

/-- 41_point.md R176: with cofactor 1, PCLR is a checked copy into canonical form. -/
def Obligations.PclrCopiesChecked : Prop :=
  ∀ d a : PReg, EncodedAs (.pclr d a) (wordR 0x23 d a 0 0) ∧ NeedsCurve (.pclr d a) ∧
    ∀ s E, registry s.tags s.curveSel = some E → E.h = 1 ∧
      (s.p[a].inf = true → exec (.pclr d a) s = .next (pointDone s d identity)) ∧
      (s.p[a].inf = false → ValidPoint E s.p[a] →
        exec (.pclr d a) s = .next (pointDone s d s.p[a])) ∧
      (∀ c, s.inflight = some c → ¬ ValidPoint E s.p[a] →
        exec (.pclr d a) s = .next (failed s c 4 1))

/-- 41_point.md R177: PMUL writes the multiple of its checked point by the reduced scalar: O for 0, a
canonical copy for 1, `smul(k, P)` for every k, by the model's double-and-add (log 12). -/
def Obligations.PmulWritesMultiple : Prop :=
  ∀ (d a : PReg) (b : FReg), EncodedAs (.pmul d a b) (wordR 0x24 d a b 0) ∧
    NeedsCurve (.pmul d a b) ∧
    ∀ s E, registry s.tags s.curveSel = some E →
      (ValidPoint E s.p[a] →
        exec (.pmul d a b) s =
          .next (pointDone s d (smul E (operand E s b) s.p[a].toGroup).toPoint) ∧
        (operand E s b = 0 → exec (.pmul d a b) s = .next (pointDone s d identity)) ∧
        (operand E s b = 1 → s.p[a].inf = false →
          exec (.pmul d a b) s = .next (pointDone s d s.p[a]))) ∧
      (∀ c, s.inflight = some c → ¬ ValidPoint E s.p[a] →
        exec (.pmul d a b) s = .next (failed s c 4 1))

/-- 41_point.md R175: on the valid points a register can hold, the model's double-and-add (log 12) meets
the rule's recurrence, `smul(0, P) = O` and `smul(k + 1, P) = padd(smul(k, P), P)`. -/
def Obligations.ScalarMultiplicationIsRepeatedAddition : Prop :=
  ∀ (tags : Tags) (id : BitVec 4) (E : Curve) (q : Point), registry tags id = some E → ValidPoint E q →
    smul E 0 q.toGroup = .inf ∧
    ∀ k : Nat, smul E (k + 1) q.toGroup = padd E (smul E k q.toGroup) q.toGroup

/-- 41_point.md R186, its first half: the sum of valid points and every multiple of a valid point are
valid, in canonical form. -/
def Obligations.GroupLawIsClosed : Prop :=
  ∀ (tags : Tags) (id : BitVec 4) (E : Curve) (q r : Point), registry tags id = some E →
    ValidPoint E q → ValidPoint E r →
    (ValidPoint E (padd E q.toGroup r.toGroup).toPoint ∧
      canonicalPoint E (padd E q.toGroup r.toGroup).toPoint) ∧
    ∀ k : Nat, ValidPoint E (smul E k q.toGroup).toPoint ∧
      canonicalPoint E (smul E k q.toGroup).toPoint

/-- 41_point.md R178 to R180: PMK makes a finite point of two reduced values, unchecked; PX and PY read
one coordinate, reduced, whatever INF. -/
def Obligations.CoordinateCommands : Prop :=
  (∀ (d : PReg) (a b : FReg), EncodedAs (.pmk d a b) (wordR 0x25 d a b 0) ∧
    WritesPoint (.pmk d a b) d fun E s => affine (operand E s a) (operand E s b)) ∧
  ∀ (d : FReg) (a : PReg),
    (EncodedAs (.px d a) (wordR 0x26 d a 0 0) ∧
      WritesField (.px d a) d fun E s => s.p[a].x.toNat % E.p) ∧
    (EncodedAs (.py d a) (wordR 0x27 d a 0 0) ∧
      WritesField (.py d a) d fun E s => s.p[a].y.toNat % E.p)

/-- 41_point.md R181 to R183: PINF writes the identity, PISINF reads the INF bit, PMOV copies all 1043
bits, unreduced and unchecked. -/
def Obligations.IdentityAndCopyCommands : Prop :=
  (∀ d : PReg, EncodedAs (.pinf d) (wordR 0x28 d 0 0 0) ∧
    WritesPoint (.pinf d) d fun _ _ => identity) ∧
  (∀ (d : FReg) (a : PReg), EncodedAs (.pisinf d a) (wordR 0x29 d a 0 0) ∧
    WritesField (.pisinf d a) d fun _ s => if s.p[a].inf then 1 else 0) ∧
  ∀ d a : PReg, EncodedAs (.pmov d a) (wordR 0x2A d a 0 0) ∧
    WritesPoint (.pmov d a) d fun _ s => s.p[a]

/-- 41_point.md R184: PEQ writes 1 for two identities or equal finite points, else 0, on checked
operands. -/
def Obligations.PeqComparesPoints : Prop :=
  ∀ (d : FReg) (a b : PReg), EncodedAs (.peq d a b) (wordR 0x2B d a b 0) ∧ NeedsCurve (.peq d a b) ∧
    ∀ s E, registry s.tags s.curveSel = some E →
      (ValidPoint E s.p[a] → ValidPoint E s.p[b] →
        exec (.peq d a b) s = .next (fieldDone s d
          (if (s.p[a].inf = true ∧ s.p[b].inf = true) ∨
            (s.p[a].inf = false ∧ s.p[b].inf = false ∧ s.p[a].x = s.p[b].x ∧ s.p[a].y = s.p[b].y)
            then 1 else 0))) ∧
      (∀ c, s.inflight = some c → ¬ ValidPoint E s.p[a] →
        exec (.peq d a b) s = .next (failed s c 4 1)) ∧
      (∀ c, s.inflight = some c → ValidPoint E s.p[a] → ¬ ValidPoint E s.p[b] →
        exec (.peq d a b) s = .next (failed s c 4 2))

/-! ## The hash-to-curve commands (42_hash_to_curve.md) -/

/-- 42_hash_to_curve.md R203 and R204: H2B writes the draw of the first MSGLEN bytes of BUF; a MSGLEN
above 1024 raises InternalInstantiation with info 6. The hash behind the draw is the model's (log 9); the tag
is the unit's (log 10). -/
def Obligations.H2bDrawsFieldElement : Prop :=
  ∀ (d : FReg) (ctr : BitVec 1), EncodedAs (.h2b d ctr) (wordH 0x30 d ctr.toNat) ∧
    NeedsCurve (.h2b d ctr) ∧
    ∀ s E, registry s.tags s.curveSel = some E →
      (s.msglen.toNat ≤ 1024 → draw E (message s) (ctr.setWidth 8) < E.p ∧
        exec (.h2b d ctr) s = .next (fieldDone s d (draw E (message s) (ctr.setWidth 8)))) ∧
      (∀ c, 1024 < s.msglen.toNat → s.inflight = some c →
        exec (.h2b d ctr) s = .next (failed s c 2 6))

/-- 42_hash_to_curve.md R205 and R209: SSWU writes the point of the 17 lines where that point is valid
(that it always is, is stated apart). -/
def Obligations.SswuCompletes : Prop :=
  ∀ (d : PReg) (a : FReg), EncodedAs (.sswu d a) (wordR 0x31 d a 0 0) ∧ NeedsCurve (.sswu d a) ∧
    ∀ s E, registry s.tags s.curveSel = some E → ValidPoint E (mapped E (operand E s a)) →
      exec (.sswu d a) s = .next (pointDone s d (mapped E (operand E s a)))

/-- 42_hash_to_curve.md R205 to R209: SSWU maps every field element, exceptional ones among them, to the
point of the curve that the map determines; it never raises InvalidGroupElement. -/
def Obligations.SswuMapsEveryElement : Prop :=
  ∀ (d : PReg) (a : FReg) (s : State) (E : Curve), registry s.tags s.curveSel = some E →
    ∃ x y, x < E.p ∧ y < E.p ∧ IsImage E (operand E s a) x y ∧
      exec (.sswu d a) s = .next (pointDone s d (affine x y))

/-- 42_hash_to_curve.md R210: H2C never fails on a message that fits: it writes the group-law sum of the
two draws' images, a valid point; a MSGLEN above 1024 raises InternalInstantiation with info 6. The hash
behind the draws is the model's (log 9); the tag is the unit's (log 10). -/
def Obligations.H2cHashesEveryMessage : Prop :=
  ∀ d : PReg, EncodedAs (.h2c d) (wordR 0x32 d 0 0 0) ∧ NeedsCurve (.h2c d) ∧
    ∀ s E, registry s.tags s.curveSel = some E →
      (s.msglen.toNat ≤ 1024 →
        ∃ x0 y0 x1 y1 R, x0 < E.p ∧ y0 < E.p ∧ x1 < E.p ∧ y1 < E.p ∧
          IsImage E (draw E (message s) 0#8) x0 y0 ∧ IsImage E (draw E (message s) 1#8) x1 y1 ∧
          IsSum E (affine x0 y0) (affine x1 y1) R ∧ ValidPoint E R ∧
          exec (.h2c d) s = .next (pointDone s d R)) ∧
      (∀ c, 1024 < s.msglen.toNat → s.inflight = some c →
        exec (.h2c d) s = .next (failed s c 2 6))

/-! ## Commands as such (10_state.md, 60_exceptions.md) -/

/-- 60_exceptions.md R231: every legal command but NOP fails with UnsupportedGroup where CURVE_SEL is 2
to 15, whatever else is wrong, and NOP completes. -/
def Obligations.UnsupportedGroupComesFirst : Prop :=
  ∀ (s : State) (c : InFlight), 2 ≤ s.curveSel.toNat → s.inflight = some c →
    (∀ (w : Word) (i : Instr), decode w = .ok i → i ≠ .nop →
      completeWord w s = .next (failed s c 1 0)) ∧
    completeWord 0#32 s = .next (done s)

/-- 60_exceptions.md R236: an illegal word completes with IllegalCommand and its info code, for every
CURVE_SEL. -/
def Obligations.IllegalCommandCompletes : Prop :=
  ∀ (s : State) (c : InFlight) (e : Illegal), s.inflight = some c → decode c.word = .error e →
    completeWord c.word s = .next (failed s c 5 e.info.toNat)

/-- 60_exceptions.md R238 with R234: a completion is a success, which leaves the error registers alone,
or exactly the error entry, with a code and a detail of its own. -/
def Obligations.CompletionSucceedsOrFails : Prop :=
  ∀ (s : State) (c : InFlight) (w : Word), s.inflight = some c →
    (∃ f p buf, completeWord w s = .next { done s with f := f, p := p, buf := buf }) ∨
    ∃ code info, (code, info) ∈ [(1, 0), (2, 6), (2, 7), (3, 0), (4, 1), (4, 2), (4, 3), (4, 4), (4, 5),
        (5, 8), (5, 9), (5, 10), (5, 11), (5, 12)] ∧ completeWord w s = .next (failed s c code info)

/-- 10_state.md R56: what a command does is a function of the registry entry, F, P, BUF and MSGLEN alone:
two states that agree on them make the same writes or the same error. The registry entry is that of
CURVE_SEL with the unit's tags (log 10). -/
def Obligations.CommandsArePureFunctions : Prop :=
  ∀ (i : Instr) (s s' : State),
    registry s.tags s.curveSel = registry s'.tags s'.curveSel → s.f = s'.f → s.p = s'.p → s.buf = s'.buf →
    s.msglen = s'.msglen → ∃ r : CmdResult,
      exec i s = .next (s.completed r) ∧ exec i s' = .next (s'.completed r)

/-- 10_state.md R57: a command changes no field register but its field destination, no point register
but its point destination, no byte of BUF but those FENC stores, and none of CTRL, CURVE_SEL, MSGLEN,
DROP, the reset input, the tags, the read data, the draws and the moves to come. -/
def Obligations.CommandsWriteOnlyTheirDestination : Prop :=
  ∀ (i : Instr) (s t : State), Memory.wf s.buf = true → exec i s = .next t →
    (∀ k : FReg, fieldDest i ≠ some k → t.f[k] = s.f[k]) ∧
    (∀ k : PReg, pointDest i ≠ some k → t.p[k] = s.p[k]) ∧
    (∀ x : Nat, ¬ Stores i x → Memory.read t.buf x = Memory.read s.buf x) ∧
    t.ctrl = s.ctrl ∧ t.curveSel = s.curveSel ∧ t.msglen = s.msglen ∧
    t.status.drop = s.status.drop ∧ t.resetIn = s.resetIn ∧ t.rdata = s.rdata ∧ t.draws = s.draws ∧
    t.sched = s.sched ∧ t.tags = s.tags

/-- 10_state.md R55: every field value a command writes is below p, every point it writes is canonical,
but for PMOV's raw copy. -/
def Obligations.ResultsAreCanonical : Prop :=
  ∀ (i : Instr) (s t : State) (E : Curve), registry s.tags s.curveSel = some E → exec i s = .next t →
    (∀ k : FReg, t.f[k] = s.f[k] ∨ canonicalField E t.f[k]) ∧
    ∀ k : PReg, t.p[k] = s.p[k] ∨ canonicalPoint E t.p[k] ∨ ∃ a, i = .pmov k a ∧ t.p[k] = s.p[a]

/-- 10_state.md R42: CMDCNT counts the commands that completed without error, modulo 2^32, is not
written by the host, and is 0 after reset. -/
def Obligations.CmdcntCountsSuccesses : Prop :=
  (∀ (s t : State) (w : Word), s.status.err = false → completeWord w s = .next t →
    (t.status.err = false → t.cmdcnt.toNat = (s.cmdcnt.toNat + 1) % 2 ^ 32) ∧
    (t.status.err = true → t.cmdcnt = s.cmdcnt)) ∧
  (∀ (s : State) (w : Word), s.resetIn = false → (s.status.busy = true ∨ s.status.err = true) →
    ∃ t, applyEvent s (.write (wordAt 0x0018) w) = .next t ∧ t.cmdcnt = s.cmdcnt) ∧
  (∀ (s : State) (v : Word), applyEvent s (.write (wordAt 0x0024) v) = .next s) ∧
  (∀ s : State, s.resetIn = false →
    applyEvent s (.read (wordAt 0x0024)) = .next { s with rdata := some s.cmdcnt }) ∧
  State.reset.cmdcnt = 0#32

/-! ## The bus (20_memory.md, 10_state.md) -/

/-- 70_reset_and_hazards.md R265 with 10_state.md R49 and 60_exceptions.md R241: a CMD write is accepted
when BUSY = 0 and ERR = 0, and otherwise sets DROP and changes nothing else. The latency it is
accepted with and the count of draws are left open (log 4, log 6, log 7). -/
def Obligations.CommandIsAcceptedOrDropped : Prop :=
  ∀ (s : State) (w : Word), s.resetIn = false →
    (s.status.busy = false → s.status.err = false →
      ∃ latency n, 1 ≤ latency ∧ applyEvent s (.write (wordAt 0x0018) w) =
        .next { s with inflight := some ⟨w, 0, latency⟩, status := { s.status with busy := true },
                       draws := n }) ∧
    (s.status.busy = true ∨ s.status.err = true →
      applyEvent s (.write (wordAt 0x0018) w) = .next (droppedState s))

/-- 20_memory.md R80: while BUSY = 1 a write to the F, P or BUF data, CURVE_SEL, MSGLEN or CMD sets DROP
and changes nothing else, and a write to any other offset outside the windows but CTRL and STATUS changes
nothing. -/
def Obligations.BusyWritesAreDropped : Prop :=
  ∀ (s : State) (offset : Nat) (v : Word), s.resetIn = false → s.status.busy = true →
    offset < 0x10000 → offset % 4 = 0 →
    (holdsData offset ∨ offset = 0x001C ∨ offset = 0x0020 ∨ offset = 0x0018 →
      applyEvent s (.write (wordAt offset) v) = .next (droppedState s)) ∧
    (outsideWindows offset → offset ∉ [0x0004, 0x0008, 0x0018, 0x001C, 0x0020] →
      applyEvent s (.write (wordAt offset) v) = .next s)

/-- 60_exceptions.md R242: a write the unit ignores for being ill-timed sets DROP and nothing else, and
no other move sets DROP. That the unused words inside a data window belong to the window is the model's
reading (log 13). -/
def Obligations.DropsAreReportedExactly : Prop :=
  ∀ (s : State) (e : Event), s.resetIn = false →
    (disciplined s e = false → applyEvent s e = .next (droppedState s) ∧
      (droppedState s).irq = s.irq) ∧
    (disciplined s e = true → ∀ t, applyEvent s e = .next t → t.status.drop = true →
      s.status.drop = true)

/-- 20_memory.md R81: no read changes the unit, while BUSY = 1 or not; a read of a control or status
register returns its defined value at all times, CTRL and STATUS bit by bit (10_state.md R34, R35); what
a read of a data window returns while BUSY = 1 is left open (log 4). -/
def Obligations.ReadsChangeNothing : Prop :=
  ∀ (s : State) (offset : Nat), offset < 0x10000 → offset % 4 = 0 →
    (∃ word n, applyEvent s (.read (wordAt offset)) = .next { s with rdata := some word, draws := n }) ∧
    (s.resetIn = false → ∀ value,
      (offset, value) ∈ [(0x000C, s.errcode.setWidth 32), (0x0010, s.errinfo.setWidth 32),
        (0x0014, s.errcmd), (0x0018, 0#32), (0x001C, s.curveSel.setWidth 32),
        (0x0020, s.msglen.setWidth 32), (0x0024, s.cmdcnt)] →
      applyEvent s (.read (wordAt offset)) = .next { s with rdata := some value }) ∧
    (s.resetIn = false → ∃ ctrl : Word,
      applyEvent s (.read (wordAt 0x0004)) = .next { s with rdata := some ctrl } ∧
      ctrl.getLsbD 0 = s.ctrl.doneie ∧ ctrl.getLsbD 1 = s.ctrl.errie ∧
      ∀ n, 2 ≤ n → ctrl.getLsbD n = false) ∧
    (s.resetIn = false → ∃ status : Word,
      applyEvent s (.read (wordAt 0x0008)) = .next { s with rdata := some status } ∧
      status.getLsbD 0 = s.status.busy ∧ status.getLsbD 1 = s.status.done ∧
      status.getLsbD 2 = s.status.err ∧ status.getLsbD 3 = s.status.drop ∧
      ∀ n, 4 ≤ n → status.getLsbD n = false)

/-- 20_memory.md R72: word j of the block of Fi is bits 32j+31 : 32j of the register, cut at bit 520; the
words past 16 read 0 and ignore writes. -/
def Obligations.FieldWindowMapsWords : Prop :=
  ∀ (s : State) (i : FReg) (j : Nat) (v : Word), s.resetIn = false → s.status.busy = false → j ≤ 31 →
    (∃ word, applyEvent s (.read (wordAt (0x1000 + 0x80 * i.val + 4 * j))) =
        .next { s with rdata := some word } ∧
      ∀ n, n < 32 → word.getLsbD n = (decide (j ≤ 16) && s.f[i].getLsbD (32 * j + n))) ∧
    (j ≤ 16 → ∃ x : FieldWord, applyEvent s (.write (wordAt (0x1000 + 0x80 * i.val + 4 * j)) v) =
        .next { s with f := s.f.set i x } ∧
      ∀ n, n < 521 → x.getLsbD n =
        if 32 * j ≤ n ∧ n < 32 * j + 32 then v.getLsbD (n - 32 * j) else s.f[i].getLsbD n) ∧
    (17 ≤ j → applyEvent s (.write (wordAt (0x1000 + 0x80 * i.val + 4 * j)) v) = .next s)

/-- 20_memory.md R73: in the block of Pk, X stands at +0x00, Y at +0x80, INF in bit 0 at +0xFC, and every
other word reads 0 and ignores writes. -/
def Obligations.PointWindowMapsWords : Prop :=
  ∀ (s : State) (k : PReg) (j : Nat) (v : Word), s.resetIn = false → s.status.busy = false →
    (j ≤ 16 →
      (∃ word, applyEvent s (.read (wordAt (0x2000 + 0x100 * k.val + 4 * j))) =
          .next { s with rdata := some word } ∧
        ∀ n, n < 32 → word.getLsbD n = s.p[k].x.getLsbD (32 * j + n)) ∧
      (∃ word, applyEvent s (.read (wordAt (0x2000 + 0x100 * k.val + 0x80 + 4 * j))) =
          .next { s with rdata := some word } ∧
        ∀ n, n < 32 → word.getLsbD n = s.p[k].y.getLsbD (32 * j + n)) ∧
      (∃ x : FieldWord, applyEvent s (.write (wordAt (0x2000 + 0x100 * k.val + 4 * j)) v) =
          .next { s with p := s.p.set k { s.p[k] with x := x } } ∧
        ∀ n, n < 521 → x.getLsbD n =
          if 32 * j ≤ n ∧ n < 32 * j + 32 then v.getLsbD (n - 32 * j) else s.p[k].x.getLsbD n) ∧
      (∃ y : FieldWord, applyEvent s (.write (wordAt (0x2000 + 0x100 * k.val + 0x80 + 4 * j)) v) =
          .next { s with p := s.p.set k { s.p[k] with y := y } } ∧
        ∀ n, n < 521 → y.getLsbD n =
          if 32 * j ≤ n ∧ n < 32 * j + 32 then v.getLsbD (n - 32 * j) else s.p[k].y.getLsbD n)) ∧
    (applyEvent s (.read (wordAt (0x2000 + 0x100 * k.val + 0xFC))) =
      .next { s with rdata := some (if s.p[k].inf then 1#32 else 0#32) }) ∧
    (applyEvent s (.write (wordAt (0x2000 + 0x100 * k.val + 0xFC)) v) =
      .next { s with p := s.p.set k { s.p[k] with inf := v.getLsbD 0 } }) ∧
    ((17 ≤ j ∧ j ≤ 31) ∨ (49 ≤ j ∧ j ≤ 62) →
      applyEvent s (.read (wordAt (0x2000 + 0x100 * k.val + 4 * j))) =
        .next { s with rdata := some 0#32 } ∧
      applyEvent s (.write (wordAt (0x2000 + 0x100 * k.val + 4 * j)) v) = .next s)

/-- 20_memory.md R74: word w of the BUF window is the bytes BUF[4w+3], ..., BUF[4w], and a write replaces
all four and no other byte. -/
def Obligations.BufferWindowPacksBytes : Prop :=
  ∀ (s : State) (w : Nat) (v : Word), s.resetIn = false → s.status.busy = false →
    Memory.wf s.buf = true → w ≤ 255 →
    applyEvent s (.read (wordAt (0x4000 + 4 * w))) =
      .next { s with rdata := some (Memory.read s.buf (4 * w + 3) ++ Memory.read s.buf (4 * w + 2) ++
                        Memory.read s.buf (4 * w + 1) ++ Memory.read s.buf (4 * w)) } ∧
    ∃ buf, applyEvent s (.write (wordAt (0x4000 + 4 * w)) v) = .next { s with buf := buf } ∧
      (∀ k, k < 4 → Memory.read buf (4 * w + k) = v.extractLsb' (8 * k) 8) ∧
      ∀ a, ¬ (4 * w ≤ a ∧ a < 4 * w + 4) → Memory.read buf a = Memory.read s.buf a

/-- 20_memory.md R75: a read of a reserved offset returns 0, and a write to one is ignored and sets no
DROP. -/
def Obligations.ReservedOffsetsReadZero : Prop :=
  ∀ (s : State) (offset : Nat) (v : Word), s.resetIn = false → isReserved offset → offset % 4 = 0 →
    applyEvent s (.read (wordAt offset)) = .next { s with rdata := some 0#32 } ∧
    applyEvent s (.write (wordAt offset) v) = .next s

/-- 10_state.md R33: ID reads 0x4D415531 at all times, busy and in reset too, and ignores writes. -/
def Obligations.IdIsConstant : Prop :=
  ∀ (s : State) (v : Word),
    applyEvent s (.read (wordAt 0x0000)) = .next { s with rdata := some 0x4D415531#32 } ∧
    applyEvent s (.write (wordAt 0x0000) v) = .next s

/-- 10_state.md R34, R40 and R41, the writes: CTRL stores its two enables at any time; CURVE_SEL and
MSGLEN store their low bits while idle, and the register files keep their contents. -/
def Obligations.ControlWritesStoreTheirBits : Prop :=
  ∀ (s : State) (v : Word), s.resetIn = false →
    (v.getLsbD 2 = false → applyEvent s (.write (wordAt 0x0004) v) =
      .next { s with ctrl := ⟨v.getLsbD 0, v.getLsbD 1⟩ }) ∧
    (s.status.busy = false → applyEvent s (.write (wordAt 0x001C) v) =
      .next { s with curveSel := v.extractLsb' 0 4 }) ∧
    (s.status.busy = false → applyEvent s (.write (wordAt 0x0020) v) =
      .next { s with msglen := v.extractLsb' 0 11 })

/-- 10_state.md R35 and 60_exceptions.md R240: a STATUS write clears the bits DONE, ERR and DROP whose
written value is 1, at any time, and changes nothing else; after ERR is cleared an idle unit accepts a
command again. -/
def Obligations.StatusWritesClear : Prop :=
  ∀ (s : State) (v : Word), s.resetIn = false →
    applyEvent s (.write (wordAt 0x0008) v) =
      .next { s with status :=
        { busy := s.status.busy
          done := if v.getLsbD 1 then false else s.status.done
          err := if v.getLsbD 2 then false else s.status.err
          drop := if v.getLsbD 3 then false else s.status.drop } } ∧
    (s.status.busy = false → v.getLsbD 2 = true → ∀ w : Word, ∃ t u,
      applyEvent s (.write (wordAt 0x0008) v) = .next t ∧
      applyEvent t (.write (wordAt 0x0018) w) = .next u ∧ u.status.busy = true ∧
      (u.inflight.map InFlight.word) = some w ∧ u.errcode = s.errcode ∧ u.errinfo = s.errinfo ∧
      u.errcmd = s.errcmd)

/-- 60_exceptions.md R243 and R244: irq is the enabled DONE or ERR; it asserts in the completion that sets
an enabled bit and in the CTRL write that enables a set one, deasserts when the bits or the enables are
cleared, and DROP does not drive it. -/
def Obligations.IrqFollowsTheBits : Prop :=
  (∀ s : State, s.irq = true ↔ (s.ctrl.doneie = true ∧ s.status.done = true) ∨
    (s.ctrl.errie = true ∧ s.status.err = true)) ∧
  (∀ (w : Word) (s t : State), completeWord w s = .next t →
    (s.ctrl.doneie = true → t.irq = true) ∧
    (s.ctrl.errie = true → t.status.err = true → t.irq = true)) ∧
  (∀ (s t : State) (v : Word), s.resetIn = false → v.getLsbD 2 = false →
    applyEvent s (.write (wordAt 0x0004) v) = .next t →
    t.irq = ((v.getLsbD 0 && s.status.done) || (v.getLsbD 1 && s.status.err))) ∧
  (∀ (s t : State) (v : Word), s.resetIn = false → v.getLsbD 1 = true → v.getLsbD 2 = true →
    applyEvent s (.write (wordAt 0x0008) v) = .next t → t.irq = false) ∧
  (∀ (s t : State) (v : Word), s.resetIn = false → v.getLsbD 0 = false → v.getLsbD 1 = false →
    applyEvent s (.write (wordAt 0x0004) v) = .next t → t.irq = false) ∧
  ∀ s : State, (droppedState s).irq = s.irq

/-! ## Reset (70_reset_and_hazards.md) -/

/-- 70_reset_and_hazards.md R260 to R263: a soft reset and the assertion of the reset input put every
control and status register at its reset value and discard the command in flight; while the input is
asserted writes are ignored; afterwards the unit accepts a command at once. F, P and BUF are not
spoken of: they hold free values. That the hard reset acts in the step of the assertion, that irq is 0
and that cycles change nothing while the input is asserted is the model's reading (log 18); that a reset
leaves the tags is log 10. -/
def Obligations.ResetDiscardsAndIdles : Prop :=
  (∀ (s : State) (e : Event), resets s e = true → ∃ t, applyEvent s e = .next t ∧
    t.ctrl = ⟨false, false⟩ ∧ t.status = ⟨false, false, false, false⟩ ∧ t.errcode = 0#4 ∧
    t.errinfo = 0#4 ∧ t.errcmd = 0#32 ∧ t.curveSel = 0#4 ∧ t.msglen = 0#11 ∧ t.cmdcnt = 0#32 ∧
    t.inflight = none ∧ t.irq = false ∧ t.tags = s.tags ∧
    (e = .assertReset → t.resetIn = true) ∧ (e ≠ .assertReset → t.resetIn = false ∧
      ∀ w : Word, ∃ u, applyEvent t (.write (wordAt 0x0018) w) = .next u ∧
        u.status = ⟨true, false, false, false⟩ ∧ (u.inflight.map InFlight.word) = some w)) ∧
  (∀ (s : State) (a : WordAddr) (v : Word), s.resetIn = true →
    applyEvent s (.write a v) = .next s ∧ applyEvent s .cycle = .next s ∧
    applyEvent s .releaseReset = .next { s with resetIn := false })

/-- 70_reset_and_hazards.md R261: the values the table gives right after reset, CURVE_SEL naming P-384.
That the reset machine is the unit with the default tags of 42_hash_to_curve.md R202 is the model's choice
(log 10). -/
def Obligations.ResetValues : Prop :=
  readPlace State.reset .id = 0x4D415531#32 ∧ readPlace State.reset .ctrl = 0#32 ∧
  readPlace State.reset .status = 0#32 ∧ readPlace State.reset .errcode = 0#32 ∧
  readPlace State.reset .errinfo = 0#32 ∧ readPlace State.reset .errcmd = 0#32 ∧
  readPlace State.reset .curveSel = 0#32 ∧ readPlace State.reset .msglen = 0#32 ∧
  readPlace State.reset .cmdcnt = 0#32 ∧ State.reset.inflight = none ∧ State.reset.irq = false ∧
  State.reset.tags = defaultTags ∧ registry State.reset.tags State.reset.curveSel = some p384

/-! ## Hazards and time (70_reset_and_hazards.md) -/

/-- 70_reset_and_hazards.md R266 with 20_memory.md R79: while a command stays in flight, no move changes
its word, its operands, the curve, the tags or the message length. -/
def Obligations.OperandsAreFrozen : Prop :=
  ∀ (s t : State) (e : Event) (c c' : InFlight), s.status.busy = true → s.inflight = some c →
    applyEvent s e = .next t → t.inflight = some c' →
    c'.word = c.word ∧ t.f = s.f ∧ t.p = s.p ∧ t.buf = s.buf ∧ t.curveSel = s.curveSel ∧
      t.msglen = s.msglen ∧ t.tags = s.tags

/-- 70_reset_and_hazards.md R272, the latency: two accepted commands of one opcode under one CURVE_SEL,
with one MSGLEN for H2B and H2C, take the same number of cycles whenever both complete without error,
whatever F, P, BUF and their fields. -/
def Obligations.LatencyIsConstantTime : Prop :=
  ∀ (s s' t t' u u' : State) (w w' : Word) (c c' : InFlight),
    s.resetIn = false → s'.resetIn = false → s.status.busy = false → s'.status.busy = false →
    s.status.err = false → s'.status.err = false → opcodeOf w = opcodeOf w' →
    s.curveSel = s'.curveSel →
    (opcodeOf w = 0x30#6 ∨ opcodeOf w = 0x32#6 → s.msglen = s'.msglen) →
    applyEvent s (.write (wordAt 0x0018) w) = .next t →
    applyEvent s' (.write (wordAt 0x0018) w') = .next t' →
    t.inflight = some c → t'.inflight = some c' →
    completeWord w t = .next u → completeWord w' t' = .next u' →
    u.status.err = false → u'.status.err = false → c.latency = c'.latency

/-- 70_reset_and_hazards.md R273: with no more moves from the host, a command in flight completes after
the cycles left of its latency, and the unit is then idle with DONE set, so that the run is over, and was
not before (R275). That an empty list of moves
stands for clock cycles is the model's choice (log 5, log 6). -/
def Obligations.CommandsTerminate : Prop :=
  ∀ (s : State) (c : InFlight), Invariant s → s.resetIn = false → s.inflight = some c → s.sched = [] →
    ∃ t, Host.Core.run Sys2Proof.core (c.latency - c.elapsed) s = .next t ∧
      completeWord c.word s = .next t ∧ t.status.busy = false ∧ t.status.done = true ∧
      t.inflight = none ∧ runOver s = false ∧ runOver t = true

/-! ## The step -/

/-- A step whose move is the last cycle of a legal command runs that command, on the state whose moves
to come are one shorter; every other step is its one move. The list of moves is the model's own (log 5,
log 6). -/
def Obligations.StepRunsDecodedCommand : Prop :=
  (∀ (s : State) (c : InFlight) (i : Instr), s.resetIn = false → nextEvent s = .cycle →
    s.inflight = some c → c.latency ≤ c.elapsed + 1 → decode c.word = .ok i →
    step s = exec i { s with sched := s.sched.tail }) ∧
  (∀ (s : State) (e : Event) (rest : List Event), s.sched = e :: rest →
    step s = applyEvent { s with sched := rest } e) ∧
  (∀ s : State, s.sched = [] → step s = applyEvent s .cycle)

/-- Every step from a state that meets the invariant answers a next state that meets it, in the same
unit: no step changes the tags (42_hash_to_curve.md R202, log 10). -/
def Obligations.StepKeepsInvariant : Prop :=
  ∀ s : State, Invariant s → ∃ t, step s = .next t ∧ Invariant t ∧ t.tags = s.tags

/-- The reset state meets the invariant. That its buffer is in canonical form rests on the model's
choice of what it holds (log 1, log 3). -/
def Obligations.ResetMeetsInvariant : Prop := Invariant State.reset
end

