-- ==== Sys2Proof/Laws/Arith.lean ====
section
/-! SUPPORT. What the arithmetic operations compute: reduction, powers, truth values, and the octet-string
conversions. -/

namespace Sys2Proof.Machine

open Sys2Proof.Config

/-! ### Reduction -/

theorem modP_lt {p : Nat} (hp : 0 < p) (x : Int) : modP p x < p := by
  have h1 := Int.emod_nonneg x (by omega : (p : Int) ≠ 0)
  have h2 := Int.emod_lt_of_pos x (by omega : (0 : Int) < p)
  unfold modP; omega

/-- The reduced value is the integer remainder. -/
theorem modP_cast {p : Nat} (hp : 0 < p) (x : Int) : (modP p x : Int) = x % (p : Int) :=
  Int.toNat_of_nonneg (Int.emod_nonneg x (by omega))

theorem modP_natCast (p x : Nat) : modP p (x : Int) = x % p := by
  rw [modP, ← Int.natCast_mod, Int.toNat_natCast]

/-! ### Powers -/

theorem powLoop_eq (p : Nat) : ∀ fuel b e acc, e < 2 ^ fuel →
    powLoop p fuel b e acc % p = acc * b ^ e % p := by
  intro fuel
  induction fuel with
  | zero => intro b e acc h; simp [powLoop, show e = 0 by simpa using h]
  | succ n ih =>
    intro b e acc h
    have hb : ∀ x k : Nat, (x * x % p) ^ k ≡ x ^ (2 * k) [MOD p] := fun x k => by
      rw [pow_mul, pow_two]; exact (Nat.mod_modEq _ _).pow k
    have hlt : e / 2 < 2 ^ n := by rw [pow_succ] at h; omega
    rw [powLoop, ih _ _ _ hlt]
    by_cases hodd : e % 2 = 1
    · rw [if_pos hodd]
      have he : e = 2 * (e / 2) + 1 := by omega
      calc acc * b % p * (b * b % p) ^ (e / 2) % p = acc * b * b ^ (2 * (e / 2)) % p :=
            (Nat.mod_modEq _ _).mul (hb b _)
        _ = acc * b ^ (2 * (e / 2) + 1) % p := by rw [pow_succ]; ring_nf
        _ = acc * b ^ e % p := by rw [← he]
    · rw [if_neg hodd]
      have he : e = 2 * (e / 2) := by omega
      calc acc * (b * b % p) ^ (e / 2) % p = acc * b ^ (2 * (e / 2)) % p :=
            (Nat.ModEq.refl _).mul (hb b _)
        _ = acc * b ^ e % p := by rw [← he]

theorem powLoop_lt {p : Nat} (hp : 0 < p) : ∀ fuel b e acc, acc < p → powLoop p fuel b e acc < p := by
  intro fuel
  induction fuel with
  | zero => intro b e acc h; exact h
  | succ n ih =>
    intro b e acc h
    rw [powLoop]
    split
    · exact ih _ _ _ (Nat.mod_lt _ hp)
    · exact ih _ _ _ h

theorem powMod_lt {p : Nat} (hp : 0 < p) (x e : Nat) : powMod p x e < p :=
  powLoop_lt hp _ _ _ _ (Nat.mod_lt _ hp)

/-- The squaring loop computes the remainder of the mathematical power (40_field.md R140). -/
theorem powMod_eq {p : Nat} (hp : 0 < p) (x e : Nat) : powMod p x e = x ^ e % p := by
  have h := powLoop_eq p (e.log2 + 1) (x % p) e (1 % p) Nat.lt_log2_self
  rw [Nat.mod_eq_of_lt (powLoop_lt hp _ _ _ _ (Nat.mod_lt _ hp))] at h
  rw [powMod, h]
  calc 1 % p * (x % p) ^ e % p = 1 * x ^ e % p :=
        (Nat.mod_modEq 1 p).mul ((Nat.mod_modEq x p).pow e)
    _ = x ^ e % p := by rw [one_mul]

theorem powMod_zero {p : Nat} (hp : 1 < p) (x : Nat) : powMod p x 0 = 1 := by
  rw [powMod_eq (by omega), pow_zero, Nat.mod_eq_of_lt hp]

theorem invP_lt {p : Nat} (hp : 0 < p) (x : Nat) : invP p x < p := powMod_lt hp _ _

theorem sqrtP_lt {p : Nat} (hp : 0 < p) (x : Nat) : sqrtP p x < p := powMod_lt hp _ _

theorem cmov_lt {p : Nat} (hp : 0 < p) (a b c : Nat) : cmov p a b c < p := modP_lt hp _

/-- The blend with selector 0 is its first operand (40_field.md R147). -/
theorem cmov_zero {p a b : Nat} (ha : a < p) : cmov p a b 0 = a := by
  rw [cmov]
  have h : (((0 : Nat) : Int) * b + (1 - ((0 : Nat) : Int)) * a) = ((a : Nat) : Int) := by
    push_cast; ring
  rw [h, modP_natCast, Nat.mod_eq_of_lt ha]

/-- The blend with selector 1 is its second operand (40_field.md R147). -/
theorem cmov_one {p a b : Nat} (hb : b < p) : cmov p a b 1 = b := by
  rw [cmov]
  have h : (((1 : Nat) : Int) * b + (1 - ((1 : Nat) : Int)) * a) = ((b : Nat) : Int) := by
    push_cast; ring
  rw [h, modP_natCast, Nat.mod_eq_of_lt hb]

theorem cmov_ofTruth {p a b : Nat} (ha : a < p) (hb : b < p) (t : Bool) :
    cmov p a b (ofTruth t) = if t then b else a := by
  cases t
  · exact cmov_zero ha
  · exact cmov_one hb

theorem ofTruth_le_one (t : Bool) : ofTruth t ≤ 1 := by cases t <;> decide

/-! ### Octet strings (00_scope.md R13) -/

@[simp] theorem i2osp_length (x n : Nat) : (i2osp x n).length = n := by simp [i2osp]

theorem i2osp_zero (x : Nat) : i2osp x 0 = [] := rfl

/-- The first byte is the most significant; the rest is the encoding in one byte less. -/
theorem i2osp_succ (x n : Nat) : i2osp x (n + 1) = BitVec.ofNat 8 (x >>> (8 * n)) :: i2osp x n := by
  rw [i2osp, List.range_succ_eq_map, List.map_cons, List.map_map, i2osp]
  refine List.cons_eq_cons.mpr ⟨by simp, List.map_congr_left fun j _ => ?_⟩
  simp only [Function.comp_apply]
  congr 3
  omega

/-- Byte `j` of the encoding. -/
theorem i2osp_getElem (x n j : Nat) (h : j < (i2osp x n).length) :
    (i2osp x n)[j] = BitVec.ofNat 8 (x >>> (8 * (n - 1 - j))) := by
  simp [i2osp]

/-- Decoding the low `n` bytes of `x` gives `x mod 2^(8n)`. -/
theorem os2ip_i2osp (x n : Nat) : os2ip (i2osp x n) = x % 2 ^ (8 * n) := by
  induction n with
  | zero => simp [i2osp_zero, os2ip, Nat.mod_one]
  | succ n ih =>
    rw [i2osp_succ, os2ip, ih, i2osp_length, BitVec.toNat_ofNat, Nat.shiftRight_eq_div_pow,
      show 8 * (n + 1) = 8 * n + 8 by ring, pow_add, Nat.mod_mul]
    ring

theorem os2ip_lt : ∀ s : List Byte, os2ip s < 2 ^ (8 * s.length)
  | [] => by simp [os2ip]
  | b :: t => by
    have h := os2ip_lt t
    have hb := b.isLt
    rw [os2ip, List.length_cons, show 8 * (t.length + 1) = 8 * t.length + 8 by ring, pow_add]
    nlinarith [Nat.two_pow_pos (8 * t.length)]

/-- The decoder as Horner's scheme. -/
theorem os2ip_append_byte (s : List Byte) (b : Byte) :
    os2ip (s ++ [b]) = os2ip s * 256 + b.toNat := by
  induction s with
  | nil => simp [os2ip]
  | cons c t ih =>
    simp only [List.cons_append, os2ip, ih, List.length_append, List.length_singleton]
    rw [show 8 * (t.length + 1) = 8 * t.length + 8 by ring, pow_add]
    ring

end Sys2Proof.Machine
end

