-- ==== Sys2Proof/Laws/Memory.lean ====
section
/-! SUPPORT. The octet buffer: a read after a write, and the canonical form, which every operation
keeps. -/

namespace Sys2Proof.Machine

open Sys2Proof.Config

@[simp] theorem Memory.read_nil (a : Nat) : Memory.read [] a = Memory.unlisted := rfl

theorem Memory.wfFrom_cons {lo k : Nat} {v : Byte} {m : Memory} :
    Memory.wfFrom lo ((k, v) :: m) = true ↔
      lo ≤ k ∧ k < 1024 ∧ v ≠ Memory.unlisted ∧ Memory.wfFrom (k + 1) m = true := by
  simp [Memory.wfFrom, and_assoc]

theorem Memory.wfFrom_mono {lo lo' : Nat} (h : lo' ≤ lo) :
    ∀ {m : Memory}, Memory.wfFrom lo m = true → Memory.wfFrom lo' m = true
  | [], _ => rfl
  | (_, _) :: _, hm => by
    obtain ⟨h1, h2, h3, h4⟩ := Memory.wfFrom_cons.mp hm
    exact Memory.wfFrom_cons.mpr ⟨h.trans h1, h2, h3, h4⟩

/-- Below the first index of a canonical memory everything is unlisted. -/
theorem Memory.read_below : ∀ {m : Memory} {lo a : Nat}, Memory.wfFrom lo m = true → a < lo →
    Memory.read m a = Memory.unlisted
  | [], _, _, _, _ => rfl
  | (k, v) :: m, lo, a, hm, ha => by
    obtain ⟨h1, -, -, h4⟩ := Memory.wfFrom_cons.mp hm
    rw [Memory.read, if_neg (by omega), Memory.read_below h4 (by omega)]

/-- A read after a write: the byte written at its index, and every other index as before. -/
theorem Memory.read_write : ∀ {m : Memory} {lo : Nat} (a : Nat) (b : Byte) (c : Nat),
    Memory.wfFrom lo m = true →
    Memory.read (Memory.write m a b) c = if c = a then b else Memory.read m c
  | [], _, a, b, c, _ => by
    rw [Memory.write]
    by_cases hc : c = a
    · subst hc
      by_cases hb : b = Memory.unlisted
      · rw [if_pos hb, if_pos rfl, Memory.read_nil, hb]
      · rw [if_neg hb, if_pos rfl, Memory.read, if_pos rfl]
    · by_cases hb : b = Memory.unlisted
      · rw [if_pos hb, if_neg hc]
      · rw [if_neg hb, if_neg hc, Memory.read_nil]
        simp only [Memory.read, if_neg (Ne.symm hc)]
  | (k, v) :: m, lo, a, b, c, hm => by
    obtain ⟨-, -, -, h4⟩ := Memory.wfFrom_cons.mp hm
    rw [Memory.write]
    split
    case isTrue hlt =>
      by_cases hb : b = Memory.unlisted
      · rw [if_pos hb]
        by_cases hc : c = a
        · subst hc
          rw [if_pos rfl, Memory.read, if_neg (by omega), Memory.read_below h4 (by omega), hb]
        · rw [if_neg hc]
      · rw [if_neg hb, Memory.read]
        simp only [eq_comm]
    case isFalse hge =>
      split
      case isTrue heq =>
        subst heq
        by_cases hc : c = a
        · subst hc
          by_cases hb : b = Memory.unlisted
          · rw [if_pos hb, if_pos rfl, Memory.read_below h4 (by omega), hb]
          · rw [if_neg hb, if_pos rfl, Memory.read, if_pos rfl]
        · by_cases hb : b = Memory.unlisted
          · rw [if_pos hb, if_neg hc, Memory.read, if_neg (Ne.symm hc)]
          · rw [if_neg hb, if_neg hc, Memory.read, if_neg (Ne.symm hc), Memory.read,
              if_neg (Ne.symm hc)]
      case isFalse hne =>
        rw [Memory.read, Memory.read_write a b c h4]
        by_cases hk : k = c
        · rw [if_pos hk, if_neg (by omega), Memory.read, if_pos hk]
        · rw [if_neg hk, Memory.read, if_neg hk]

/-- A write keeps the canonical form. -/
theorem Memory.write_wfFrom : ∀ {m : Memory} {lo : Nat} (a : Nat) (b : Byte),
    Memory.wfFrom lo m = true → lo ≤ a → a < 1024 → Memory.wfFrom lo (Memory.write m a b) = true
  | [], lo, a, b, _, hlo, ha => by
    by_cases hb : b = Memory.unlisted
    · simp [Memory.write, hb, Memory.wfFrom]
    · rw [Memory.write, if_neg hb, Memory.wfFrom_cons]; exact ⟨hlo, ha, hb, rfl⟩
  | (k, v) :: m, lo, a, b, hm, hlo, ha => by
    obtain ⟨h1, h2, h3, h4⟩ := Memory.wfFrom_cons.mp hm
    rw [Memory.write]
    split
    case isTrue hlt =>
      by_cases hb : b = Memory.unlisted
      · rw [if_pos hb]; exact hm
      · rw [if_neg hb, Memory.wfFrom_cons]
        exact ⟨hlo, ha, hb, Memory.wfFrom_cons.mpr ⟨by omega, h2, h3, h4⟩⟩
    case isFalse hge =>
      split
      case isTrue heq =>
        by_cases hb : b = Memory.unlisted
        · rw [if_pos hb]; exact Memory.wfFrom_mono (by omega) h4
        · rw [if_neg hb, Memory.wfFrom_cons]; exact ⟨hlo, ha, hb, heq ▸ h4⟩
      case isFalse hne =>
        rw [Memory.wfFrom_cons]
        exact ⟨h1, h2, h3, Memory.write_wfFrom a b h4 (by omega) ha⟩

/-- `write` keeps `Memory.wf`. -/
theorem Memory.write_wf {m : Memory} {a : Nat} (b : Byte) (hm : Memory.wf m = true) (ha : a < 1024) :
    Memory.wf (Memory.write m a b) = true := Memory.write_wfFrom a b hm (Nat.zero_le a) ha

/-- `writeBytes` inside the buffer keeps `Memory.wf`. -/
theorem Memory.writeBytes_wf : ∀ {s : List Byte} {m : Memory} {a : Nat}, Memory.wf m = true →
    a + s.length ≤ 1024 → Memory.wf (Memory.writeBytes m a s) = true
  | [], _, _, hm, _ => hm
  | b :: s, m, a, hm, ha => by
    rw [List.length_cons] at ha
    exact Memory.writeBytes_wf (s := s) (m := Memory.write m a b) (a := a + 1)
      (Memory.write_wf b hm (by omega)) (by omega)

/-- A read after a write of several bytes: the bytes written, and every other index as before. -/
theorem Memory.read_writeBytes : ∀ {s : List Byte} {m : Memory} {a c : Nat}, Memory.wf m = true →
    a + s.length ≤ 1024 →
    Memory.read (Memory.writeBytes m a s) c =
      if h : a ≤ c ∧ c < a + s.length then s[c - a]'(by omega) else Memory.read m c
  | [], m, a, c, _, _ => by
    rw [Memory.writeBytes, dif_neg (by simp only [List.length_nil]; omega)]
  | b :: s, m, a, c, hm, ha => by
    rw [List.length_cons] at ha
    rw [Memory.writeBytes, Memory.read_writeBytes (Memory.write_wf b hm (by omega)) (by omega)]
    by_cases hc : c = a
    · subst hc
      rw [dif_neg (by omega), dif_pos (by simp), Memory.read_write _ _ _ hm, if_pos rfl]
      simp
    · by_cases hin : a + 1 ≤ c ∧ c < a + 1 + s.length
      · rw [dif_pos hin, dif_pos (by rw [List.length_cons]; omega)]
        simp only [show c - a = (c - (a + 1)) + 1 by omega, List.getElem_cons_succ]
      · rw [dif_neg hin, dif_neg (by rw [List.length_cons]; omega), Memory.read_write _ _ _ hm,
          if_neg hc]

@[simp] theorem Memory.readBytes_length (m : Memory) (a n : Nat) :
    (Memory.readBytes m a n).length = n := by simp [Memory.readBytes]

/-- The bytes just written are read back. -/
theorem Memory.readBytes_writeBytes {s : List Byte} {m : Memory} {a : Nat} (hm : Memory.wf m = true)
    (ha : a + s.length ≤ 1024) : Memory.readBytes (Memory.writeBytes m a s) a s.length = s := by
  refine List.ext_getElem (by simp) fun j h1 h2 => ?_
  simp only [Memory.readBytes, List.getElem_map, List.getElem_range]
  rw [Memory.read_writeBytes hm ha, dif_pos (by omega)]
  simp

/-- In canonical form, memories that read the same are the same. -/
theorem Memory.ext_of_read : ∀ {m m' : Memory} {lo : Nat}, Memory.wfFrom lo m = true →
    Memory.wfFrom lo m' = true → (∀ a, Memory.read m a = Memory.read m' a) → m = m'
  | [], [], _, _, _, _ => rfl
  | [], (k, v) :: m', _, _, h', hr => by
    obtain ⟨-, -, h3, -⟩ := Memory.wfFrom_cons.mp h'
    have := hr k
    rw [Memory.read_nil, Memory.read, if_pos rfl] at this
    exact absurd this.symm h3
  | (k, v) :: m, [], _, h, _, hr => by
    obtain ⟨-, -, h3, -⟩ := Memory.wfFrom_cons.mp h
    have := hr k
    rw [Memory.read_nil, Memory.read, if_pos rfl] at this
    exact absurd this h3
  | (k, v) :: m, (k', v') :: m', lo, h, h', hr => by
    obtain ⟨-, -, h3, h4⟩ := Memory.wfFrom_cons.mp h
    obtain ⟨-, -, h3', h4'⟩ := Memory.wfFrom_cons.mp h'
    have hk : k = k' := by
      rcases Nat.lt_trichotomy k k' with hlt | heq | hgt
      · have := hr k
        rw [Memory.read, if_pos rfl, Memory.read, if_neg (by omega), Memory.read_below h4' (by omega)]
          at this
        exact absurd this h3
      · exact heq
      · have := hr k'
        rw [Memory.read, if_neg (by omega), Memory.read_below h4 (by omega), Memory.read, if_pos rfl]
          at this
        exact absurd this.symm h3'
    subst hk
    have hv : v = v' := by
      have := hr k
      rwa [Memory.read, if_pos rfl, Memory.read, if_pos rfl] at this
    subst hv
    rw [Memory.ext_of_read h4 h4' fun a => ?_]
    by_cases ha : k = a
    · rw [Memory.read_below h4 (by omega), Memory.read_below h4' (by omega)]
    · have := hr a
      rwa [Memory.read, if_neg ha, Memory.read, if_neg ha] at this

/-- The buffer after a reset is in canonical form. -/
theorem freeBuf_wf (n : Nat) : Memory.wf (freeBuf n) = true := by
  unfold freeBuf
  refine Memory.writeBytes_wf (m := []) (a := 0) rfl (Nat.le_of_eq ?_)
  rw [List.length_map, List.length_range]

/-- A BUF-window write keeps the canonical form (20_memory.md R74). -/
theorem bufWithWord_wf {m : Memory} {w : Nat} (v : Word) (hm : Memory.wf m = true) (hw : w < 256) :
    Memory.wf (bufWithWord m w v) = true :=
  Memory.writeBytes_wf hm (by simp only [List.length_cons, List.length_nil]; omega)

/-- The buffer of the reset state is in canonical form. -/
theorem reset_buf_wf : Memory.wf State.reset.buf = true := rfl

end Sys2Proof.Machine
end

