-- ==== Sys2Proof/Laws/Primes.lean ====
section
/-! SUPPORT. The two registry moduli are prime (10_state.md R44, R45): P-384's by Pocklington's criterion,
P-521's by the Lucas-Lehmer test. -/

namespace Sys2Proof.Machine

open Sys2Proof.Config

/-- Pocklington's step: where `a` certifies the prime `q ∣ n - 1`, `q` divides `r - 1` for each prime
factor `r` of `n`. -/
theorem certified_dvd {n q r : Nat} (a : Nat) (hn : 1 < n) (hq : q.Prime) (hd : q ∣ n - 1)
    (h1 : powMod n a (n - 1) = 1) (h2 : Nat.Coprime (powMod n a ((n - 1) / q) + (n - 1)) n)
    (hr : r.Prime) (hrn : r ∣ n) : q ∣ r - 1 := by
  have := Fact.mk hr
  have cast : ∀ e, ((powMod n a e : Nat) : ZMod r) = (a : ZMod r) ^ e := fun e => by
    rw [powMod_eq (by omega), ← Nat.cast_pow, ZMod.natCast_eq_natCast_iff]
    exact (Nat.mod_modEq _ n).of_dvd hrn
  have hone : (a : ZMod r) ^ (n - 1) = 1 := by rw [← cast, h1, Nat.cast_one]
  have hne : (a : ZMod r) ^ ((n - 1) / q) ≠ 1 := fun h => by
    have hz : ((powMod n a ((n - 1) / q) + (n - 1) : Nat) : ZMod r) = 0 := by
      rw [Nat.cast_add, cast, h, Nat.cast_sub (by omega), (ZMod.natCast_eq_zero_iff n r).mpr hrn]
      simp
    have hdvd := (ZMod.natCast_eq_zero_iff _ r).mp hz
    exact hr.one_lt.ne' (Nat.dvd_one.mp (h2 ▸ Nat.dvd_gcd hdvd hrn))
  have hu : (a : ZMod r) ≠ 0 := fun h => by
    rw [h, zero_pow (by omega)] at hone
    exact zero_ne_one hone
  have hord : orderOf (a : ZMod r) ∣ r - 1 := orderOf_dvd_of_pow_eq_one (ZMod.pow_card_sub_one_eq_one hu)
  refine dvd_trans ?_ hord
  by_contra hnot
  have hcop : Nat.Coprime (orderOf (a : ZMod r)) q := ((Nat.Prime.coprime_iff_not_dvd hq).mpr hnot).symm
  have hdiv : orderOf (a : ZMod r) ∣ q * ((n - 1) / q) := by
    rw [Nat.mul_div_cancel' hd]; exact orderOf_dvd_of_pow_eq_one hone
  exact hne (orderOf_dvd_iff_pow_eq_one.mp (hcop.dvd_of_dvd_mul_left hdiv))

/-- A number whose prime factors all exceed its root is prime. -/
theorem prime_of_factors {n F : Nat} (hn : 1 < n) (hF : n < F * F)
    (h : ∀ r, r.Prime → r ∣ n → F ∣ r - 1) : n.Prime := by
  by_contra hnot
  have hr := Nat.minFac_prime hn.ne'
  have hsq := Nat.minFac_sq_le_self (by omega) hnot
  have hle := Nat.le_of_dvd (by have := hr.two_le; omega) (h _ hr (Nat.minFac_dvd n))
  have hmul := Nat.mul_le_mul (show F ≤ n.minFac by omega) (show F ≤ n.minFac by omega)
  rw [sq] at hsq
  omega

/-- Pocklington's criterion with one prime of `n - 1` above the root of `n`. -/
theorem prime_of_cert {n q : Nat} (a : Nat) (hq : q.Prime) (hn : 1 < n) (hsq : n < q * q)
    (hd : (n - 1) % q = 0) (h1 : powMod n a (n - 1) = 1)
    (h2 : Nat.gcd (powMod n a ((n - 1) / q) + (n - 1)) n = 1) : n.Prime :=
  prime_of_factors hn hsq fun _ hr hrn => certified_dvd a hn hq (Nat.dvd_of_mod_eq_zero hd) h1 h2 hr hrn

/-- Pocklington's criterion with two primes of `n - 1` whose product is above the root of `n`. -/
theorem prime_of_cert_two {n q q' : Nat} (a : Nat) (hq : q.Prime) (hq' : q'.Prime) (hne : q ≠ q')
    (hn : 1 < n) (hsq : n < q * q' * (q * q')) (hd : (n - 1) % q = 0) (hd' : (n - 1) % q' = 0)
    (h1 : powMod n a (n - 1) = 1)
    (h2 : Nat.gcd (powMod n a ((n - 1) / q) + (n - 1)) n = 1)
    (h2' : Nat.gcd (powMod n a ((n - 1) / q') + (n - 1)) n = 1) : n.Prime :=
  prime_of_factors hn hsq fun _ hr hrn =>
    ((Nat.coprime_primes hq hq').mpr hne).mul_dvd_of_dvd_of_dvd
      (certified_dvd a hn hq (Nat.dvd_of_mod_eq_zero hd) h1 h2 hr hrn)
      (certified_dvd a hn hq' (Nat.dvd_of_mod_eq_zero hd') h1 h2' hr hrn)

theorem prime_46 : Nat.Prime 44925942675193 :=
  prime_of_cert 2
    (prime_of_cert (n := 532247449) (q := 363557) 2 (by norm_num) (by decide) (by decide)
      (by decide +kernel) (by decide +kernel) (by decide +kernel))
    (by decide) (by decide) (by decide +kernel) (by decide +kernel) (by decide +kernel)

theorem prime_95 : Nat.Prime 23964610537191310276190549303 :=
  prime_of_cert 2
    (prime_of_cert (n := 35581458644053887931343) 2 prime_46 (by decide) (by decide)
      (by decide +kernel) (by decide +kernel) (by decide +kernel))
    (by decide) (by decide) (by decide +kernel) (by decide +kernel) (by decide +kernel)

theorem prime_105 : Nat.Prime 20705423504133292078628634597817 :=
  prime_of_cert 2
    (prime_of_cert (n := 862725979338887169942859774909) 2 prime_95 (by decide) (by decide)
      (by decide +kernel) (by decide +kernel) (by decide +kernel))
    (by decide) (by decide) (by decide +kernel) (by decide +kernel) (by decide +kernel)

theorem prime_144 : Nat.Prime 12397338596863679689524759770405177749801411 :=
  prime_of_cert 2
    (prime_of_cert (n := 413244619895455989650825325680172591660047) 2 prime_105 (by decide)
      (by decide) (by decide +kernel) (by decide +kernel) (by decide +kernel))
    (by decide) (by decide) (by decide +kernel) (by decide +kernel) (by decide +kernel)

theorem prime_69 : Nat.Prime 529709925838459440593 :=
  prime_of_cert_two (q := 246608641) (q' := 105957871) 3 (by norm_num) (by norm_num) (by decide)
    (by decide) (by decide) (by decide +kernel) (by decide +kernel) (by decide +kernel)
    (by decide +kernel) (by decide +kernel)

/-- The modulus of P-384 is prime (10_state.md R44). -/
theorem prime_p384 : Nat.Prime p384.p :=
  prime_of_cert 2
    (prime_of_cert_two
      (n := 19173790298027098165721053155794528970226934547887232785722672956982046098136719667167519737147526097)
      2 prime_144 prime_69 (by decide) (by decide) (by decide) (by decide +kernel)
      (by decide +kernel) (by decide +kernel) (by decide +kernel) (by decide +kernel))
    (by decide +kernel) (by decide +kernel) (by decide +kernel) (by decide +kernel)
    (by decide +kernel)

/-- The modulus of P-521 is prime (10_state.md R45). -/
theorem prime_p521 : Nat.Prime p521.p := by
  have h : p521.p = mersenne 521 := by decide +kernel
  rw [h]
  exact lucas_lehmer_sufficiency 521 (by norm_num) (by norm_num)

/-- The modulus of every present entry is prime (10_state.md R43). -/
theorem registry_prime {tags : Tags} {id : BitVec 4} {E : Curve} (h : registry tags id = some E) :
    E.p.Prime := by
  unfold registry at h
  split at h
  · cases h; exact prime_p384
  · split at h
    · cases h; exact prime_p521
    · cases h

end Sys2Proof.Machine
end

