-- ==== Sys2Proof/Laws/State.lean ====
section
/-! SUPPORT. One lemma per field per update of the state, each true by rfl, so that no proof unfolds a
record update. -/

namespace Sys2Proof.Machine

open Sys2Proof.Config

/-! ### `F[d] <- v` -/

@[simp] theorem setF_f (s : State) (d : FReg) (v : FieldWord) : (s.setF d v).f = s.f.set d v := rfl
@[simp] theorem setF_p (s : State) (d : FReg) (v : FieldWord) : (s.setF d v).p = s.p := rfl
@[simp] theorem setF_buf (s : State) (d : FReg) (v : FieldWord) : (s.setF d v).buf = s.buf := rfl
@[simp] theorem setF_ctrl (s : State) (d : FReg) (v : FieldWord) : (s.setF d v).ctrl = s.ctrl := rfl
@[simp] theorem setF_status (s : State) (d : FReg) (v : FieldWord) :
    (s.setF d v).status = s.status := rfl
@[simp] theorem setF_errcode (s : State) (d : FReg) (v : FieldWord) :
    (s.setF d v).errcode = s.errcode := rfl
@[simp] theorem setF_errinfo (s : State) (d : FReg) (v : FieldWord) :
    (s.setF d v).errinfo = s.errinfo := rfl
@[simp] theorem setF_errcmd (s : State) (d : FReg) (v : FieldWord) :
    (s.setF d v).errcmd = s.errcmd := rfl
@[simp] theorem setF_curveSel (s : State) (d : FReg) (v : FieldWord) :
    (s.setF d v).curveSel = s.curveSel := rfl
@[simp] theorem setF_msglen (s : State) (d : FReg) (v : FieldWord) :
    (s.setF d v).msglen = s.msglen := rfl
@[simp] theorem setF_cmdcnt (s : State) (d : FReg) (v : FieldWord) :
    (s.setF d v).cmdcnt = s.cmdcnt := rfl
@[simp] theorem setF_inflight (s : State) (d : FReg) (v : FieldWord) :
    (s.setF d v).inflight = s.inflight := rfl
@[simp] theorem setF_resetIn (s : State) (d : FReg) (v : FieldWord) :
    (s.setF d v).resetIn = s.resetIn := rfl
@[simp] theorem setF_tags (s : State) (d : FReg) (v : FieldWord) :
    (s.setF d v).tags = s.tags := rfl
@[simp] theorem setF_rdata (s : State) (d : FReg) (v : FieldWord) :
    (s.setF d v).rdata = s.rdata := rfl
@[simp] theorem setF_draws (s : State) (d : FReg) (v : FieldWord) :
    (s.setF d v).draws = s.draws := rfl
@[simp] theorem setF_sched (s : State) (d : FReg) (v : FieldWord) :
    (s.setF d v).sched = s.sched := rfl

/-! ### `P[d] <- v` -/

@[simp] theorem setP_f (s : State) (d : PReg) (v : Point) : (s.setP d v).f = s.f := rfl
@[simp] theorem setP_p (s : State) (d : PReg) (v : Point) : (s.setP d v).p = s.p.set d v := rfl
@[simp] theorem setP_buf (s : State) (d : PReg) (v : Point) : (s.setP d v).buf = s.buf := rfl
@[simp] theorem setP_ctrl (s : State) (d : PReg) (v : Point) : (s.setP d v).ctrl = s.ctrl := rfl
@[simp] theorem setP_status (s : State) (d : PReg) (v : Point) :
    (s.setP d v).status = s.status := rfl
@[simp] theorem setP_errcode (s : State) (d : PReg) (v : Point) :
    (s.setP d v).errcode = s.errcode := rfl
@[simp] theorem setP_errinfo (s : State) (d : PReg) (v : Point) :
    (s.setP d v).errinfo = s.errinfo := rfl
@[simp] theorem setP_errcmd (s : State) (d : PReg) (v : Point) :
    (s.setP d v).errcmd = s.errcmd := rfl
@[simp] theorem setP_curveSel (s : State) (d : PReg) (v : Point) :
    (s.setP d v).curveSel = s.curveSel := rfl
@[simp] theorem setP_msglen (s : State) (d : PReg) (v : Point) :
    (s.setP d v).msglen = s.msglen := rfl
@[simp] theorem setP_cmdcnt (s : State) (d : PReg) (v : Point) :
    (s.setP d v).cmdcnt = s.cmdcnt := rfl
@[simp] theorem setP_inflight (s : State) (d : PReg) (v : Point) :
    (s.setP d v).inflight = s.inflight := rfl
@[simp] theorem setP_resetIn (s : State) (d : PReg) (v : Point) :
    (s.setP d v).resetIn = s.resetIn := rfl
@[simp] theorem setP_tags (s : State) (d : PReg) (v : Point) :
    (s.setP d v).tags = s.tags := rfl
@[simp] theorem setP_rdata (s : State) (d : PReg) (v : Point) : (s.setP d v).rdata = s.rdata := rfl
@[simp] theorem setP_draws (s : State) (d : PReg) (v : Point) : (s.setP d v).draws = s.draws := rfl
@[simp] theorem setP_sched (s : State) (d : PReg) (v : Point) : (s.setP d v).sched = s.sched := rfl

/-! ### `BufWrite` -/

@[simp] theorem setBytes_f (s : State) (off : Nat) (b : List Byte) :
    (s.setBytes off b).f = s.f := rfl
@[simp] theorem setBytes_p (s : State) (off : Nat) (b : List Byte) :
    (s.setBytes off b).p = s.p := rfl
@[simp] theorem setBytes_buf (s : State) (off : Nat) (b : List Byte) :
    (s.setBytes off b).buf = Memory.writeBytes s.buf off b := rfl
@[simp] theorem setBytes_ctrl (s : State) (off : Nat) (b : List Byte) :
    (s.setBytes off b).ctrl = s.ctrl := rfl
@[simp] theorem setBytes_status (s : State) (off : Nat) (b : List Byte) :
    (s.setBytes off b).status = s.status := rfl
@[simp] theorem setBytes_errcode (s : State) (off : Nat) (b : List Byte) :
    (s.setBytes off b).errcode = s.errcode := rfl
@[simp] theorem setBytes_errinfo (s : State) (off : Nat) (b : List Byte) :
    (s.setBytes off b).errinfo = s.errinfo := rfl
@[simp] theorem setBytes_errcmd (s : State) (off : Nat) (b : List Byte) :
    (s.setBytes off b).errcmd = s.errcmd := rfl
@[simp] theorem setBytes_curveSel (s : State) (off : Nat) (b : List Byte) :
    (s.setBytes off b).curveSel = s.curveSel := rfl
@[simp] theorem setBytes_msglen (s : State) (off : Nat) (b : List Byte) :
    (s.setBytes off b).msglen = s.msglen := rfl
@[simp] theorem setBytes_cmdcnt (s : State) (off : Nat) (b : List Byte) :
    (s.setBytes off b).cmdcnt = s.cmdcnt := rfl
@[simp] theorem setBytes_inflight (s : State) (off : Nat) (b : List Byte) :
    (s.setBytes off b).inflight = s.inflight := rfl
@[simp] theorem setBytes_resetIn (s : State) (off : Nat) (b : List Byte) :
    (s.setBytes off b).resetIn = s.resetIn := rfl
@[simp] theorem setBytes_tags (s : State) (off : Nat) (b : List Byte) :
    (s.setBytes off b).tags = s.tags := rfl
@[simp] theorem setBytes_rdata (s : State) (off : Nat) (b : List Byte) :
    (s.setBytes off b).rdata = s.rdata := rfl
@[simp] theorem setBytes_draws (s : State) (off : Nat) (b : List Byte) :
    (s.setBytes off b).draws = s.draws := rfl
@[simp] theorem setBytes_sched (s : State) (off : Nat) (b : List Byte) :
    (s.setBytes off b).sched = s.sched := rfl

/-! ### a successful completion -/

@[simp] theorem retire_f (s : State) : s.retire.f = s.f := rfl
@[simp] theorem retire_p (s : State) : s.retire.p = s.p := rfl
@[simp] theorem retire_buf (s : State) : s.retire.buf = s.buf := rfl
@[simp] theorem retire_ctrl (s : State) : s.retire.ctrl = s.ctrl := rfl
@[simp] theorem retire_status (s : State) :
    s.retire.status = { s.status with busy := false, done := true } := rfl
@[simp] theorem retire_errcode (s : State) : s.retire.errcode = s.errcode := rfl
@[simp] theorem retire_errinfo (s : State) : s.retire.errinfo = s.errinfo := rfl
@[simp] theorem retire_errcmd (s : State) : s.retire.errcmd = s.errcmd := rfl
@[simp] theorem retire_curveSel (s : State) : s.retire.curveSel = s.curveSel := rfl
@[simp] theorem retire_msglen (s : State) : s.retire.msglen = s.msglen := rfl
@[simp] theorem retire_cmdcnt (s : State) : s.retire.cmdcnt = s.cmdcnt + 1#32 := rfl
@[simp] theorem retire_inflight (s : State) : s.retire.inflight = none := rfl
@[simp] theorem retire_resetIn (s : State) : s.retire.resetIn = s.resetIn := rfl
@[simp] theorem retire_tags (s : State) : s.retire.tags = s.tags := rfl
@[simp] theorem retire_rdata (s : State) : s.retire.rdata = s.rdata := rfl
@[simp] theorem retire_draws (s : State) : s.retire.draws = s.draws := rfl
@[simp] theorem retire_sched (s : State) : s.retire.sched = s.sched := rfl

/-! ### the error entry -/

@[simp] theorem enterError_f (s : State) (e : CmdError) : (s.enterError e).f = s.f := rfl
@[simp] theorem enterError_p (s : State) (e : CmdError) : (s.enterError e).p = s.p := rfl
@[simp] theorem enterError_buf (s : State) (e : CmdError) : (s.enterError e).buf = s.buf := rfl
@[simp] theorem enterError_ctrl (s : State) (e : CmdError) : (s.enterError e).ctrl = s.ctrl := rfl
@[simp] theorem enterError_status (s : State) (e : CmdError) :
    (s.enterError e).status = { s.status with err := true, done := true, busy := false } := rfl
@[simp] theorem enterError_errcode (s : State) (e : CmdError) :
    (s.enterError e).errcode = e.kind.code := rfl
@[simp] theorem enterError_errinfo (s : State) (e : CmdError) :
    (s.enterError e).errinfo = e.info := rfl
@[simp] theorem enterError_errcmd (s : State) (e : CmdError) :
    (s.enterError e).errcmd = s.failingWord := rfl
@[simp] theorem enterError_curveSel (s : State) (e : CmdError) :
    (s.enterError e).curveSel = s.curveSel := rfl
@[simp] theorem enterError_msglen (s : State) (e : CmdError) :
    (s.enterError e).msglen = s.msglen := rfl
@[simp] theorem enterError_cmdcnt (s : State) (e : CmdError) :
    (s.enterError e).cmdcnt = s.cmdcnt := rfl
@[simp] theorem enterError_inflight (s : State) (e : CmdError) :
    (s.enterError e).inflight = none := rfl
@[simp] theorem enterError_resetIn (s : State) (e : CmdError) :
    (s.enterError e).resetIn = s.resetIn := rfl
@[simp] theorem enterError_tags (s : State) (e : CmdError) :
    (s.enterError e).tags = s.tags := rfl
@[simp] theorem enterError_rdata (s : State) (e : CmdError) :
    (s.enterError e).rdata = s.rdata := rfl
@[simp] theorem enterError_draws (s : State) (e : CmdError) :
    (s.enterError e).draws = s.draws := rfl
@[simp] theorem enterError_sched (s : State) (e : CmdError) :
    (s.enterError e).sched = s.sched := rfl

/-! ### a STATUS write, the return from an error -/

@[simp] theorem writeStatus_f (s : State) (v : Word) : (s.writeStatus v).f = s.f := rfl
@[simp] theorem writeStatus_p (s : State) (v : Word) : (s.writeStatus v).p = s.p := rfl
@[simp] theorem writeStatus_buf (s : State) (v : Word) : (s.writeStatus v).buf = s.buf := rfl
@[simp] theorem writeStatus_ctrl (s : State) (v : Word) : (s.writeStatus v).ctrl = s.ctrl := rfl
@[simp] theorem writeStatus_status (s : State) (v : Word) :
    (s.writeStatus v).status = { s.status with
      done := s.status.done && !v.getLsbD 1
      err := s.status.err && !v.getLsbD 2
      drop := s.status.drop && !v.getLsbD 3 } := rfl
@[simp] theorem writeStatus_errcode (s : State) (v : Word) :
    (s.writeStatus v).errcode = s.errcode := rfl
@[simp] theorem writeStatus_errinfo (s : State) (v : Word) :
    (s.writeStatus v).errinfo = s.errinfo := rfl
@[simp] theorem writeStatus_errcmd (s : State) (v : Word) :
    (s.writeStatus v).errcmd = s.errcmd := rfl
@[simp] theorem writeStatus_curveSel (s : State) (v : Word) :
    (s.writeStatus v).curveSel = s.curveSel := rfl
@[simp] theorem writeStatus_msglen (s : State) (v : Word) :
    (s.writeStatus v).msglen = s.msglen := rfl
@[simp] theorem writeStatus_cmdcnt (s : State) (v : Word) :
    (s.writeStatus v).cmdcnt = s.cmdcnt := rfl
@[simp] theorem writeStatus_inflight (s : State) (v : Word) :
    (s.writeStatus v).inflight = s.inflight := rfl
@[simp] theorem writeStatus_resetIn (s : State) (v : Word) :
    (s.writeStatus v).resetIn = s.resetIn := rfl
@[simp] theorem writeStatus_tags (s : State) (v : Word) :
    (s.writeStatus v).tags = s.tags := rfl
@[simp] theorem writeStatus_rdata (s : State) (v : Word) : (s.writeStatus v).rdata = s.rdata := rfl
@[simp] theorem writeStatus_draws (s : State) (v : Word) : (s.writeStatus v).draws = s.draws := rfl
@[simp] theorem writeStatus_sched (s : State) (v : Word) : (s.writeStatus v).sched = s.sched := rfl

/-! ### a drop -/

@[simp] theorem dropped_f (s : State) : s.dropped.f = s.f := rfl
@[simp] theorem dropped_p (s : State) : s.dropped.p = s.p := rfl
@[simp] theorem dropped_buf (s : State) : s.dropped.buf = s.buf := rfl
@[simp] theorem dropped_ctrl (s : State) : s.dropped.ctrl = s.ctrl := rfl
@[simp] theorem dropped_status (s : State) :
    s.dropped.status = { s.status with drop := true } := rfl
@[simp] theorem dropped_errcode (s : State) : s.dropped.errcode = s.errcode := rfl
@[simp] theorem dropped_errinfo (s : State) : s.dropped.errinfo = s.errinfo := rfl
@[simp] theorem dropped_errcmd (s : State) : s.dropped.errcmd = s.errcmd := rfl
@[simp] theorem dropped_curveSel (s : State) : s.dropped.curveSel = s.curveSel := rfl
@[simp] theorem dropped_msglen (s : State) : s.dropped.msglen = s.msglen := rfl
@[simp] theorem dropped_cmdcnt (s : State) : s.dropped.cmdcnt = s.cmdcnt := rfl
@[simp] theorem dropped_inflight (s : State) : s.dropped.inflight = s.inflight := rfl
@[simp] theorem dropped_resetIn (s : State) : s.dropped.resetIn = s.resetIn := rfl
@[simp] theorem dropped_tags (s : State) : s.dropped.tags = s.tags := rfl
@[simp] theorem dropped_rdata (s : State) : s.dropped.rdata = s.rdata := rfl
@[simp] theorem dropped_draws (s : State) : s.dropped.draws = s.draws := rfl
@[simp] theorem dropped_sched (s : State) : s.dropped.sched = s.sched := rfl

/-! ### a reset -/

@[simp] theorem resetUnit_f (s : State) :
    s.resetUnit.f = Vector.ofFn fun i => freeField s.draws i.val := rfl
@[simp] theorem resetUnit_p (s : State) :
    s.resetUnit.p = Vector.ofFn fun k => ⟨freeX s.draws k.val, freeY s.draws k.val, freeInf s.draws k.val⟩ := rfl
@[simp] theorem resetUnit_buf (s : State) : s.resetUnit.buf = freeBuf s.draws := rfl
@[simp] theorem resetUnit_ctrl (s : State) : s.resetUnit.ctrl = ⟨false, false⟩ := rfl
@[simp] theorem resetUnit_status (s : State) :
    s.resetUnit.status = ⟨false, false, false, false⟩ := rfl
@[simp] theorem resetUnit_errcode (s : State) : s.resetUnit.errcode = 0#4 := rfl
@[simp] theorem resetUnit_errinfo (s : State) : s.resetUnit.errinfo = 0#4 := rfl
@[simp] theorem resetUnit_errcmd (s : State) : s.resetUnit.errcmd = 0#32 := rfl
@[simp] theorem resetUnit_curveSel (s : State) : s.resetUnit.curveSel = 0#4 := rfl
@[simp] theorem resetUnit_msglen (s : State) : s.resetUnit.msglen = 0#11 := rfl
@[simp] theorem resetUnit_cmdcnt (s : State) : s.resetUnit.cmdcnt = 0#32 := rfl
@[simp] theorem resetUnit_inflight (s : State) : s.resetUnit.inflight = none := rfl
@[simp] theorem resetUnit_resetIn (s : State) : s.resetUnit.resetIn = s.resetIn := rfl
@[simp] theorem resetUnit_tags (s : State) : s.resetUnit.tags = s.tags := rfl
@[simp] theorem resetUnit_rdata (s : State) : s.resetUnit.rdata = s.rdata := rfl
@[simp] theorem resetUnit_draws (s : State) : s.resetUnit.draws = s.draws + 1 := rfl
@[simp] theorem resetUnit_sched (s : State) : s.resetUnit.sched = s.sched := rfl

/-! ### an accepted CMD write -/

@[simp] theorem acceptCommand_f (s : State) (w : Word) : (acceptCommand s w).f = s.f := rfl
@[simp] theorem acceptCommand_p (s : State) (w : Word) : (acceptCommand s w).p = s.p := rfl
@[simp] theorem acceptCommand_buf (s : State) (w : Word) : (acceptCommand s w).buf = s.buf := rfl
@[simp] theorem acceptCommand_ctrl (s : State) (w : Word) : (acceptCommand s w).ctrl = s.ctrl := rfl
@[simp] theorem acceptCommand_status (s : State) (w : Word) :
    (acceptCommand s w).status = { s.status with busy := true } := rfl
@[simp] theorem acceptCommand_errcode (s : State) (w : Word) :
    (acceptCommand s w).errcode = s.errcode := rfl
@[simp] theorem acceptCommand_errinfo (s : State) (w : Word) :
    (acceptCommand s w).errinfo = s.errinfo := rfl
@[simp] theorem acceptCommand_errcmd (s : State) (w : Word) :
    (acceptCommand s w).errcmd = s.errcmd := rfl
@[simp] theorem acceptCommand_curveSel (s : State) (w : Word) :
    (acceptCommand s w).curveSel = s.curveSel := rfl
@[simp] theorem acceptCommand_msglen (s : State) (w : Word) :
    (acceptCommand s w).msglen = s.msglen := rfl
@[simp] theorem acceptCommand_cmdcnt (s : State) (w : Word) :
    (acceptCommand s w).cmdcnt = s.cmdcnt := rfl
@[simp] theorem acceptCommand_inflight (s : State) (w : Word) :
    (acceptCommand s w).inflight = some ⟨w, 0, latencyOf w s⟩ := rfl
@[simp] theorem acceptCommand_resetIn (s : State) (w : Word) :
    (acceptCommand s w).resetIn = s.resetIn := rfl
@[simp] theorem acceptCommand_tags (s : State) (w : Word) :
    (acceptCommand s w).tags = s.tags := rfl
@[simp] theorem acceptCommand_rdata (s : State) (w : Word) :
    (acceptCommand s w).rdata = s.rdata := rfl
@[simp] theorem acceptCommand_draws (s : State) (w : Word) :
    (acceptCommand s w).draws = s.draws + 1 := rfl
@[simp] theorem acceptCommand_sched (s : State) (w : Word) :
    (acceptCommand s w).sched = s.sched := rfl

/-! ### taking the next move -/

@[simp] theorem popMove_f (s : State) : s.popMove.f = s.f := rfl
@[simp] theorem popMove_p (s : State) : s.popMove.p = s.p := rfl
@[simp] theorem popMove_buf (s : State) : s.popMove.buf = s.buf := rfl
@[simp] theorem popMove_ctrl (s : State) : s.popMove.ctrl = s.ctrl := rfl
@[simp] theorem popMove_status (s : State) : s.popMove.status = s.status := rfl
@[simp] theorem popMove_errcode (s : State) : s.popMove.errcode = s.errcode := rfl
@[simp] theorem popMove_errinfo (s : State) : s.popMove.errinfo = s.errinfo := rfl
@[simp] theorem popMove_errcmd (s : State) : s.popMove.errcmd = s.errcmd := rfl
@[simp] theorem popMove_curveSel (s : State) : s.popMove.curveSel = s.curveSel := rfl
@[simp] theorem popMove_msglen (s : State) : s.popMove.msglen = s.msglen := rfl
@[simp] theorem popMove_cmdcnt (s : State) : s.popMove.cmdcnt = s.cmdcnt := rfl
@[simp] theorem popMove_inflight (s : State) : s.popMove.inflight = s.inflight := rfl
@[simp] theorem popMove_resetIn (s : State) : s.popMove.resetIn = s.resetIn := rfl
@[simp] theorem popMove_tags (s : State) : s.popMove.tags = s.tags := rfl
@[simp] theorem popMove_rdata (s : State) : s.popMove.rdata = s.rdata := rfl
@[simp] theorem popMove_draws (s : State) : s.popMove.draws = s.draws := rfl
@[simp] theorem popMove_sched (s : State) : s.popMove.sched = s.sched.tail := rfl

/-! ### a command placed for the next step -/

@[simp] theorem loadCommand_f (s : State) (w : Word) : (s.loadCommand w).f = s.f := rfl
@[simp] theorem loadCommand_p (s : State) (w : Word) : (s.loadCommand w).p = s.p := rfl
@[simp] theorem loadCommand_buf (s : State) (w : Word) : (s.loadCommand w).buf = s.buf := rfl
@[simp] theorem loadCommand_ctrl (s : State) (w : Word) : (s.loadCommand w).ctrl = s.ctrl := rfl
@[simp] theorem loadCommand_status (s : State) (w : Word) :
    (s.loadCommand w).status = { s.status with busy := true } := rfl
@[simp] theorem loadCommand_errcode (s : State) (w : Word) :
    (s.loadCommand w).errcode = s.errcode := rfl
@[simp] theorem loadCommand_errinfo (s : State) (w : Word) :
    (s.loadCommand w).errinfo = s.errinfo := rfl
@[simp] theorem loadCommand_errcmd (s : State) (w : Word) :
    (s.loadCommand w).errcmd = s.errcmd := rfl
@[simp] theorem loadCommand_curveSel (s : State) (w : Word) :
    (s.loadCommand w).curveSel = s.curveSel := rfl
@[simp] theorem loadCommand_msglen (s : State) (w : Word) :
    (s.loadCommand w).msglen = s.msglen := rfl
@[simp] theorem loadCommand_cmdcnt (s : State) (w : Word) :
    (s.loadCommand w).cmdcnt = s.cmdcnt := rfl
@[simp] theorem loadCommand_inflight (s : State) (w : Word) :
    (s.loadCommand w).inflight = some ⟨w, 0, 1⟩ := rfl
@[simp] theorem loadCommand_resetIn (s : State) (w : Word) :
    (s.loadCommand w).resetIn = false := rfl
@[simp] theorem loadCommand_tags (s : State) (w : Word) :
    (s.loadCommand w).tags = s.tags := rfl
@[simp] theorem loadCommand_rdata (s : State) (w : Word) : (s.loadCommand w).rdata = s.rdata := rfl
@[simp] theorem loadCommand_draws (s : State) (w : Word) : (s.loadCommand w).draws = s.draws := rfl
@[simp] theorem loadCommand_sched (s : State) (w : Word) :
    (s.loadCommand w).sched = .cycle :: s.sched := rfl

/-! ### register files read after a write -/

theorem setF_get_self (s : State) (d : FReg) (v : FieldWord) : (s.setF d v).f[d] = v := by simp

theorem setF_get_ne (s : State) {d i : FReg} (v : FieldWord) (h : d ≠ i) :
    (s.setF d v).f[i] = s.f[i] := by
  simp [Fin.val_ne_of_ne h]

theorem setP_get_self (s : State) (d : PReg) (v : Point) : (s.setP d v).p[d] = v := by simp

theorem setP_get_ne (s : State) {d i : PReg} (v : Point) (h : d ≠ i) :
    (s.setP d v).p[i] = s.p[i] := by
  simp [Fin.val_ne_of_ne h]

end Sys2Proof.Machine
end

