-- ==== Sys2Proof/Laws/Ops.lean ====
section
/-! SUPPORT. What each shared operation can do, said once: registry resolution, the checks, the two ways
a command completes, and one move of the machine. -/

namespace Sys2Proof.Machine

open Sys2Proof.Config

/-! ### The registry (10_state.md R43 to R47) -/

/-- The present entries are P-384 at 0 and P-521 at 1, each with the unit's tag. -/
theorem registry_eq_some {tags : Tags} {id : BitVec 4} {E : Curve} :
    registry tags id = some E ↔ (id = 0#4 ∧ E = { p384 with dst := tags.dst0 }) ∨
      (id = 1#4 ∧ E = { p521 with dst := tags.dst1 }) := by
  unfold registry
  split
  case isTrue h => subst h; simp [eq_comm]
  case isFalse h =>
    split
    case isTrue h' => subst h'; simp [eq_comm]
    case isFalse h' => simp [h, h']

/-- Entries 2 to 15 are absent. -/
theorem registry_eq_none {tags : Tags} {id : BitVec 4} : registry tags id = none ↔ 2 ≤ id.toNat := by
  have hid : 2 ≤ id.toNat ↔ id ≠ 0#4 ∧ id ≠ 1#4 := by revert id; decide
  rw [hid, registry]
  split <;> simp_all

/-- With the default tags the entries are those of R44 and R45. -/
theorem registry_default :
    registry defaultTags 0#4 = some p384 ∧ registry defaultTags 1#4 = some p521 := ⟨rfl, rfl⟩

/-- A property of both entries, whatever their tags, holds of every present one. -/
theorem registry_induction {P : Curve → Prop} (h0 : ∀ dst, P { p384 with dst := dst })
    (h1 : ∀ dst, P { p521 with dst := dst }) {tags : Tags} {id : BitVec 4} {E : Curve}
    (h : registry tags id = some E) : P E := by
  obtain ⟨-, rfl⟩ | ⟨-, rfl⟩ := registry_eq_some.mp h
  · exact h0 _
  · exact h1 _

section Registry

variable {tags : Tags} {id : BitVec 4} {E : Curve}

theorem registry_p_pos (h : registry tags id = some E) : 0 < E.p :=
  registry_induction (P := fun E => 0 < E.p) (fun _ => (by decide : 0 < p384.p))
    (fun _ => (by decide : 0 < p521.p)) h

theorem registry_p_gt_two (h : registry tags id = some E) : 2 < E.p :=
  registry_induction (P := fun E => 2 < E.p) (fun _ => (by decide : 2 < p384.p))
    (fun _ => (by decide : 2 < p521.p)) h

/-- A residue fits in a register (10_state.md R30). -/
theorem registry_p_lt (h : registry tags id = some E) : E.p < 2 ^ 521 :=
  registry_induction (P := fun E => E.p < 2 ^ 521) (fun _ => (by decide +kernel : p384.p < 2 ^ 521))
    (fun _ => (by decide +kernel : p521.p < 2 ^ 521)) h

/-- Both moduli are 3 modulo 4 (10_state.md R46). -/
theorem registry_p_mod_four (h : registry tags id = some E) : E.p % 4 = 3 :=
  registry_induction (P := fun E => E.p % 4 = 3) (fun _ => (by decide +kernel : p384.p % 4 = 3))
    (fun _ => (by decide +kernel : p521.p % 4 = 3)) h

theorem registry_m (h : registry tags id = some E) : E.m = 1 :=
  registry_induction (P := fun E => E.m = 1) (fun _ => rfl) (fun _ => rfl) h

theorem registry_h (h : registry tags id = some E) : E.h = 1 :=
  registry_induction (P := fun E => E.h = 1) (fun _ => rfl) (fun _ => rfl) h

theorem registry_mapping (h : registry tags id = some E) : E.mapping = .sswu :=
  registry_induction (P := fun E => E.mapping = .sswu) (fun _ => rfl) (fun _ => rfl) h

/-- The entry's constants are residues. -/
def Residues (E : Curve) : Prop :=
  E.a < E.p ∧ E.b < E.p ∧ E.z < E.p ∧ E.h < E.p ∧ E.n < E.p ∧ E.gx < E.p ∧ E.gy < E.p

/-- The entry's constants are residues (10_state.md R43). -/
theorem registry_residues (h : registry tags id = some E) : Residues E :=
  registry_induction (P := Residues) (fun _ => (by unfold Residues; decide +kernel : Residues p384))
    (fun _ => (by unfold Residues; decide +kernel : Residues p521)) h

end Registry

/-! ### The preamble and the checks -/

theorem withCurve_some {s : State} {E : Curve} (h : registry s.tags s.curveSel = some E)
    (body : Curve → CmdResult) : withCurve s body = body E := by
  rw [withCurve, h]

theorem withCurve_none {s : State} (h : registry s.tags s.curveSel = none) (body : Curve → CmdResult) :
    withCurve s body = .error ⟨.unsupportedGroup, 0#4⟩ := by
  rw [withCurve, h]

theorem checkedPoint_valid {E : Curve} {q : Point} (h : validPoint E q = true) (info : BitVec 4)
    (body : GroupPoint → CmdResult) : checkedPoint E q info body = body q.toGroup := by
  rw [checkedPoint, if_pos h]

theorem checkedPoint_invalid {E : Curve} {q : Point} (h : validPoint E q = false) (info : BitVec 4)
    (body : GroupPoint → CmdResult) :
    checkedPoint E q info body = .error ⟨.invalidGroupElement, info⟩ := by
  rw [checkedPoint, if_neg (by simp [h])]

theorem withBufRange_ok {off : BitVec 10} {len : BitVec 8} (h : bufRangeOk off len = true)
    (r : CmdResult) : withBufRange off len r = r := by
  rw [withBufRange, if_pos h]

theorem requireOneElement_registry {tags : Tags} {id : BitVec 4} {E : Curve} (h : registry tags id = some E)
    (body : CmdResult) : requireOneElement E body = body := by
  rw [requireOneElement, if_pos (registry_m h)]

theorem requireSswu_registry {tags : Tags} {id : BitVec 4} {E : Curve} (h : registry tags id = some E)
    (body : CmdResult) : requireSswu E body = body := by
  rw [requireSswu, if_pos (registry_mapping h)]

theorem withMessage_short {s : State} (h : s.msglen.toNat ≤ 1024) (body : List Byte → CmdResult) :
    withMessage s body = body (bufRead s 0 s.msglen.toNat) := by
  rw [withMessage, if_neg (by omega)]

theorem withMessage_long {s : State} (h : 1024 < s.msglen.toNat) (body : List Byte → CmdResult) :
    withMessage s body = .error ⟨.internalInstantiation, 6#4⟩ := by
  rw [withMessage, if_pos h]

theorem checkedMap_on {E : Curve} {u : Nat}
    (h : onCurve E (sswuMap E u).1 (sswuMap E u).2 = true) (info : BitVec 4)
    (body : GroupPoint → CmdResult) :
    checkedMap E u info body = body (.aff (sswuMap E u).1 (sswuMap E u).2) := by
  simp only [checkedMap, h, if_true]

/-! What holds of every answer of a check: it holds of the check's error, and of what the body answers. -/

theorem withCurve_ind {G : CmdResult → Prop} {s : State} {body : Curve → CmdResult}
    (h0 : G (.error ⟨.unsupportedGroup, 0#4⟩)) (h1 : ∀ E, registry s.tags s.curveSel = some E → G (body E)) :
    G (withCurve s body) := by
  unfold withCurve
  split
  · exact h0
  · exact h1 _ ‹_›

theorem checkedPoint_ind {G : CmdResult → Prop} {E : Curve} {q : Point} {info : BitVec 4}
    {body : GroupPoint → CmdResult} (h0 : G (.error ⟨.invalidGroupElement, info⟩))
    (h1 : validPoint E q = true → G (body q.toGroup)) : G (checkedPoint E q info body) := by
  unfold checkedPoint
  split
  · exact h1 ‹_›
  · exact h0

theorem checkedMap_ind {G : CmdResult → Prop} {E : Curve} {u : Nat} {info : BitVec 4}
    {body : GroupPoint → CmdResult} (h0 : G (.error ⟨.invalidGroupElement, info⟩))
    (h1 : onCurve E (sswuMap E u).1 (sswuMap E u).2 = true →
      G (body (.aff (sswuMap E u).1 (sswuMap E u).2))) : G (checkedMap E u info body) := by
  simp only [checkedMap]
  split
  · exact h1 ‹_›
  · exact h0

theorem checkedFinal_ind {G : CmdResult → Prop} {E : Curve} {d : PReg} {q : GroupPoint}
    (h0 : G (.error ⟨.invalidGroupElement, 5#4⟩))
    (h1 : validPoint E q.toPoint = true → G (pointResult d q)) : G (checkedFinal E d q) := by
  unfold checkedFinal
  split
  · exact h1 ‹_›
  · exact h0

theorem withBufRange_ind {G : CmdResult → Prop} {off : BitVec 10} {len : BitVec 8} {r : CmdResult}
    (h0 : G (.error ⟨.illegalCommand, Illegal.bufferRange.info⟩))
    (h1 : bufRangeOk off len = true → G r) : G (withBufRange off len r) := by
  unfold withBufRange
  split
  · exact h1 ‹_›
  · exact h0

theorem requireOneElement_ind {G : CmdResult → Prop} {E : Curve} {body : CmdResult}
    (h0 : G (.error ⟨.incompatibleGroupParams, 0#4⟩)) (h1 : G body) :
    G (requireOneElement E body) := by
  unfold requireOneElement
  split
  · exact h1
  · exact h0

theorem requireSswu_ind {G : CmdResult → Prop} {E : Curve} {body : CmdResult}
    (h0 : G (.error ⟨.incompatibleGroupParams, 0#4⟩)) (h1 : G body) : G (requireSswu E body) := by
  unfold requireSswu
  split
  · exact h1
  · exact h0

theorem withMessage_ind {G : CmdResult → Prop} {s : State} {body : List Byte → CmdResult}
    (h0 : G (.error ⟨.internalInstantiation, 6#4⟩)) (h1 : ∀ msg, G (body msg)) :
    G (withMessage s body) := by
  unfold withMessage
  split
  · exact h0
  · exact h1 _

/-- A MAU command with a field result completes with its value. -/
theorem fieldCommand_some {s : State} {E : Curve} (h : registry s.tags s.curveSel = some E) (d : FReg)
    (value : Curve → Nat) :
    fieldCommand d s value = .next (s.setF d (toField (value E))).retire := by
  rw [fieldCommand, complete, withCurve_some h]; rfl

/-! ### Completion (10_state.md R49; 60_exceptions.md R238) -/

@[simp] theorem completed_ok (s : State) (w : Effect) : s.completed (.ok w) = (s.apply w).retire := rfl
@[simp] theorem completed_error (s : State) (e : CmdError) :
    s.completed (.error e) = s.enterError e := rfl
@[simp] theorem apply_none (s : State) : s.apply .none = s := rfl
@[simp] theorem apply_field (s : State) (d : FReg) (v : FieldWord) :
    s.apply (.field d v) = s.setF d v := rfl
@[simp] theorem apply_point (s : State) (d : PReg) (v : Point) :
    s.apply (.point d v) = s.setP d v := rfl
@[simp] theorem apply_bytes (s : State) (off : Nat) (b : List Byte) :
    s.apply (.bytes off b) = s.setBytes off b := rfl

/-- Every completion leaves the unit idle with DONE set, and touches no host-owned register. -/
theorem completed_cases (s : State) (r : CmdResult) :
    (∃ w, r = .ok w ∧ s.completed r = (s.apply w).retire) ∨
      (∃ e, r = .error e ∧ s.completed r = s.enterError e) := by
  cases r with
  | ok w => exact .inl ⟨w, rfl, rfl⟩
  | error e => exact .inr ⟨e, rfl, rfl⟩

/-- A command's writes touch the register files and the buffer alone. -/
theorem apply_frame (s : State) (w : Effect) :
    s.apply w = { s with f := (s.apply w).f, p := (s.apply w).p, buf := (s.apply w).buf } := by
  cases w <;> rfl

/-- Every command's meaning is a completion: there is no other way for `exec` to answer. -/
theorem exec_completes (i : Instr) (s : State) : ∃ r, exec i s = .next (s.completed r) := by
  cases i <;> exact ⟨_, rfl⟩

/-- Every word completes (30_encoding.md R116; 60_exceptions.md R236). -/
theorem completeWord_completes (w : Word) (s : State) :
    ∃ r, completeWord w s = .next (s.completed r) := by
  rw [completeWord]
  split
  · exact exec_completes _ s
  · exact ⟨_, rfl⟩

/-- A legal word's completion is the meaning of its instruction. -/
theorem completeWord_ok {w : Word} {i : Instr} (h : decode w = .ok i) (s : State) :
    completeWord w s = exec i s := by
  rw [completeWord, h]

/-- An illegal word's completion is IllegalCommand (60_exceptions.md R236). -/
theorem completeWord_error {w : Word} {e : Illegal} (h : decode w = .error e) (s : State) :
    completeWord w s = .next (s.enterError ⟨.illegalCommand, e.info⟩) := by
  rw [completeWord, h]; rfl

/-! ### One move -/

/-- A clock cycle does one of three things: nothing, one cycle of elapsed time, or a completion. -/
theorem clockCycle_cases (s : State) :
    (clockCycle s = .next s ∧ (s.resetIn = true ∨ s.inflight = none)) ∨
      (∃ c, s.resetIn = false ∧ s.inflight = some c ∧
        ((c.elapsed + 1 < c.latency ∧
            clockCycle s = .next { s with inflight := some { c with elapsed := c.elapsed + 1 } }) ∨
          (c.latency ≤ c.elapsed + 1 ∧ clockCycle s = completeWord c.word s))) := by
  rw [clockCycle]
  cases hr : s.resetIn with
  | true => exact .inl ⟨rfl, .inl rfl⟩
  | false =>
    cases hi : s.inflight with
    | none => exact .inl ⟨rfl, .inr rfl⟩
    | some c =>
      refine .inr ⟨c, rfl, rfl, ?_⟩
      by_cases hl : c.latency ≤ c.elapsed + 1
      · exact .inr ⟨hl, by simp [hl]⟩
      · exact .inl ⟨by omega, by simp [hl]⟩

/-- A CMD write is accepted or dropped (10_state.md R49). -/
theorem writeCmd_cases (s : State) (w : Word) :
    (s.status.busy = false ∧ s.status.err = false ∧ writeCmd s w = acceptCommand s w) ∨
      ((s.status.busy = true ∨ s.status.err = true) ∧ writeCmd s w = s.dropped) := by
  rw [writeCmd]
  cases s.status.busy <;> cases s.status.err <;> simp

/-- A data write takes effect or is dropped (20_memory.md R80). -/
theorem dataWrite_cases (s t : State) :
    (s.status.busy = false ∧ dataWrite s t = t) ∨
      (s.status.busy = true ∧ dataWrite s t = s.dropped) := by
  rw [dataWrite]
  cases s.status.busy <;> simp

/-- A read changes nothing but the model's own read data and draws (20_memory.md R78). -/
theorem busRead_frame (s : State) (addr : WordAddr) :
    busRead s addr = { s with rdata := (busRead s addr).rdata, draws := (busRead s addr).draws } := by
  rw [busRead]
  split <;> rfl

end Sys2Proof.Machine
end

