-- ==== Sys2Proof/Laws/Bus.lean ====
section
/-! SUPPORT. The address map as numbers, and the words of the windows bit by bit (20_memory.md R71 to
R74). -/

namespace Sys2Proof.Machine

open Sys2Proof.Config

/-! ### Places (20_memory.md R71) -/

theorem extract_toNat (addr : WordAddr) (k l : Nat) :
    (addr.extractLsb' k l).toNat = addr.toNat / 2 ^ k % 2 ^ l := by
  rw [BitVec.extractLsb'_toNat, Nat.shiftRight_eq_div_pow]

/-- Word `j` of the block of F register `i`, byte offset `0x1000 + 0x80*i + 4*j`. -/
theorem placeOf_field {addr : WordAddr} {i : FReg} {j : Nat} (hj : j ≤ 31)
    (h : addr.toNat = 0x400 + 32 * i.val + j) : placeOf addr = .field i j := by
  have hi := i.isLt
  have e := extract_toNat addr
  rw [h] at e
  have e1 : addr.extractLsb' 9 5 = 2#5 := by
    apply BitVec.eq_of_toNat_eq; rw [e, BitVec.toNat_ofNat]; omega
  rw [placeOf, if_pos e1]
  congr 1
  · apply Fin.ext
    show (addr.extractLsb' 5 4).toNat = _
    rw [e]; omega
  · rw [e]; omega

/-- Word `j` of the block of P register `k`, byte offset `0x2000 + 0x100*k + 4*j`. -/
theorem placeOf_point {addr : WordAddr} {k : PReg} {j : Nat} (hj : j ≤ 63)
    (h : addr.toNat = 0x800 + 64 * k.val + j) : placeOf addr = .point k j := by
  have hk := k.isLt
  have e := extract_toNat addr
  rw [h] at e
  have e1 : addr.extractLsb' 9 5 = 4#5 := by
    apply BitVec.eq_of_toNat_eq; rw [e, BitVec.toNat_ofNat]; omega
  rw [placeOf, if_neg (by rw [e1]; decide), if_pos e1]
  congr 1
  · apply Fin.ext
    show (addr.extractLsb' 6 3).toNat = _
    rw [e]; omega
  · rw [e]; omega

/-- Word `w` of the BUF window, byte offset `0x4000 + 4*w`. -/
theorem placeOf_buf {addr : WordAddr} {w : Nat} (hw : w ≤ 255) (h : addr.toNat = 0x1000 + w) :
    placeOf addr = .buf w := by
  have e := extract_toNat addr
  rw [h] at e
  have e1 : addr.extractLsb' 9 5 = 8#5 := by
    apply BitVec.eq_of_toNat_eq; rw [e, BitVec.toNat_ofNat]; omega
  have e2 : addr.extractLsb' 8 6 = 16#6 := by
    apply BitVec.eq_of_toNat_eq; rw [e, BitVec.toNat_ofNat]; omega
  rw [placeOf, if_neg (by rw [e1]; decide), if_neg (by rw [e1]; decide), if_pos e2]
  congr 1
  rw [e]; omega

/-- Outside the windows, the place is the control window's. -/
theorem placeOf_control {addr : WordAddr} (h : addr.toNat < 0x400 ∨
    (0x600 ≤ addr.toNat ∧ addr.toNat < 0x800) ∨ (0xA00 ≤ addr.toNat ∧ addr.toNat < 0x1000) ∨
      0x1100 ≤ addr.toNat) : placeOf addr = controlPlace addr.toNat := by
  have hlt := addr.isLt
  have e1 := extract_toNat addr 9 5
  have e2 := extract_toNat addr 8 6
  rw [placeOf, if_neg, if_neg, if_neg]
  · intro hh; rw [hh, BitVec.toNat_ofNat] at e2; omega
  · intro hh; rw [hh, BitVec.toNat_ofNat] at e1; omega
  · intro hh; rw [hh, BitVec.toNat_ofNat] at e1; omega

/-- Word addresses of 10 and above in the control window are reserved. -/
theorem controlPlace_reserved {n : Nat} (h : 10 ≤ n) : controlPlace n = .reserved := by
  unfold controlPlace
  simp only [show ¬ n = 0 by omega, show ¬ n = 1 by omega, show ¬ n = 2 by omega,
    show ¬ n = 3 by omega, show ¬ n = 4 by omega, show ¬ n = 5 by omega, show ¬ n = 6 by omega,
    show ¬ n = 7 by omega, show ¬ n = 8 by omega, show ¬ n = 9 by omega, if_false]

/-! ### Bits of the windows (20_memory.md R72, R73) -/

/-- Bit `n` of word `j` of a 521-bit value. -/
theorem wordOf_getLsbD (v : FieldWord) {j n : Nat} (hn : n < 32) :
    (wordOf v j).getLsbD n = (decide (j ≤ 16) && v.getLsbD (32 * j + n)) := by
  rw [wordOf]
  split
  · rename_i hj
    rw [BitVec.getLsbD_extractLsb']; simp [hn, hj]
  · rename_i hj
    simp [hj]

/-- Bit `n` of a value with word `j` replaced. -/
theorem withWord_getLsbD (v : FieldWord) {j n : Nat} (x : Word) (hj : j ≤ 16) (hn : n < 521) :
    (withWord v j x).getLsbD n =
      if 32 * j ≤ n ∧ n < 32 * j + 32 then x.getLsbD (n - 32 * j) else v.getLsbD n := by
  have hones : ∀ k, (0xFFFFFFFF#32).getLsbD k = decide (k < 32) := fun k => by
    rw [show (0xFFFFFFFF#32) = BitVec.allOnes 32 from rfl, BitVec.getLsbD_allOnes]
  rw [withWord, if_pos hj]
  simp only [BitVec.getLsbD_or, BitVec.getLsbD_and, BitVec.getLsbD_not, BitVec.getLsbD_shiftLeft,
    BitVec.getLsbD_setWidth, hones, hn, decide_true, Bool.true_and]
  by_cases h1 : n < 32 * j
  · simp [h1, show ¬ 32 * j ≤ n by omega]
  · by_cases h2 : n < 32 * j + 32
    · simp [h1, h2, show 32 * j ≤ n by omega, show n - 32 * j < 32 by omega,
        show n - 32 * j < 521 by omega]
    · have h3 : x.getLsbD (n - 32 * j) = false := BitVec.getLsbD_of_ge _ _ (by omega)
      simp [h1, h2, h3, show ¬ n - 32 * j < 32 by omega]

/-- A word past 16 of an F block ignores writes. -/
theorem withWord_past {v : FieldWord} {j : Nat} (x : Word) (hj : 17 ≤ j) : withWord v j x = v := by
  rw [withWord, if_neg (by omega)]

/-! ### Bus accesses of a unit out of reset -/

/-- A read of a defined value. -/
theorem busRead_defined {s : State} {addr : WordAddr} {l : Place} (hp : placeOf addr = l)
    (hr : s.resetIn = false) (hb : (s.status.busy && l.inWindow) = false) :
    busRead s addr = { s with rdata := some (readPlace s l) } := by
  have h : readUnspecified s l = false := by
    rw [readUnspecified, hr, Bool.not_false, Bool.true_and, hb]; rfl
  simp only [busRead, hp, h]
  rfl

/-- A write lands on its place. -/
theorem busWrite_place {s : State} {addr : WordAddr} {l : Place} (hp : placeOf addr = l)
    (hr : s.resetIn = false) (v : Word) : busWrite s addr v = writePlace s v l := by
  rw [busWrite, hp, if_neg (by simp [hr])]

theorem dataWrite_idle {s : State} (hb : s.status.busy = false) (t : State) : dataWrite s t = t := by
  rw [dataWrite, if_neg (by simp [hb])]

theorem dataWrite_busy {s : State} (hb : s.status.busy = true) (t : State) :
    dataWrite s t = s.dropped := by
  rw [dataWrite, if_pos hb]

/-! ### Time -/

/-- A run is its first step and the rest. -/
theorem run_next {s t : State} (h : step s = .next t) (k : Nat) :
    Host.Core.run Sys2Proof.core (k + 1) s = Host.Core.run Sys2Proof.core k t := by
  have h' : Sys2Proof.core.step s = .next t := h
  simp only [Host.Core.run, h']

/-- What a word's completion gives does not depend on the time passed (10_state.md R56). -/
theorem completeWord_elapsed (w : Word) {s : State} {c : InFlight} (hc : s.inflight = some c) (n : Nat) :
    completeWord w { s with inflight := some { c with elapsed := n } } = completeWord w s := by
  have key : ∀ r : CmdResult,
      State.completed { s with inflight := some { c with elapsed := n } } r = s.completed r := by
    intro r
    cases r with
    | error e => simp [State.completed, State.enterError, State.failingWord, hc]
    | ok w => cases w <;> rfl
  cases hd : decode w with
  | error e => rw [completeWord_error hd, completeWord_error hd]; exact congrArg _ (key (.error _))
  | ok i =>
    rw [completeWord_ok hd, completeWord_ok hd]
    cases i <;> exact congrArg Host.Outcome.next (key _)

end Sys2Proof.Machine
end

