-- ==== Sys2Proof/Laws/Encoding.lean ====
section
/-! SUPPORT. The fields of an encoded word, and the word its fields make: what the round trip of the
encoding needs of each format (30_encoding.md R101 to R106). -/

namespace Sys2Proof

/-- A concatenation as a number. -/
theorem append_toNat {m n : Nat} (x : BitVec m) (y : BitVec n) :
    (x ++ y).toNat = x.toNat * 2 ^ n + y.toNat := by
  rw [BitVec.toNat_append, ← Nat.shiftLeft_add_eq_or_of_lt y.isLt, Nat.shiftLeft_eq]

/-- Format R as a number (30_encoding.md R102, R121). -/
theorem formR_toNat (op : BitVec 6) (d a b c : BitVec 4) : (formR op d a b c).toNat =
    ((((op.toNat * 16 + d.toNat) * 16 + a.toNat) * 16 + b.toNat) * 16 + c.toNat) * 1024 := by
  simp only [formR, append_toNat]; simp

/-- Format I as a number (30_encoding.md R103, R121). -/
theorem formI_toNat (op : BitVec 6) (d : BitVec 4) (imm : BitVec 22) : (formI op d imm).toNat =
    (op.toNat * 16 + d.toNat) * 4194304 + imm.toNat := by
  simp only [formI, append_toNat]; simp

/-- Format C as a number (30_encoding.md R104, R121). -/
theorem formC_toNat (op : BitVec 6) (d sel : BitVec 4) : (formC op d sel).toNat =
    ((op.toNat * 16 + d.toNat) * 16 + sel.toNat) * 262144 := by
  simp only [formC, append_toNat]; simp

/-- Format B as a number (30_encoding.md R105, R121). -/
theorem formB_toNat (op : BitVec 6) (r : BitVec 4) (off : BitVec 10) (len : BitVec 8) :
    (formB op r off len).toNat =
      (((op.toNat * 16 + r.toNat) * 1024 + off.toNat) * 256 + len.toNat) * 16 := by
  simp only [formB, append_toNat]; simp

/-- Format H as a number (30_encoding.md R106, R121). -/
theorem formH_toNat (op : BitVec 6) (d : BitVec 4) (ctr : BitVec 1) : (formH op d ctr).toNat =
    ((op.toNat * 16 + d.toNat) * 2 + ctr.toNat) * 2097152 := by
  simp only [formH, append_toNat]; simp

/-! ### Format R -/

@[simp] theorem opcodeOf_formR (op : BitVec 6) (d a b c : BitVec 4) :
    opcodeOf (formR op d a b c) = op := by
  apply BitVec.eq_of_toNat_eq
  rw [opcodeOf, BitVec.extractLsb'_toNat, formR_toNat, Nat.shiftRight_eq_div_pow]
  omega

@[simp] theorem fieldD_formR (op : BitVec 6) (d a b c : BitVec 4) :
    fieldD (formR op d a b c) = d := by
  apply BitVec.eq_of_toNat_eq
  rw [fieldD, BitVec.extractLsb'_toNat, formR_toNat, Nat.shiftRight_eq_div_pow]
  omega

@[simp] theorem fieldA_formR (op : BitVec 6) (d a b c : BitVec 4) :
    fieldA (formR op d a b c) = a := by
  apply BitVec.eq_of_toNat_eq
  rw [fieldA, BitVec.extractLsb'_toNat, formR_toNat, Nat.shiftRight_eq_div_pow]
  omega

@[simp] theorem fieldB_formR (op : BitVec 6) (d a b c : BitVec 4) :
    fieldB (formR op d a b c) = b := by
  apply BitVec.eq_of_toNat_eq
  rw [fieldB, BitVec.extractLsb'_toNat, formR_toNat, Nat.shiftRight_eq_div_pow]
  omega

@[simp] theorem fieldC_formR (op : BitVec 6) (d a b c : BitVec 4) :
    fieldC (formR op d a b c) = c := by
  apply BitVec.eq_of_toNat_eq
  rw [fieldC, BitVec.extractLsb'_toNat, formR_toNat, Nat.shiftRight_eq_div_pow]
  omega

@[simp] theorem lowZero_formR (op : BitVec 6) (d a b c : BitVec 4) :
    lowZero 10 (formR op d a b c) = true := by
  rw [lowZero, beq_iff_eq]
  apply BitVec.eq_of_toNat_eq
  rw [BitVec.extractLsb'_toNat, formR_toNat, Nat.shiftRight_eq_div_pow, BitVec.toNat_ofNat]
  omega

/-- A word whose low bits are 0 is rebuilt from its fields. -/
theorem formR_fields (w : Word) (h : lowZero 10 w = true) :
    formR (opcodeOf w) (fieldD w) (fieldA w) (fieldB w) (fieldC w) = w := by
  apply BitVec.eq_of_toNat_eq
  rw [formR_toNat]
  simp only [lowZero, beq_iff_eq, opcodeOf, fieldD, fieldA, fieldB, fieldC,
    ← BitVec.toNat_inj, BitVec.extractLsb'_toNat, Nat.shiftRight_eq_div_pow, BitVec.toNat_ofNat] at *
  have := w.isLt
  omega

/-! ### Format I -/

@[simp] theorem opcodeOf_formI (op : BitVec 6) (d : BitVec 4) (imm : BitVec 22) :
    opcodeOf (formI op d imm) = op := by
  apply BitVec.eq_of_toNat_eq
  rw [opcodeOf, BitVec.extractLsb'_toNat, formI_toNat, Nat.shiftRight_eq_div_pow]
  omega

@[simp] theorem fieldD_formI (op : BitVec 6) (d : BitVec 4) (imm : BitVec 22) :
    fieldD (formI op d imm) = d := by
  apply BitVec.eq_of_toNat_eq
  rw [fieldD, BitVec.extractLsb'_toNat, formI_toNat, Nat.shiftRight_eq_div_pow]
  omega

@[simp] theorem fieldImm_formI (op : BitVec 6) (d : BitVec 4) (imm : BitVec 22) :
    fieldImm (formI op d imm) = imm := by
  apply BitVec.eq_of_toNat_eq
  rw [fieldImm, BitVec.extractLsb'_toNat, formI_toNat, Nat.shiftRight_eq_div_pow]
  omega

/-- A word is rebuilt from its fields. -/
theorem formI_fields (w : Word) :
    formI (opcodeOf w) (fieldD w) (fieldImm w) = w := by
  apply BitVec.eq_of_toNat_eq
  rw [formI_toNat]
  simp only [opcodeOf, fieldD, fieldImm, BitVec.extractLsb'_toNat,
    Nat.shiftRight_eq_div_pow]
  have := w.isLt
  omega

/-! ### Format C -/

@[simp] theorem opcodeOf_formC (op : BitVec 6) (d sel : BitVec 4) :
    opcodeOf (formC op d sel) = op := by
  apply BitVec.eq_of_toNat_eq
  rw [opcodeOf, BitVec.extractLsb'_toNat, formC_toNat, Nat.shiftRight_eq_div_pow]
  omega

@[simp] theorem fieldD_formC (op : BitVec 6) (d sel : BitVec 4) :
    fieldD (formC op d sel) = d := by
  apply BitVec.eq_of_toNat_eq
  rw [fieldD, BitVec.extractLsb'_toNat, formC_toNat, Nat.shiftRight_eq_div_pow]
  omega

@[simp] theorem fieldA_formC (op : BitVec 6) (d sel : BitVec 4) :
    fieldA (formC op d sel) = sel := by
  apply BitVec.eq_of_toNat_eq
  rw [fieldA, BitVec.extractLsb'_toNat, formC_toNat, Nat.shiftRight_eq_div_pow]
  omega

@[simp] theorem lowZero_formC (op : BitVec 6) (d sel : BitVec 4) :
    lowZero 18 (formC op d sel) = true := by
  rw [lowZero, beq_iff_eq]
  apply BitVec.eq_of_toNat_eq
  rw [BitVec.extractLsb'_toNat, formC_toNat, Nat.shiftRight_eq_div_pow, BitVec.toNat_ofNat]
  omega

/-- A word whose low bits are 0 is rebuilt from its fields. -/
theorem formC_fields (w : Word) (h : lowZero 18 w = true) :
    formC (opcodeOf w) (fieldD w) (fieldA w) = w := by
  apply BitVec.eq_of_toNat_eq
  rw [formC_toNat]
  simp only [lowZero, beq_iff_eq, opcodeOf, fieldD, fieldA,
    ← BitVec.toNat_inj, BitVec.extractLsb'_toNat, Nat.shiftRight_eq_div_pow, BitVec.toNat_ofNat] at *
  have := w.isLt
  omega

/-! ### Format B -/

@[simp] theorem opcodeOf_formB (op : BitVec 6) (r : BitVec 4) (off : BitVec 10) (len : BitVec 8) :
    opcodeOf (formB op r off len) = op := by
  apply BitVec.eq_of_toNat_eq
  rw [opcodeOf, BitVec.extractLsb'_toNat, formB_toNat, Nat.shiftRight_eq_div_pow]
  omega

@[simp] theorem fieldD_formB (op : BitVec 6) (r : BitVec 4) (off : BitVec 10) (len : BitVec 8) :
    fieldD (formB op r off len) = r := by
  apply BitVec.eq_of_toNat_eq
  rw [fieldD, BitVec.extractLsb'_toNat, formB_toNat, Nat.shiftRight_eq_div_pow]
  omega

@[simp] theorem fieldOff_formB (op : BitVec 6) (r : BitVec 4) (off : BitVec 10) (len : BitVec 8) :
    fieldOff (formB op r off len) = off := by
  apply BitVec.eq_of_toNat_eq
  rw [fieldOff, BitVec.extractLsb'_toNat, formB_toNat, Nat.shiftRight_eq_div_pow]
  omega

@[simp] theorem fieldLen_formB (op : BitVec 6) (r : BitVec 4) (off : BitVec 10) (len : BitVec 8) :
    fieldLen (formB op r off len) = len := by
  apply BitVec.eq_of_toNat_eq
  rw [fieldLen, BitVec.extractLsb'_toNat, formB_toNat, Nat.shiftRight_eq_div_pow]
  omega

@[simp] theorem lowZero_formB (op : BitVec 6) (r : BitVec 4) (off : BitVec 10) (len : BitVec 8) :
    lowZero 4 (formB op r off len) = true := by
  rw [lowZero, beq_iff_eq]
  apply BitVec.eq_of_toNat_eq
  rw [BitVec.extractLsb'_toNat, formB_toNat, Nat.shiftRight_eq_div_pow, BitVec.toNat_ofNat]
  omega

/-- A word whose low bits are 0 is rebuilt from its fields. -/
theorem formB_fields (w : Word) (h : lowZero 4 w = true) :
    formB (opcodeOf w) (fieldD w) (fieldOff w) (fieldLen w) = w := by
  apply BitVec.eq_of_toNat_eq
  rw [formB_toNat]
  simp only [lowZero, beq_iff_eq, opcodeOf, fieldD, fieldOff, fieldLen,
    ← BitVec.toNat_inj, BitVec.extractLsb'_toNat, Nat.shiftRight_eq_div_pow, BitVec.toNat_ofNat] at *
  have := w.isLt
  omega

/-! ### Format H -/

@[simp] theorem opcodeOf_formH (op : BitVec 6) (d : BitVec 4) (ctr : BitVec 1) :
    opcodeOf (formH op d ctr) = op := by
  apply BitVec.eq_of_toNat_eq
  rw [opcodeOf, BitVec.extractLsb'_toNat, formH_toNat, Nat.shiftRight_eq_div_pow]
  omega

@[simp] theorem fieldD_formH (op : BitVec 6) (d : BitVec 4) (ctr : BitVec 1) :
    fieldD (formH op d ctr) = d := by
  apply BitVec.eq_of_toNat_eq
  rw [fieldD, BitVec.extractLsb'_toNat, formH_toNat, Nat.shiftRight_eq_div_pow]
  omega

@[simp] theorem fieldCtr_formH (op : BitVec 6) (d : BitVec 4) (ctr : BitVec 1) :
    fieldCtr (formH op d ctr) = ctr := by
  apply BitVec.eq_of_toNat_eq
  rw [fieldCtr, BitVec.extractLsb'_toNat, formH_toNat, Nat.shiftRight_eq_div_pow]
  omega

@[simp] theorem lowZero_formH (op : BitVec 6) (d : BitVec 4) (ctr : BitVec 1) :
    lowZero 21 (formH op d ctr) = true := by
  rw [lowZero, beq_iff_eq]
  apply BitVec.eq_of_toNat_eq
  rw [BitVec.extractLsb'_toNat, formH_toNat, Nat.shiftRight_eq_div_pow, BitVec.toNat_ofNat]
  omega

/-- A word whose low bits are 0 is rebuilt from its fields. -/
theorem formH_fields (w : Word) (h : lowZero 21 w = true) :
    formH (opcodeOf w) (fieldD w) (fieldCtr w) = w := by
  apply BitVec.eq_of_toNat_eq
  rw [formH_toNat]
  simp only [lowZero, beq_iff_eq, opcodeOf, fieldD, fieldCtr,
    ← BitVec.toNat_inj, BitVec.extractLsb'_toNat, Nat.shiftRight_eq_div_pow, BitVec.toNat_ofNat] at *
  have := w.isLt
  omega

/-- A word whose low 26 bits are 0 is rebuilt from its opcode. -/
theorem formN_fields (w : Word) (h : lowZero 26 w = true) : (opcodeOf w ++ 0#26 : Word) = w := by
  have h1 := congrArg BitVec.toNat (beq_iff_eq.mp h)
  apply BitVec.eq_of_toNat_eq
  rw [append_toNat]
  simp only [opcodeOf, BitVec.extractLsb'_toNat, Nat.shiftRight_eq_div_pow,
    BitVec.toNat_ofNat] at *
  have := w.isLt
  omega

/-! ### Unused fields (30_encoding.md R108, R121) -/

/-- The low bits of a format-R word whose fields from b on are unused. -/
@[simp] theorem lowZero_formR_b (op : BitVec 6) (d a : BitVec 4) :
    lowZero 18 (formR op d a 0#4 0#4) = true := by
  rw [lowZero, beq_iff_eq]
  apply BitVec.eq_of_toNat_eq
  rw [BitVec.extractLsb'_toNat, formR_toNat, Nat.shiftRight_eq_div_pow, BitVec.toNat_ofNat,
    BitVec.toNat_ofNat]
  omega

/-- The low bits of a format-R word whose field c is unused. -/
@[simp] theorem lowZero_formR_c (op : BitVec 6) (d a b : BitVec 4) :
    lowZero 14 (formR op d a b 0#4) = true := by
  rw [lowZero, beq_iff_eq]
  apply BitVec.eq_of_toNat_eq
  rw [BitVec.extractLsb'_toNat, formR_toNat, Nat.shiftRight_eq_div_pow, BitVec.toNat_ofNat,
    BitVec.toNat_ofNat]
  omega

/-- The low bits of a format-R word with only the field d. -/
@[simp] theorem lowZero_formR_a (op : BitVec 6) (d : BitVec 4) :
    lowZero 22 (formR op d 0#4 0#4 0#4) = true := by
  rw [lowZero, beq_iff_eq]
  apply BitVec.eq_of_toNat_eq
  rw [BitVec.extractLsb'_toNat, formR_toNat, Nat.shiftRight_eq_div_pow, BitVec.toNat_ofNat,
    BitVec.toNat_ofNat]
  omega

/-- A format-R word whose low 14 bits are 0 is rebuilt from d, a and b. -/
theorem formR_fields_c (w : Word) (h : lowZero 14 w = true) :
    formR (opcodeOf w) (fieldD w) (fieldA w) (fieldB w) 0#4 = w := by
  apply BitVec.eq_of_toNat_eq
  rw [formR_toNat]
  simp only [lowZero, beq_iff_eq, opcodeOf, fieldD, fieldA, fieldB,
    ← BitVec.toNat_inj, BitVec.extractLsb'_toNat, Nat.shiftRight_eq_div_pow, BitVec.toNat_ofNat] at *
  have := w.isLt
  omega

/-- A format-R word whose low 18 bits are 0 is rebuilt from d and a. -/
theorem formR_fields_b (w : Word) (h : lowZero 18 w = true) :
    formR (opcodeOf w) (fieldD w) (fieldA w) 0#4 0#4 = w := by
  apply BitVec.eq_of_toNat_eq
  rw [formR_toNat]
  simp only [lowZero, beq_iff_eq, opcodeOf, fieldD, fieldA,
    ← BitVec.toNat_inj, BitVec.extractLsb'_toNat, Nat.shiftRight_eq_div_pow, BitVec.toNat_ofNat] at *
  have := w.isLt
  omega

/-- A format-R word whose low 22 bits are 0 is rebuilt from d. -/
theorem formR_fields_a (w : Word) (h : lowZero 22 w = true) :
    formR (opcodeOf w) (fieldD w) 0#4 0#4 0#4 = w := by
  apply BitVec.eq_of_toNat_eq
  rw [formR_toNat]
  simp only [lowZero, beq_iff_eq, opcodeOf, fieldD,
    ← BitVec.toNat_inj, BitVec.extractLsb'_toNat, Nat.shiftRight_eq_div_pow, BitVec.toNat_ofNat] at *
  have := w.isLt
  omega

/-! ### Registers and constants in a field (30_encoding.md R107, R112) -/

@[simp] theorem fReg_fBits (r : FReg) : fReg (fBits r) = r := by
  apply Fin.ext; simp [fReg, fBits]

@[simp] theorem fBits_fReg (x : BitVec 4) : fBits (fReg x) = x := by simp [fReg, fBits]

@[simp] theorem pReg_pBits : ∀ r : PReg, pReg (pBits r) = r := by decide

@[simp] theorem pOk_pBits : ∀ r : PReg, pOk (pBits r) = true := by decide

/-- A P-typed field with bit 3 clear is the field of the register it names. -/
theorem pBits_pReg : ∀ x : BitVec 4, pOk x = true → pBits (pReg x) = x := by decide

@[simp] theorem constOf_constBits (k : CurveConst) : constOf (constBits k) = some k := by
  cases k <;> rfl

/-- A selector that names a constant is the constant's selector. -/
theorem constBits_of_constOf {k : CurveConst} :
    ∀ {x : BitVec 4}, constOf x = some k → constBits k = x := by
  cases k <;> decide

/-- A selector names a constant exactly when it is at most 8. -/
theorem constOf_isSome_iff : ∀ x : BitVec 4, (constOf x).isSome = decide (x.toNat ≤ 8) := by decide

/-! ### The words as the rule writes them (30_encoding.md R121) -/

theorem fBits_toNat (r : FReg) : (fBits r).toNat = r.val := rfl

theorem pBits_toNat : ∀ r : PReg, (pBits r).toNat = r.val := by decide

/-- Format R from the numbers of its fields. -/
theorem formR_eq {op : BitVec 6} {d a b c : BitVec 4} {nop nd na nb nc : Nat} (ho : op.toNat = nop)
    (hd : d.toNat = nd) (ha : a.toNat = na) (hb : b.toNat = nb) (hc : c.toNat = nc) :
    formR op d a b c =
      BitVec.ofNat 32 (nop <<< 26 ||| nd <<< 22 ||| na <<< 18 ||| nb <<< 14 ||| nc <<< 10) := by
  subst ho hd ha hb hc
  have h : (formR op d a b c).toNat = op.toNat <<< 26 ||| d.toNat <<< 22 ||| a.toNat <<< 18 |||
      b.toNat <<< 14 ||| c.toNat <<< 10 := by
    simp only [formR, BitVec.toNat_append, Nat.shiftLeft_or_distrib, ← Nat.shiftLeft_add]; simp
  rw [← h, BitVec.ofNat_toNat, BitVec.setWidth_eq]

/-- Format I from the numbers of its fields. -/
theorem formI_eq {op : BitVec 6} {d : BitVec 4} {imm : BitVec 22} {nop nd n : Nat}
    (ho : op.toNat = nop) (hd : d.toNat = nd) (hi : imm.toNat = n) :
    formI op d imm = BitVec.ofNat 32 (nop <<< 26 ||| nd <<< 22 ||| n) := by
  subst ho hd hi
  have h : (formI op d imm).toNat = op.toNat <<< 26 ||| d.toNat <<< 22 ||| imm.toNat := by
    simp only [formI, BitVec.toNat_append, Nat.shiftLeft_or_distrib, ← Nat.shiftLeft_add]
  rw [← h, BitVec.ofNat_toNat, BitVec.setWidth_eq]

/-- Format C from the numbers of its fields. -/
theorem formC_eq {op : BitVec 6} {d sel : BitVec 4} {nop nd n : Nat} (ho : op.toNat = nop)
    (hd : d.toNat = nd) (hs : sel.toNat = n) :
    formC op d sel = BitVec.ofNat 32 (nop <<< 26 ||| nd <<< 22 ||| n <<< 18) := by
  subst ho hd hs
  have h : (formC op d sel).toNat = op.toNat <<< 26 ||| d.toNat <<< 22 ||| sel.toNat <<< 18 := by
    simp only [formC, BitVec.toNat_append, Nat.shiftLeft_or_distrib, ← Nat.shiftLeft_add]; simp
  rw [← h, BitVec.ofNat_toNat, BitVec.setWidth_eq]

/-- Format B from the numbers of its fields. -/
theorem formB_eq {op : BitVec 6} {r : BitVec 4} {off : BitVec 10} {len : BitVec 8} {nop nr : Nat}
    (ho : op.toNat = nop) (hr : r.toNat = nr) : formB op r off len =
      BitVec.ofNat 32 (nop <<< 26 ||| nr <<< 22 ||| off.toNat <<< 12 ||| len.toNat <<< 4) := by
  subst ho hr
  have h : (formB op r off len).toNat =
      op.toNat <<< 26 ||| r.toNat <<< 22 ||| off.toNat <<< 12 ||| len.toNat <<< 4 := by
    simp only [formB, BitVec.toNat_append, Nat.shiftLeft_or_distrib, ← Nat.shiftLeft_add]; simp
  rw [← h, BitVec.ofNat_toNat, BitVec.setWidth_eq]

/-- Format H from the numbers of its fields. -/
theorem formH_eq {op : BitVec 6} {d : BitVec 4} {ctr : BitVec 1} {nop nd : Nat} (ho : op.toNat = nop)
    (hd : d.toNat = nd) :
    formH op d ctr = BitVec.ofNat 32 (nop <<< 26 ||| nd <<< 22 ||| ctr.toNat <<< 21) := by
  subst ho hd
  have h : (formH op d ctr).toNat = op.toNat <<< 26 ||| d.toNat <<< 22 ||| ctr.toNat <<< 21 := by
    simp only [formH, BitVec.toNat_append, Nat.shiftLeft_or_distrib, ← Nat.shiftLeft_add]; simp
  rw [← h, BitVec.ofNat_toNat, BitVec.setWidth_eq]

/-! ### Match and mask (30_encoding.md R113) -/

/-- Words with the same fields are the same. -/
theorem word_ext {v w : Word} (h1 : opcodeOf v = opcodeOf w) (h2 : fieldD v = fieldD w)
    (h3 : fieldA v = fieldA w) (h4 : fieldB v = fieldB w) (h5 : fieldC v = fieldC w)
    (h6 : v.extractLsb' 0 10 = w.extractLsb' 0 10) : v = w := by
  apply BitVec.eq_of_toNat_eq
  simp only [opcodeOf, fieldD, fieldA, fieldB, fieldC, ← BitVec.toNat_inj, BitVec.extractLsb'_toNat,
    Nat.shiftRight_eq_div_pow] at *
  have := v.isLt
  have := w.isLt
  omega

/-- A masked word matches exactly when its masked fields do. -/
theorem and_eq_iff_fields {w m v : Word} : w &&& m = v ↔ opcodeOf w &&& opcodeOf m = opcodeOf v ∧
    fieldD w &&& fieldD m = fieldD v ∧ fieldA w &&& fieldA m = fieldA v ∧
    fieldB w &&& fieldB m = fieldB v ∧ fieldC w &&& fieldC m = fieldC v ∧
    w.extractLsb' 0 10 &&& m.extractLsb' 0 10 = v.extractLsb' 0 10 := by
  simp only [opcodeOf, fieldD, fieldA, fieldB, fieldC, ← BitVec.extractLsb'_and]
  constructor
  · rintro rfl
    exact ⟨rfl, rfl, rfl, rfl, rfl, rfl⟩
  · rintro ⟨h1, h2, h3, h4, h5, h6⟩
    exact word_ext h1 h2 h3 h4 h5 h6

/-- The low 14 bits are 0 exactly when the field c and the bits below it are. -/
theorem lowZero_14 (w : Word) : lowZero 14 w = (fieldC w == 0#4 && w.extractLsb' 0 10 == 0#10) := by
  rw [Bool.eq_iff_iff]
  simp only [lowZero, fieldC, Bool.and_eq_true, beq_iff_eq, ← BitVec.toNat_inj,
    BitVec.extractLsb'_toNat, Nat.shiftRight_eq_div_pow, BitVec.toNat_ofNat]
  omega

/-- The low 18 bits are 0 exactly when the field b and the bits below it are. -/
theorem lowZero_18 (w : Word) : lowZero 18 w = (fieldB w == 0#4 && lowZero 14 w) := by
  rw [Bool.eq_iff_iff]
  simp only [lowZero, fieldB, Bool.and_eq_true, beq_iff_eq, ← BitVec.toNat_inj,
    BitVec.extractLsb'_toNat, Nat.shiftRight_eq_div_pow, BitVec.toNat_ofNat]
  omega

/-- The low 22 bits are 0 exactly when the field a and the bits below it are. -/
theorem lowZero_22 (w : Word) : lowZero 22 w = (fieldA w == 0#4 && lowZero 18 w) := by
  rw [Bool.eq_iff_iff]
  simp only [lowZero, fieldA, Bool.and_eq_true, beq_iff_eq, ← BitVec.toNat_inj,
    BitVec.extractLsb'_toNat, Nat.shiftRight_eq_div_pow, BitVec.toNat_ofNat]
  omega

/-- The low 26 bits are 0 exactly when the field d and the bits below it are. -/
theorem lowZero_26 (w : Word) : lowZero 26 w = (fieldD w == 0#4 && lowZero 22 w) := by
  rw [Bool.eq_iff_iff]
  simp only [lowZero, fieldD, Bool.and_eq_true, beq_iff_eq, ← BitVec.toNat_inj,
    BitVec.extractLsb'_toNat, Nat.shiftRight_eq_div_pow, BitVec.toNat_ofNat]
  omega

/-- Bit 3 of a P-typed field, as its row's mask tests it. -/
theorem pOk_iff : ∀ x : BitVec 4, x &&& 8#4 = 0#4 ↔ pOk x = true := by decide

end Sys2Proof
end

