-- ==== Sys2Proof/Laws/Decoding.lean ====
section
/-! SUPPORT. The decoder at each opcode, so that no proof unfolds the whole chain of tests
(30_encoding.md R113). -/

namespace Sys2Proof

/-! ### What a form that decodes has passed -/

theorem check_ok {ok : Bool} {e : Illegal} {r : Except Illegal Instr} {j : Instr}
    (h : check ok e r = .ok j) : ok = true ∧ r = .ok j := by
  rw [check] at h
  split at h
  case isTrue hok => exact ⟨hok, h⟩
  case isFalse => cases h

theorem decodeF_ok {n : Nat} {w : Word} {i j : Instr} (h : decodeF n w i = .ok j) :
    lowZero n w = true ∧ i = j := by
  obtain ⟨h1, h2⟩ := check_ok h
  exact ⟨h1, Except.ok.inj h2⟩

theorem decodeP_ok {n : Nat} {w : Word} {ps : List (BitVec 4)} {i j : Instr}
    (h : decodeP n w ps i = .ok j) : lowZero n w = true ∧ ps.all pOk = true ∧ i = j := by
  obtain ⟨h1, h2⟩ := check_ok h
  obtain ⟨h3, h4⟩ := check_ok h2
  exact ⟨h1, h3, Except.ok.inj h4⟩

theorem decodeB_ok {w : Word} {i j : Instr} (h : decodeB w i = .ok j) :
    lowZero 4 w = true ∧ bufRangeOk (fieldOff w) (fieldLen w) = true ∧ i = j := by
  obtain ⟨h1, h2⟩ := check_ok h
  obtain ⟨h3, h4⟩ := check_ok h2
  exact ⟨h1, h3, Except.ok.inj h4⟩

theorem decodeC_ok {w : Word} {j : Instr} (h : decodeC w = .ok j) :
    lowZero 18 w = true ∧ ∃ k, constOf (fieldA w) = some k ∧ j = .fldc (fReg (fieldD w)) k := by
  obtain ⟨h1, h2⟩ := check_ok h
  refine ⟨h1, ?_⟩
  split at h2
  case h_1 k hk => exact ⟨k, hk, (Except.ok.inj h2).symm⟩
  case h_2 => cases h2

/-! ### The opcodes -/

theorem decode_nop {w : Word} (h : opcodeOf w = 0x00#6) :
    decode w = decodeF 26 w .nop := by
  simp only [decode, h]; rfl

theorem decode_fmov {w : Word} (h : opcodeOf w = 0x01#6) :
    decode w = decodeF 18 w (.fmov (fReg (fieldD w)) (fReg (fieldA w))) := by
  simp only [decode, h]; rfl

theorem decode_fldi {w : Word} (h : opcodeOf w = 0x02#6) :
    decode w = .ok (.fldi (fReg (fieldD w)) (fieldImm w)) := by
  simp only [decode, h]; rfl

theorem decode_fadd {w : Word} (h : opcodeOf w = 0x03#6) :
    decode w = decodeF 14 w (.fadd (fReg (fieldD w)) (fReg (fieldA w)) (fReg (fieldB w))) := by
  simp only [decode, h]; rfl

theorem decode_fsub {w : Word} (h : opcodeOf w = 0x04#6) :
    decode w = decodeF 14 w (.fsub (fReg (fieldD w)) (fReg (fieldA w)) (fReg (fieldB w))) := by
  simp only [decode, h]; rfl

theorem decode_fmul {w : Word} (h : opcodeOf w = 0x05#6) :
    decode w = decodeF 14 w (.fmul (fReg (fieldD w)) (fReg (fieldA w)) (fReg (fieldB w))) := by
  simp only [decode, h]; rfl

theorem decode_fsqr {w : Word} (h : opcodeOf w = 0x06#6) :
    decode w = decodeF 18 w (.fsqr (fReg (fieldD w)) (fReg (fieldA w))) := by
  simp only [decode, h]; rfl

theorem decode_fneg {w : Word} (h : opcodeOf w = 0x07#6) :
    decode w = decodeF 18 w (.fneg (fReg (fieldD w)) (fReg (fieldA w))) := by
  simp only [decode, h]; rfl

theorem decode_finv {w : Word} (h : opcodeOf w = 0x08#6) :
    decode w = decodeF 18 w (.finv (fReg (fieldD w)) (fReg (fieldA w))) := by
  simp only [decode, h]; rfl

theorem decode_fpow {w : Word} (h : opcodeOf w = 0x09#6) :
    decode w = decodeF 14 w (.fpow (fReg (fieldD w)) (fReg (fieldA w)) (fReg (fieldB w))) := by
  simp only [decode, h]; rfl

theorem decode_fissq {w : Word} (h : opcodeOf w = 0x0A#6) :
    decode w = decodeF 18 w (.fissq (fReg (fieldD w)) (fReg (fieldA w))) := by
  simp only [decode, h]; rfl

theorem decode_fsqrt {w : Word} (h : opcodeOf w = 0x0B#6) :
    decode w = decodeF 18 w (.fsqrt (fReg (fieldD w)) (fReg (fieldA w))) := by
  simp only [decode, h]; rfl

theorem decode_fsgn {w : Word} (h : opcodeOf w = 0x0C#6) :
    decode w = decodeF 18 w (.fsgn (fReg (fieldD w)) (fReg (fieldA w))) := by
  simp only [decode, h]; rfl

theorem decode_feq {w : Word} (h : opcodeOf w = 0x0D#6) :
    decode w = decodeF 14 w (.feq (fReg (fieldD w)) (fReg (fieldA w)) (fReg (fieldB w))) := by
  simp only [decode, h]; rfl

theorem decode_fcsel {w : Word} (h : opcodeOf w = 0x0E#6) :
    decode w = decodeF 10 w
      (.fcsel (fReg (fieldD w)) (fReg (fieldA w)) (fReg (fieldB w)) (fReg (fieldC w))) := by
  simp only [decode, h]; rfl

theorem decode_fldc {w : Word} (h : opcodeOf w = 0x0F#6) :
    decode w = decodeC w := by
  simp only [decode, h]; rfl

theorem decode_fenc {w : Word} (h : opcodeOf w = 0x10#6) :
    decode w = decodeB w (.fenc (fReg (fieldD w)) (fieldOff w) (fieldLen w)) := by
  simp only [decode, h]; rfl

theorem decode_fdec {w : Word} (h : opcodeOf w = 0x11#6) :
    decode w = decodeB w (.fdec (fReg (fieldD w)) (fieldOff w) (fieldLen w)) := by
  simp only [decode, h]; rfl

theorem decode_padd {w : Word} (h : opcodeOf w = 0x20#6) :
    decode w = decodeP 14 w [fieldD w, fieldA w, fieldB w]
      (.padd (pReg (fieldD w)) (pReg (fieldA w)) (pReg (fieldB w))) := by
  simp only [decode, h]; rfl

theorem decode_pdbl {w : Word} (h : opcodeOf w = 0x21#6) :
    decode w = decodeP 18 w [fieldD w, fieldA w] (.pdbl (pReg (fieldD w)) (pReg (fieldA w))) := by
  simp only [decode, h]; rfl

theorem decode_pvalid {w : Word} (h : opcodeOf w = 0x22#6) :
    decode w = decodeP 18 w [fieldA w] (.pvalid (fReg (fieldD w)) (pReg (fieldA w))) := by
  simp only [decode, h]; rfl

theorem decode_pclr {w : Word} (h : opcodeOf w = 0x23#6) :
    decode w = decodeP 18 w [fieldD w, fieldA w] (.pclr (pReg (fieldD w)) (pReg (fieldA w))) := by
  simp only [decode, h]; rfl

theorem decode_pmul {w : Word} (h : opcodeOf w = 0x24#6) :
    decode w = decodeP 14 w [fieldD w, fieldA w]
      (.pmul (pReg (fieldD w)) (pReg (fieldA w)) (fReg (fieldB w))) := by
  simp only [decode, h]; rfl

theorem decode_pmk {w : Word} (h : opcodeOf w = 0x25#6) :
    decode w = decodeP 14 w [fieldD w]
      (.pmk (pReg (fieldD w)) (fReg (fieldA w)) (fReg (fieldB w))) := by
  simp only [decode, h]; rfl

theorem decode_px {w : Word} (h : opcodeOf w = 0x26#6) :
    decode w = decodeP 18 w [fieldA w] (.px (fReg (fieldD w)) (pReg (fieldA w))) := by
  simp only [decode, h]; rfl

theorem decode_py {w : Word} (h : opcodeOf w = 0x27#6) :
    decode w = decodeP 18 w [fieldA w] (.py (fReg (fieldD w)) (pReg (fieldA w))) := by
  simp only [decode, h]; rfl

theorem decode_pinf {w : Word} (h : opcodeOf w = 0x28#6) :
    decode w = decodeP 22 w [fieldD w] (.pinf (pReg (fieldD w))) := by
  simp only [decode, h]; rfl

theorem decode_pisinf {w : Word} (h : opcodeOf w = 0x29#6) :
    decode w = decodeP 18 w [fieldA w] (.pisinf (fReg (fieldD w)) (pReg (fieldA w))) := by
  simp only [decode, h]; rfl

theorem decode_pmov {w : Word} (h : opcodeOf w = 0x2A#6) :
    decode w = decodeP 18 w [fieldD w, fieldA w] (.pmov (pReg (fieldD w)) (pReg (fieldA w))) := by
  simp only [decode, h]; rfl

theorem decode_peq {w : Word} (h : opcodeOf w = 0x2B#6) :
    decode w = decodeP 14 w [fieldA w, fieldB w]
      (.peq (fReg (fieldD w)) (pReg (fieldA w)) (pReg (fieldB w))) := by
  simp only [decode, h]; rfl

theorem decode_h2b {w : Word} (h : opcodeOf w = 0x30#6) :
    decode w = decodeF 21 w (.h2b (fReg (fieldD w)) (fieldCtr w)) := by
  simp only [decode, h]; rfl

theorem decode_sswu {w : Word} (h : opcodeOf w = 0x31#6) :
    decode w = decodeP 18 w [fieldD w] (.sswu (pReg (fieldD w)) (fReg (fieldA w))) := by
  simp only [decode, h]; rfl

theorem decode_h2c {w : Word} (h : opcodeOf w = 0x32#6) :
    decode w = decodeP 22 w [fieldD w] (.h2c (pReg (fieldD w))) := by
  simp only [decode, h]; rfl

/-- Every other opcode is reserved (30_encoding.md R114). -/
theorem decode_reserved {w : Word}
    (h : (0x12#6 ≤ opcodeOf w ∧ opcodeOf w ≤ 0x1F#6) ∨ (0x2C#6 ≤ opcodeOf w ∧ opcodeOf w ≤ 0x2F#6) ∨
      0x33#6 ≤ opcodeOf w) : decode w = .error .reservedOpcode := by
  have hne : ∀ k : BitVec 6, (k ≤ 0x11#6 ∨ (0x20#6 ≤ k ∧ k ≤ 0x2B#6) ∨ (0x30#6 ≤ k ∧ k ≤ 0x32#6)) →
      ¬ opcodeOf w = k := by
    intro k hk he
    rw [he] at h
    clear he
    revert k
    decide
  simp only [decode]
  repeat rw [if_neg (hne _ (by decide))]

/-- An opcode is reserved or one of the 33 of the map (30_encoding.md R113). -/
theorem opcode_cases (k : BitVec 6) :
    ((0x12#6 ≤ k ∧ k ≤ 0x1F#6) ∨ (0x2C#6 ≤ k ∧ k ≤ 0x2F#6) ∨ 0x33#6 ≤ k) ∨
      k ∈ [0x00#6, 0x01#6, 0x02#6, 0x03#6, 0x04#6, 0x05#6, 0x06#6, 0x07#6, 0x08#6, 0x09#6, 0x0A#6,
        0x0B#6, 0x0C#6, 0x0D#6, 0x0E#6, 0x0F#6, 0x10#6, 0x11#6, 0x20#6, 0x21#6, 0x22#6, 0x23#6,
        0x24#6, 0x25#6, 0x26#6, 0x27#6, 0x28#6, 0x29#6, 0x2A#6, 0x2B#6, 0x30#6, 0x31#6, 0x32#6] := by
  revert k; decide

end Sys2Proof
end

