-- ==== Sys2Proof/Laws/Field.lean ====
section
/-! SUPPORT. The arithmetic unit's operations as operations of the field of p elements: reduction, powers,
inverse, square test and root. -/

namespace Sys2Proof.Machine

open Sys2Proof.Config

/-! ### Residues -/

/-- A remainder is 0 exactly when the number is 0 in the field. -/
theorem emod_eq_zero_iff {p : Nat} (x : Int) : x % (p : Int) = 0 ↔ (x : ZMod p) = 0 := by
  rw [ZMod.intCast_zmod_eq_zero_iff_dvd, Int.dvd_iff_emod_eq_zero]

/-- Residues are equal exactly when they are equal in the field. -/
theorem cast_inj_of_lt {p x y : Nat} (hx : x < p) (hy : y < p) :
    (x : ZMod p) = (y : ZMod p) ↔ x = y := by
  rw [ZMod.natCast_eq_natCast_iff, Nat.ModEq, Nat.mod_eq_of_lt hx, Nat.mod_eq_of_lt hy]

theorem cast_eq_zero_of_lt {p x : Nat} (hx : x < p) : (x : ZMod p) = 0 ↔ x = 0 := by
  simpa using cast_inj_of_lt hx (y := 0) (by omega)

theorem cast_modP {p : Nat} (hp : 0 < p) (x : Int) : ((modP p x : Nat) : ZMod p) = (x : ZMod p) := by
  rw [← Int.cast_natCast, modP_cast hp, ZMod.intCast_mod]

theorem cast_powMod {p : Nat} (hp : 0 < p) (x e : Nat) :
    ((powMod p x e : Nat) : ZMod p) = (x : ZMod p) ^ e := by
  rw [powMod_eq hp, ZMod.natCast_mod, Nat.cast_pow]

theorem cast_ofTruth {p : Nat} (t : Bool) :
    ((ofTruth t : Nat) : ZMod p) = if t then 1 else 0 := by cases t <;> simp [ofTruth]

section Prime

variable {p : Nat} (hp : p.Prime) (h2 : 2 < p)

/-! ### The inverse (40_field.md R139) -/

include hp h2 in
theorem cast_invP (x : Nat) : ((invP p x : Nat) : ZMod p) = (x : ZMod p)⁻¹ := by
  have := Fact.mk hp
  rw [invP, cast_powMod hp.pos, expInv]
  by_cases hx : (x : ZMod p) = 0
  · rw [hx, zero_pow (by omega), inv_zero]
  · refine eq_inv_of_mul_eq_one_left ?_
    rw [← pow_succ, show p - 2 + 1 = p - 1 by omega, ZMod.pow_card_sub_one_eq_one hx]

include hp h2 in
/-- inverseOrZero of a non-zero residue is its inverse (40_field.md R139). -/
theorem mul_invP {x : Nat} (hx : x % p ≠ 0) : x * invP p x % p = 1 := by
  have := Fact.mk hp
  have hne : (x : ZMod p) ≠ 0 := fun h =>
    hx (Nat.mod_eq_zero_of_dvd ((ZMod.natCast_eq_zero_iff _ _).mp h))
  refine (cast_inj_of_lt (Nat.mod_lt _ hp.pos) hp.one_lt).mp ?_
  rw [ZMod.natCast_mod, Nat.cast_mul, cast_invP hp h2, mul_inv_cancel₀ hne, Nat.cast_one]

include hp h2 in
/-- inverseOrZero of 0 is 0 (40_field.md R139). -/
theorem invP_zero : invP p 0 = 0 := by
  have := Fact.mk hp
  refine (cast_eq_zero_of_lt (invP_lt hp.pos 0)).mp ?_
  rw [cast_invP hp h2, Nat.cast_zero, inv_zero]

include hp in
/-- Fermat's little theorem on the unit's power. -/
theorem powMod_pred {x : Nat} (hx : x % p ≠ 0) : powMod p x (p - 1) = 1 := by
  have := Fact.mk hp
  have hne : (x : ZMod p) ≠ 0 := fun h =>
    hx (Nat.mod_eq_zero_of_dvd ((ZMod.natCast_eq_zero_iff _ _).mp h))
  refine (cast_inj_of_lt (powMod_lt hp.pos _ _) hp.one_lt).mp ?_
  rw [cast_powMod hp.pos, ZMod.pow_card_sub_one_eq_one hne, Nat.cast_one]

/-! ### Squares (00_scope.md R15; 40_field.md R141, R142) -/

include hp in
/-- A residue is a square of the field exactly when it is the remainder of a square number. -/
theorem isSquare_cast_iff {x : Nat} (hx : x < p) : IsSquare (x : ZMod p) ↔ ∃ r, r * r % p = x := by
  have := Fact.mk hp
  constructor
  · rintro ⟨r, hr⟩
    refine ⟨r.val, (cast_inj_of_lt (Nat.mod_lt _ hp.pos) hx).mp ?_⟩
    rw [ZMod.natCast_mod, Nat.cast_mul, ZMod.natCast_zmod_val, hr]
  · rintro ⟨r, rfl⟩
    exact ⟨(r : ZMod p), by rw [ZMod.natCast_mod, Nat.cast_mul]⟩

include hp h2 in
/-- Euler's criterion decides squares (00_scope.md R15). -/
theorem isSquare_iff (x : Nat) : isSquare p x = true ↔ IsSquare (x : ZMod p) := by
  have := Fact.mk hp
  have hodd := hp.mod_two_eq_one_iff_ne_two.mpr (by omega)
  have he : expSq p = p / 2 := by rw [expSq]; omega
  have hlt := powMod_lt hp.pos x (expSq p)
  rw [isSquare]
  simp only [Bool.or_eq_true, beq_iff_eq]
  rw [← cast_eq_zero_of_lt hlt, ← cast_inj_of_lt hlt hp.one_lt, cast_powMod hp.pos, he, Nat.cast_one]
  by_cases hx : (x : ZMod p) = 0
  · rw [hx]
    exact iff_of_true (.inl (zero_pow (by omega))) IsSquare.zero
  · rw [ZMod.euler_criterion p hx]
    exact or_iff_right (pow_ne_zero _ hx)

include hp in
/-- The product of two non-squares is a square. -/
theorem isSquare_mul_of_not {x y : ZMod p} (hx : ¬ IsSquare x) (hy : ¬ IsSquare y) :
    IsSquare (x * y) := by
  have := Fact.mk hp
  have key : ∀ {z : ZMod p}, ¬ IsSquare z → z ≠ 0 ∧ z ^ (p / 2) = -1 := fun {z} hz => by
    have h0 : z ≠ 0 := fun h => hz (h ▸ IsSquare.zero)
    refine ⟨h0, (ZMod.pow_div_two_eq_neg_one_or_one p h0).resolve_left fun h => ?_⟩
    exact hz ((ZMod.euler_criterion p h0).mpr h)
  rw [ZMod.euler_criterion p (mul_ne_zero (key hx).1 (key hy).1), mul_pow, (key hx).2, (key hy).2,
    neg_one_mul, neg_neg]

include hp in
/-- Where p is 3 modulo 4, -1 is no square. -/
theorem neg_one_not_isSquare (h4 : p % 4 = 3) : ¬ IsSquare (-1 : ZMod p) := by
  have := Fact.mk hp
  rw [ZMod.exists_sq_eq_neg_one_iff]
  omega

include hp in
/-- The square of the root is the operand or its negation, as the operand is a square or not
(40_field.md R142). -/
theorem cast_sqrtP_sq (h4 : p % 4 = 3) (x : Nat) :
    (IsSquare (x : ZMod p) → ((sqrtP p x : Nat) : ZMod p) ^ 2 = x) ∧
      (¬ IsSquare (x : ZMod p) → ((sqrtP p x : Nat) : ZMod p) ^ 2 = -(x : ZMod p)) := by
  have := Fact.mk hp
  have hs : ((sqrtP p x : Nat) : ZMod p) ^ 2 = (x : ZMod p) ^ (p / 2) * x := by
    rw [sqrtP, cast_powMod hp.pos, expSqrt, ← pow_mul, ← pow_succ]
    congr 1; omega
  by_cases hx : (x : ZMod p) = 0
  · rw [hs, hx]
    exact ⟨fun _ => by simp, fun h => absurd IsSquare.zero h⟩
  · constructor
    · intro h
      rw [hs, (ZMod.euler_criterion p hx).mp h, one_mul]
    · intro h
      rcases ZMod.pow_div_two_eq_neg_one_or_one p hx with h' | h'
      · exact absurd ((ZMod.euler_criterion p hx).mpr h') h
      · rw [hs, h', neg_one_mul]

include hp in
/-- The root of a square is itself a square (40_field.md R142). -/
theorem isSquare_sqrtP {x : Nat} (h : IsSquare (x : ZMod p)) :
    IsSquare ((sqrtP p x : Nat) : ZMod p) := by
  rw [sqrtP, cast_powMod hp.pos]
  exact h.pow _

end Prime

/-! ### The curve equation (10_state.md R53) -/

theorem onCurve_iff {E : Curve} (hp : 0 < E.p) (x y : Nat) : onCurve E x y = true ↔
    (y : ZMod E.p) ^ 2 = (x : ZMod E.p) ^ 3 + E.a * x + E.b := by
  rw [onCurve, beq_iff_eq, ← Int.natCast_eq_zero, modP_cast hp, emod_eq_zero_iff]
  push_cast
  exact sub_eq_zero

theorem cast_curveRhs {E : Curve} (hp : 0 < E.p) (x : Nat) :
    ((curveRhs E x : Nat) : ZMod E.p) = (x : ZMod E.p) ^ 3 + E.a * x + E.b := by
  rw [curveRhs, cast_modP hp]; push_cast; rfl

end Sys2Proof.Machine
end

