-- ==== Sys2Proof/Laws/Group.lean ====
section
/-! SUPPORT. The unit's group law is the group law of the curve: what padd and smul compute stands for the
sum and the multiple in Mathlib's group of points (41_point.md R171, R175). -/

namespace Sys2Proof.Machine

open Sys2Proof.Config

/-- The curve of an entry, over the field of p elements (10_state.md R43). -/
def curveOver (E : Curve) : WeierstrassCurve.Affine (ZMod E.p) := ⟨0, 0, 0, E.a, E.b⟩

/-- The group point stands for the point of the curve: the identity for the identity, and residues for the
coordinates. -/
def StandsFor (E : Curve) (P : GroupPoint) (Q : (curveOver E).Point) : Prop :=
  match P, Q with
  | .inf, .zero => True
  | .aff x y, .some X Y _ => x < E.p ∧ y < E.p ∧ (x : ZMod E.p) = X ∧ (y : ZMod E.p) = Y
  | _, _ => False

section Registry

variable {tags : Tags} {id : BitVec 4} {E : Curve}

/-- The discriminant of the entry's curve is not 0. -/
def DiscriminantNonzero (E : Curve) : Prop := (64 * E.a ^ 3 + 432 * E.b ^ 2) % E.p ≠ 0

/-- The discriminant of either curve is not 0. -/
theorem registry_discriminant (h : registry tags id = some E) : DiscriminantNonzero E :=
  registry_induction (P := DiscriminantNonzero)
    (fun _ => (by unfold DiscriminantNonzero; decide +kernel : DiscriminantNonzero p384))
    (fun _ => (by unfold DiscriminantNonzero; decide +kernel : DiscriminantNonzero p521)) h

theorem curveOver_discriminant (h : registry tags id = some E) : (curveOver E).Δ ≠ 0 := by
  intro h0
  refine registry_discriminant h (Nat.mod_eq_zero_of_dvd ((ZMod.natCast_eq_zero_iff _ _).mp ?_))
  have : (curveOver E).Δ = -(64 * (E.a : ZMod E.p) ^ 3 + 432 * (E.b : ZMod E.p) ^ 2) := by
    simp only [curveOver, WeierstrassCurve.Δ, WeierstrassCurve.b₂, WeierstrassCurve.b₄,
      WeierstrassCurve.b₆, WeierstrassCurve.b₈]
    ring
  rw [this, neg_eq_zero] at h0
  push_cast
  exact h0

/-- The coordinates on the curve are those of a point of the group. -/
theorem nonsingular_iff_onCurve (h : registry tags id = some E) (x y : Nat) :
    (curveOver E).Nonsingular (x : ZMod E.p) (y : ZMod E.p) ↔ onCurve E x y = true := by
  rw [← WeierstrassCurve.Affine.equation_iff_nonsingular_of_Δ_ne_zero (curveOver_discriminant h),
    onCurve_iff (registry_p_pos h), WeierstrassCurve.Affine.equation_iff]
  simp [curveOver]

theorem standsFor_inf : StandsFor E .inf 0 := trivial

/-- A point of the register file that is valid stands for one point of the group. -/
theorem standsFor_of_valid (h : registry tags id = some E) {q : Point} (hq : validPoint E q = true) :
    ∃ Q, StandsFor E q.toGroup Q := by
  rw [validPoint] at hq
  cases hi : q.inf with
  | true => exact ⟨0, by rw [Point.toGroup, hi]; trivial⟩
  | false =>
    rw [hi] at hq
    simp only [Bool.false_or, Bool.and_eq_true, decide_eq_true_eq] at hq
    obtain ⟨⟨hx, hy⟩, hc⟩ := hq
    exact ⟨.some _ _ ((nonsingular_iff_onCurve h _ _).mpr hc), by
      rw [Point.toGroup, hi]; exact ⟨hx, hy, rfl, rfl⟩⟩

/-- What stands for a point of the group is valid and canonical in register form. -/
theorem StandsFor.valid (h : registry tags id = some E) {P : GroupPoint} {Q : (curveOver E).Point}
    (hPQ : StandsFor E P Q) :
    validPoint E P.toPoint = true ∧ (P = .inf ∨ ∃ x y, P = .aff x y ∧ x < E.p ∧ y < E.p) ∧
      P.toPoint.toGroup = P := by
  have hlt := registry_p_lt h
  cases P with
  | inf => exact ⟨rfl, .inl rfl, rfl⟩
  | aff x y =>
    cases Q with
    | zero => exact hPQ.elim
    | some X Y hQ =>
      obtain ⟨hx, hy, rfl, rfl⟩ := hPQ
      have ex : (BitVec.ofNat 521 x).toNat = x := by
        rw [BitVec.toNat_ofNat, Nat.mod_eq_of_lt (by omega)]
      have ey : (BitVec.ofNat 521 y).toNat = y := by
        rw [BitVec.toNat_ofNat, Nat.mod_eq_of_lt (by omega)]
      refine ⟨?_, .inr ⟨x, y, rfl, hx, hy⟩, ?_⟩
      · simp only [GroupPoint.toPoint, validPoint, ex, ey, (nonsingular_iff_onCurve h x y).mp hQ, hx, hy]
        rfl
      · simp only [GroupPoint.toPoint, Point.toGroup, ex, ey]; rfl

/-- A group point stands for at most one point of the curve, and two that stand for one are equal. -/
theorem StandsFor.inj {P P' : GroupPoint} {Q : (curveOver E).Point} (h1 : StandsFor E P Q)
    (h2 : StandsFor E P' Q) : P = P' := by
  cases Q with
  | zero =>
    cases P with
    | aff => exact h1.elim
    | inf =>
      cases P' with
      | aff => exact h2.elim
      | inf => rfl
  | some X Y hQ =>
    cases P with
    | inf => exact h1.elim
    | aff x y =>
      cases P' with
      | inf => exact h2.elim
      | aff x' y' =>
        obtain ⟨hx, hy, rfl, rfl⟩ := h1
        obtain ⟨hx', hy', ex, ey⟩ := h2
        rw [(cast_inj_of_lt hx' hx).mp ex, (cast_inj_of_lt hy' hy).mp ey]

/-- Residues sum to 0 modulo p exactly when one is the negation of the other in the field. -/
theorem add_mod_eq_zero_iff {p x y : Nat} : (x + y) % p = 0 ↔ (x : ZMod p) = -(y : ZMod p) := by
  rw [← Nat.dvd_iff_mod_eq_zero, ← ZMod.natCast_eq_zero_iff, Nat.cast_add, eq_neg_iff_add_eq_zero]

/-- The third point of the right slope stands for the sum. -/
theorem thirdPoint_standsFor (h : registry tags id = some E) {x1 y1 x2 y2 lam : Nat}
    [Fact E.p.Prime]
    {h1 : (curveOver E).Nonsingular (x1 : ZMod E.p) (y1 : ZMod E.p)}
    {h2 : (curveOver E).Nonsingular (x2 : ZMod E.p) (y2 : ZMod E.p)}
    (hxy : ¬((x1 : ZMod E.p) = x2 ∧ (y1 : ZMod E.p) = (curveOver E).negY (x2 : ZMod E.p) (y2 : ZMod E.p)))
    (hl : (lam : ZMod E.p) =
      (curveOver E).slope (x1 : ZMod E.p) (x2 : ZMod E.p) (y1 : ZMod E.p) (y2 : ZMod E.p)) :
    StandsFor E (thirdPoint E lam x1 y1 x2)
      (WeierstrassCurve.Affine.Point.some _ _ h1 + WeierstrassCurve.Affine.Point.some _ _ h2) := by
  have hp := registry_p_pos h
  rw [WeierstrassCurve.Affine.Point.add_some hxy]
  have hX : ((modP E.p ((lam : Int) ^ 2 - x1 - x2) : Nat) : ZMod E.p) = (curveOver E).addX x1 x2
      ((curveOver E).slope (x1 : ZMod E.p) (x2 : ZMod E.p) (y1 : ZMod E.p) (y2 : ZMod E.p)) := by
    rw [cast_modP hp, ← hl]
    simp [WeierstrassCurve.Affine.addX, curveOver]
  refine ⟨modP_lt hp _, modP_lt hp _, hX, ?_⟩
  rw [cast_modP hp, ← hl] at *
  push_cast at *
  rw [cast_modP hp]
  push_cast
  simp [WeierstrassCurve.Affine.addX, WeierstrassCurve.Affine.addY, WeierstrassCurve.Affine.negAddY,
    WeierstrassCurve.Affine.negY, curveOver]
  ring

/-- The group law of the rule computes the sum of the group (41_point.md R171). -/
theorem padd_standsFor [Fact E.p.Prime] (h : registry tags id = some E) {P P' : GroupPoint}
    {Q Q' : (curveOver E).Point} (h1 : StandsFor E P Q) (h2 : StandsFor E P' Q') :
    StandsFor E (padd E P P') (Q + Q') := by
  have hp := registry_p_pos h
  have hP := registry_prime h
  have hp2 := registry_p_gt_two h
  cases P with
  | inf =>
    cases Q with
    | some => exact h1.elim
    | zero => rw [WeierstrassCurve.Affine.Point.zero_def.symm, zero_add]; exact h2
  | aff x1 y1 =>
    cases Q with
    | zero => exact h1.elim
    | some X Y n1 =>
      cases P' with
      | inf =>
        cases Q' with
        | some => exact h2.elim
        | zero => rw [WeierstrassCurve.Affine.Point.zero_def.symm, add_zero]; exact h1
      | aff x2 y2 =>
        cases Q' with
        | zero => exact h2.elim
        | some X' Y' n2 =>
          obtain ⟨hx1, hy1, rfl, rfl⟩ := h1
          obtain ⟨hx2, hy2, rfl, rfl⟩ := h2
          have hneg : (curveOver E).negY (x2 : ZMod E.p) (y2 : ZMod E.p) = -(y2 : ZMod E.p) := by
            simp [WeierstrassCurve.Affine.negY, curveOver]
          rw [padd]
          by_cases hc : x1 = x2 ∧ (y1 + y2) % E.p = 0
          · rw [if_pos hc, WeierstrassCurve.Affine.Point.add_of_Y_eq (by rw [hc.1])
              (by rw [hneg]; exact add_mod_eq_zero_iff.mp hc.2)]
            exact standsFor_inf
          · rw [if_neg hc]
            have hxy : ¬((x1 : ZMod E.p) = x2 ∧
                (y1 : ZMod E.p) = (curveOver E).negY (x2 : ZMod E.p) (y2 : ZMod E.p)) := fun hh =>
              hc ⟨(cast_inj_of_lt hx1 hx2).mp hh.1, add_mod_eq_zero_iff.mpr (by rw [← hneg]; exact hh.2)⟩
            by_cases hx : x1 = x2
            · subst hx
              rw [if_pos rfl]
              refine thirdPoint_standsFor h hxy ?_
              have hy : (y1 : ZMod E.p) ≠ (curveOver E).negY (x1 : ZMod E.p) (y2 : ZMod E.p) :=
                fun hh => hxy ⟨rfl, hh⟩
              have hyy : (y1 : ZMod E.p) = y2 :=
                (WeierstrassCurve.Affine.Y_eq_of_Y_ne n1.1 n2.1 rfl hy)
              rw [WeierstrassCurve.Affine.slope_of_Y_ne rfl hy, slopeDouble, cast_modP hp,
                div_eq_mul_inv]
              push_cast
              rw [cast_invP hP hp2, cast_modP hp]
              push_cast
              simp only [WeierstrassCurve.Affine.negY, curveOver]
              rw [show (y1 : ZMod E.p) - (-(y1 : ZMod E.p) - 0 * x1 - 0) = 2 * y1 by ring]
              ring
            · rw [if_neg hx]
              refine thirdPoint_standsFor h hxy ?_
              have hX : (x1 : ZMod E.p) ≠ x2 := fun hh => hx ((cast_inj_of_lt hx1 hx2).mp hh)
              rw [WeierstrassCurve.Affine.slope_of_X_ne hX, slopeChord, cast_modP hp,
                ← neg_sub (y2 : ZMod E.p), ← neg_sub (x2 : ZMod E.p), neg_div_neg_eq, div_eq_mul_inv]
              push_cast
              rw [cast_invP hP hp2, cast_modP hp]
              push_cast; rfl

/-- Double-and-add computes the multiple of the digits it reads (41_point.md R175). -/
theorem smulLoop_standsFor [Fact E.p.Prime] (h : registry tags id = some E) {P : GroupPoint}
    {Q : (curveOver E).Point} (hPQ : StandsFor E P Q) :
    ∀ fuel k, k < 2 ^ fuel → StandsFor E (smulLoop E P fuel k) (k • Q) := by
  intro fuel
  induction fuel with
  | zero =>
    intro k hk
    rw [show k = 0 by simpa using hk, zero_nsmul]
    exact standsFor_inf
  | succ n ih =>
    intro k hk
    rw [smulLoop]
    by_cases h0 : k = 0
    · rw [if_pos h0, h0, zero_nsmul]; exact standsFor_inf
    · rw [if_neg h0]
      have hh := ih (k / 2) (by rw [pow_succ] at hk; omega)
      have h2 := padd_standsFor h hh hh
      by_cases hodd : k % 2 = 1
      · have hk' : k • Q = (k / 2) • Q + (k / 2) • Q + Q := by
          rw [← add_nsmul, ← succ_nsmul]; congr 1; omega
        simp only [hodd, if_true]
        rw [hk']
        exact padd_standsFor h h2 hPQ
      · have hk' : k • Q = (k / 2) • Q + (k / 2) • Q := by
          rw [← add_nsmul]; congr 1; omega
        simp only [if_neg hodd]
        rw [hk']
        exact h2

/-- The scalar multiplication computes the multiple of the group (41_point.md R175). -/
theorem smul_standsFor [Fact E.p.Prime] (h : registry tags id = some E) {P : GroupPoint}
    {Q : (curveOver E).Point} (hPQ : StandsFor E P Q) (k : Nat) :
    StandsFor E (smul E k P) (k • Q) :=
  smulLoop_standsFor h hPQ _ k Nat.lt_log2_self

end Registry

end Sys2Proof.Machine
end

