-- ==== Sys2Proof/Laws/Map.lean ====
section
/-! SUPPORT. The Simplified SWU map: for every field element its image is the point of the curve that the
map determines (42_hash_to_curve.md R205 to R208). -/

namespace Sys2Proof.Machine

open Sys2Proof.Config

/-! ### What the entries' constants satisfy -/

section Registry

variable {tags : Tags} {id : BitVec 4} {E : Curve}

/-- A and B are not 0, and Z is no square. -/
theorem registry_map_constants (h : registry tags id = some E) :
    0 < E.a ∧ 0 < E.b ∧ isSquare E.p E.z = false :=
  registry_induction (P := fun E => 0 < E.a ∧ 0 < E.b ∧ isSquare E.p E.z = false)
    (fun _ => (by decide +kernel : 0 < p384.a ∧ 0 < p384.b ∧ isSquare p384.p p384.z = false))
    (fun _ => (by decide +kernel : 0 < p521.a ∧ 0 < p521.b ∧ isSquare p521.p p521.z = false)) h

/-- The right-hand side of the curve at the exceptional x1, the product of c1 and c2, is a square. -/
def ExceptionalSquare (E : Curve) : Prop :=
  isSquare E.p (curveRhs E (modP E.p ((curveC2 E : Int) * curveC1 E))) = true

/-- The exceptional x1 is the X of a point of the curve (42_hash_to_curve.md R206). -/
theorem registry_exceptional (h : registry tags id = some E) : ExceptionalSquare E :=
  registry_induction (P := ExceptionalSquare)
    (fun _ => (by unfold ExceptionalSquare; decide +kernel : ExceptionalSquare p384))
    (fun _ => (by unfold ExceptionalSquare; decide +kernel : ExceptionalSquare p521)) h

theorem registry_a_ne_zero (h : registry tags id = some E) : (E.a : ZMod E.p) ≠ 0 := fun h0 =>
  (registry_map_constants h).1.ne' ((cast_eq_zero_of_lt (registry_residues h).1).mp h0)

theorem registry_b_ne_zero (h : registry tags id = some E) : (E.b : ZMod E.p) ≠ 0 := fun h0 =>
  (registry_map_constants h).2.1.ne' ((cast_eq_zero_of_lt (registry_residues h).2.1).mp h0)

theorem registry_z_not_isSquare (h : registry tags id = some E) : ¬ IsSquare (E.z : ZMod E.p) := fun h0 => by
  have := (isSquare_iff (registry_prime h) (registry_p_gt_two h) E.z).mpr h0
  rw [(registry_map_constants h).2.2] at this
  cases this

theorem registry_z_ne_zero (h : registry tags id = some E) : (E.z : ZMod E.p) ≠ 0 := fun h0 =>
  registry_z_not_isSquare h (h0 ▸ IsSquare.zero)

/-- c1 is `-B/A` (10_state.md R46). -/
theorem cast_curveC1 (h : registry tags id = some E) :
    ((curveC1 E : Nat) : ZMod E.p) = -(E.b : ZMod E.p) * (E.a : ZMod E.p)⁻¹ := by
  rw [curveC1, cast_modP (registry_p_pos h)]
  push_cast
  rw [cast_invP (registry_prime h) (registry_p_gt_two h)]

/-- c2 is `-1/Z` (10_state.md R46). -/
theorem cast_curveC2 (h : registry tags id = some E) :
    ((curveC2 E : Nat) : ZMod E.p) = -(E.z : ZMod E.p)⁻¹ := by
  rw [curveC2, cast_modP (registry_p_pos h)]
  push_cast
  rw [cast_invP (registry_prime h) (registry_p_gt_two h)]

theorem sswuX1_lt (h : registry tags id = some E) (t1 : Nat) : sswuX1 E t1 < E.p :=
  modP_lt (registry_p_pos h) _

/-- The exceptional case: where `t1 + t1^2` is 0, x1 is `c2*c1` (42_hash_to_curve.md R206). -/
theorem sswuX1_exceptional (h : registry tags id = some E) {t1 : Nat}
    (ht : (t1 : ZMod E.p) + (t1 : ZMod E.p) ^ 2 = 0) :
    sswuX1 E t1 = modP E.p ((curveC2 E : Int) * curveC1 E) := by
  have := Fact.mk (registry_prime h)
  have h0 : invP E.p (t1 + modP E.p ((t1 : Int) ^ 2)) = 0 := by
    refine (cast_eq_zero_of_lt (invP_lt (registry_p_pos h) _)).mp ?_
    rw [cast_invP (registry_prime h) (registry_p_gt_two h), Nat.cast_add, cast_modP (registry_p_pos h)]
    push_cast
    rw [ht, inv_zero]
  simp only [sswuX1, h0, beq_self_eq_true, ofTruth, if_true]
  rw [cmov_one (b := curveC2 E) (modP_lt (registry_p_pos h) _)]

/-- The normal case: where `t1 + t1^2` is not 0, x1 is `-B/A * (1 + 1/(t1 + t1^2))`
(42_hash_to_curve.md R206). -/
theorem cast_sswuX1_normal (h : registry tags id = some E) {t1 : Nat}
    (ht : (t1 : ZMod E.p) + (t1 : ZMod E.p) ^ 2 ≠ 0) : ((sswuX1 E t1 : Nat) : ZMod E.p) =
      (((t1 : ZMod E.p) + (t1 : ZMod E.p) ^ 2)⁻¹ + 1) * (-(E.b : ZMod E.p) * (E.a : ZMod E.p)⁻¹) := by
  have := Fact.mk (registry_prime h)
  have hp := registry_p_pos h
  have hc : ((invP E.p (t1 + modP E.p ((t1 : Int) ^ 2)) : Nat) : ZMod E.p) =
      ((t1 : ZMod E.p) + (t1 : ZMod E.p) ^ 2)⁻¹ := by
    rw [cast_invP (registry_prime h) (registry_p_gt_two h), Nat.cast_add, cast_modP hp]
    push_cast; rfl
  have h0 : (invP E.p (t1 + modP E.p ((t1 : Int) ^ 2)) == 0) = false := by
    rw [beq_eq_false_iff_ne]
    intro h0
    rw [h0, Nat.cast_zero] at hc
    exact inv_ne_zero ht hc.symm
  simp only [sswuX1, h0]
  rw [show ofTruth false = 0 from rfl, cmov_zero (modP_lt hp _), cast_modP hp, Int.cast_mul,
    Int.cast_natCast, Int.cast_natCast, cast_modP hp, cast_curveC1 h]
  push_cast
  rw [hc]

/-- The x1 of the map solves its equation (42_hash_to_curve.md R206, R207). -/
theorem sswuX1_equation (h : registry tags id = some E) (t1 : Nat) :
    let t := (t1 : ZMod E.p) + (t1 : ZMod E.p) ^ 2
    (t = 0 → ((sswuX1 E t1 : Nat) : ZMod E.p) * (E.z * E.a) = E.b) ∧
      (t ≠ 0 → ((sswuX1 E t1 : Nat) : ZMod E.p) * (E.a * t) + E.b * (1 + t) = 0) := by
  have := Fact.mk (registry_prime h)
  have ha := registry_a_ne_zero h
  have hz := registry_z_ne_zero h
  constructor
  · intro ht
    rw [sswuX1_exceptional h ht, cast_modP (registry_p_pos h), Int.cast_mul, Int.cast_natCast,
      Int.cast_natCast, cast_curveC1 h, cast_curveC2 h]
    field_simp
  · intro ht
    rw [cast_sswuX1_normal h ht]
    generalize (t1 : ZMod E.p) + (t1 : ZMod E.p) ^ 2 = t at ht ⊢
    field_simp
    ring

/-- The second candidate: where the case is not exceptional, `g(t1*x1) = t1^3 * g(x1)`
(42_hash_to_curve.md R205). -/
theorem second_candidate (h : registry tags id = some E) {t1 : Nat}
    (ht : (t1 : ZMod E.p) + (t1 : ZMod E.p) ^ 2 ≠ 0) :
    let x1 := ((sswuX1 E t1 : Nat) : ZMod E.p)
    ((t1 : ZMod E.p) * x1) ^ 3 + E.a * ((t1 : ZMod E.p) * x1) + E.b =
      (t1 : ZMod E.p) ^ 3 * (x1 ^ 3 + E.a * x1 + E.b) := by
  have := Fact.mk (registry_prime h)
  have ha := registry_a_ne_zero h
  have ht1 : (t1 : ZMod E.p) ≠ 0 := fun h0 => ht (by rw [h0]; ring)
  have ht2 : 1 + (t1 : ZMod E.p) ≠ 0 := fun h0 => ht (by linear_combination (t1 : ZMod E.p) * h0)
  intro x1
  have hx : x1 * (E.a * ((t1 : ZMod E.p) + (t1 : ZMod E.p) ^ 2)) +
      E.b * (1 + ((t1 : ZMod E.p) + (t1 : ZMod E.p) ^ 2)) = 0 := (sswuX1_equation h t1).2 ht
  linear_combination (1 - (t1 : ZMod E.p)) * hx

/-- The value that is a square: of `g(x1)`, not a square, and `t1^3 * g(x1)`, the second is one. -/
theorem second_is_square (h : registry tags id = some E) {u t1 : Nat} {g : ZMod E.p}
    (ht1 : (t1 : ZMod E.p) = E.z * (u : ZMod E.p) ^ 2) (hg : ¬ IsSquare g) :
    IsSquare ((t1 : ZMod E.p) ^ 3 * g) := by
  have := Fact.mk (registry_prime h)
  obtain ⟨r, hr⟩ := isSquare_mul_of_not (registry_prime h) (registry_z_not_isSquare h) hg
  exact ⟨E.z * (u : ZMod E.p) ^ 3 * r, by
    rw [ht1]; linear_combination (E.z : ZMod E.p) ^ 2 * (u : ZMod E.p) ^ 6 * hr⟩

/-- The scaled square of the argument, line 1 of the map (42_hash_to_curve.md R205). -/
theorem cast_t1 (h : registry tags id = some E) (u : Nat) :
    ((modP E.p ((E.z : Int) * (u : Int) ^ 2) : Nat) : ZMod E.p) = E.z * (u : ZMod E.p) ^ 2 := by
  rw [cast_modP (registry_p_pos h)]; push_cast; rfl

/-- In the exceptional case `g(x1)` is a square. -/
theorem exceptional_is_square (h : registry tags id = some E) {t1 : Nat}
    (ht : (t1 : ZMod E.p) + (t1 : ZMod E.p) ^ 2 = 0) :
    isSquare E.p (curveRhs E (sswuX1 E t1)) = true := by
  rw [sswuX1_exceptional h ht]; exact registry_exceptional h

/-- The sign of a residue is one of two (00_scope.md R14). -/
theorem sgn_eq_iff (p u y : Nat) : sgn p u = sgn p y ↔ ((p - 1) / 2 < u ↔ (p - 1) / 2 < y) := by
  unfold sgn
  by_cases h1 : (p - 1) / 2 < u <;> by_cases h2 : (p - 1) / 2 < y <;> simp [h1, h2]

/-- What the map computes from `u`, with `x1` of lines 1 to 7: the point is on the curve, its Y has the
sign of `u` unless it is 0, and its X is `x1` or `t1*x1` as `g(x1)` is a square or not
(42_hash_to_curve.md R205 to R208). -/
theorem sswuMap_spec (h : registry tags id = some E) (u : Nat) :
    let t1 := modP E.p ((E.z : Int) * (u : Int) ^ 2)
    let x1 := sswuX1 E t1
    let q := sswuMap E u
    q.1 < E.p ∧ q.2 < E.p ∧ onCurve E q.1 q.2 = true ∧
      (q.2 = 0 ∨ ((E.p - 1) / 2 < q.2 ↔ (E.p - 1) / 2 < u)) ∧
      (isSquare E.p (curveRhs E x1) = true → q.1 = x1) ∧
      (isSquare E.p (curveRhs E x1) = false → q.1 = t1 * x1 % E.p) := by
  have hP := registry_prime h
  have := Fact.mk hP
  have hp := hP.pos
  have h4 := registry_p_mod_four h
  have h2 := registry_p_gt_two h
  intro t1 x1 q
  have ht1 : (t1 : ZMod E.p) = E.z * (u : ZMod E.p) ^ 2 := cast_t1 h u
  have hx1 : x1 < E.p := sswuX1_lt h t1
  -- the two candidates as they are blended
  have hx : q.1 = if isSquare E.p (curveRhs E x1) then x1 else modP E.p ((t1 : Int) * x1) :=
    cmov_ofTruth (modP_lt hp _) hx1 _
  obtain ⟨y2, hy2, hq2⟩ : ∃ y2, y2 = cmov E.p (modP E.p ((curveRhs E x1 : Int) * (t1 : Int) ^ 3))
      (curveRhs E x1) (ofTruth (isSquare E.p (curveRhs E x1))) ∧
      q.2 = cmov E.p (modP E.p ((E.p : Int) - sqrtP E.p y2)) (sqrtP E.p y2)
        (ofTruth (decide (sgn E.p u = sgn E.p (sqrtP E.p y2)))) := ⟨_, rfl, rfl⟩
  rw [cmov_ofTruth (b := curveRhs E x1) (modP_lt hp _) (modP_lt hp _)] at hy2
  rw [cmov_ofTruth (modP_lt hp _) (sqrtP_lt hp _)] at hq2
  -- the selected value is a square, and it is the right-hand side of the selected X
  have hsq : IsSquare (y2 : ZMod E.p) ∧
      (y2 : ZMod E.p) = (q.1 : ZMod E.p) ^ 3 + E.a * (q.1 : ZMod E.p) + E.b := by
    cases hs : isSquare E.p (curveRhs E x1) with
    | true =>
      rw [hs, if_pos rfl] at hx hy2
      rw [hx, hy2]
      exact ⟨(isSquare_iff hP h2 _).mp hs, cast_curveRhs hp _⟩
    | false =>
      rw [hs, if_neg (by decide)] at hx hy2
      have hns : ¬ IsSquare ((curveRhs E x1 : Nat) : ZMod E.p) := fun hh => by
        rw [(isSquare_iff hP h2 _).mpr hh] at hs; cases hs
      have ht : (t1 : ZMod E.p) + (t1 : ZMod E.p) ^ 2 ≠ 0 := fun h0 => by
        rw [exceptional_is_square h h0] at hs; cases hs
      have hc : (y2 : ZMod E.p) = (t1 : ZMod E.p) ^ 3 * ((curveRhs E x1 : Nat) : ZMod E.p) := by
        rw [hy2, cast_modP hp]; push_cast; ring
      refine ⟨hc ▸ second_is_square h ht1 hns, ?_⟩
      have hm : ((modP E.p ((t1 : Int) * x1) : Nat) : ZMod E.p) = (t1 : ZMod E.p) * (x1 : Nat) := by
        rw [cast_modP hp, Int.cast_mul, Int.cast_natCast, Int.cast_natCast]
      rw [hc, cast_curveRhs hp, ← second_candidate h ht, hx, hm]
  have hroot : ((sqrtP E.p y2 : Nat) : ZMod E.p) ^ 2 = y2 := (cast_sqrtP_sq hP h4 y2).1 hsq.1
  have hrlt : sqrtP E.p y2 < E.p := sqrtP_lt hp _
  have hneg : modP E.p ((E.p : Int) - sqrtP E.p y2) =
      if sqrtP E.p y2 = 0 then 0 else E.p - sqrtP E.p y2 := by
    split
    · rename_i h0; rw [h0]; simp [modP]
    · rw [modP, Int.emod_eq_of_lt] <;> omega
  refine ⟨?_, ?_, ?_, ?_, fun hs => by rw [hx, if_pos hs], fun hs => ?_⟩
  · rw [hx]; split
    · exact hx1
    · exact modP_lt hp _
  · rw [hq2]; split
    · exact hrlt
    · exact modP_lt hp _
  · rw [onCurve_iff hp, ← hsq.2, ← hroot, hq2]
    split
    · rfl
    · rw [cast_modP hp]; push_cast; simp
  · rw [hq2]
    by_cases hd : sgn E.p u = sgn E.p (sqrtP E.p y2)
    · rw [if_pos (by simpa using hd)]
      exact .inr ((sgn_eq_iff _ _ _).mp hd).symm
    · rw [if_neg (by simpa using hd), hneg]
      rw [sgn_eq_iff] at hd
      split
      · exact .inl rfl
      · right
        by_cases h1 : (E.p - 1) / 2 < u <;> by_cases h3 : (E.p - 1) / 2 < sqrtP E.p y2 <;>
          simp only [h1, h3, iff_true, iff_false, not_true, not_false_eq_true] at hd ⊢ <;> omega
  · rw [hx, hs, if_neg (by decide), ← Nat.cast_mul, modP_natCast]

end Registry

end Sys2Proof.Machine
end

