-- ==== Sys2Proof/Laws/PerInstr.lean ====
section
/-! SUPPORT. What holds of every instruction as syntax, one lemma per constructor: its word has the fixed
bits of its row of the opcode map (30_encoding.md R113). -/

namespace Sys2Proof

/-! ### Masks of the formats -/

theorem formR_and (op op' : BitVec 6) (d d' a a' b b' c c' : BitVec 4) (z : BitVec 10) :
    formR op d a b c &&& (op' ++ d' ++ a' ++ b' ++ c' ++ z) =
      formR (op &&& op') (d &&& d') (a &&& a') (b &&& b') (c &&& c') := by
  show (op ++ d ++ a ++ b ++ c ++ 0#10 : BitVec (6 + 4 + 4 + 4 + 4 + 10)) &&&
    (op' ++ d' ++ a' ++ b' ++ c' ++ z : BitVec (6 + 4 + 4 + 4 + 4 + 10)) = _
  simp only [BitVec.and_append, BitVec.zero_and]; rfl

theorem formI_and (op op' : BitVec 6) (d d' : BitVec 4) (imm imm' : BitVec 22) :
    formI op d imm &&& (op' ++ d' ++ imm') = formI (op &&& op') (d &&& d') (imm &&& imm') := by
  show (op ++ d ++ imm : BitVec (6 + 4 + 22)) &&&
    (op' ++ d' ++ imm' : BitVec (6 + 4 + 22)) = _
  simp only [BitVec.and_append]; rfl

theorem formC_and (op op' : BitVec 6) (d d' sel sel' : BitVec 4) (z : BitVec 18) :
    formC op d sel &&& (op' ++ d' ++ sel' ++ z) = formC (op &&& op') (d &&& d') (sel &&& sel') := by
  show (op ++ d ++ sel ++ 0#18 : BitVec (6 + 4 + 4 + 18)) &&&
    (op' ++ d' ++ sel' ++ z : BitVec (6 + 4 + 4 + 18)) = _
  simp only [BitVec.and_append, BitVec.zero_and]; rfl

theorem formB_and (op op' : BitVec 6) (r r' : BitVec 4) (off off' : BitVec 10) (len len' : BitVec 8)
    (z : BitVec 4) : formB op r off len &&& (op' ++ r' ++ off' ++ len' ++ z) =
      formB (op &&& op') (r &&& r') (off &&& off') (len &&& len') := by
  show (op ++ r ++ off ++ len ++ 0#4 : BitVec (6 + 4 + 10 + 8 + 4)) &&&
    (op' ++ r' ++ off' ++ len' ++ z : BitVec (6 + 4 + 10 + 8 + 4)) = _
  simp only [BitVec.and_append, BitVec.zero_and]; rfl

theorem formH_and (op op' : BitVec 6) (d d' : BitVec 4) (ctr ctr' : BitVec 1) (z : BitVec 21) :
    formH op d ctr &&& (op' ++ d' ++ ctr' ++ z) = formH (op &&& op') (d &&& d') (ctr &&& ctr') := by
  show (op ++ d ++ ctr ++ 0#21 : BitVec (6 + 4 + 1 + 21)) &&&
    (op' ++ d' ++ ctr' ++ z : BitVec (6 + 4 + 1 + 21)) = _
  simp only [BitVec.and_append, BitVec.zero_and]; rfl

/-- Bit 3 of a P-typed field is 0. -/
theorem pBits_and : ∀ r : PReg, pBits r &&& 8#4 = 0#4 := by decide

namespace Laws.OpcodeMap

/-- The instruction's word has the fixed bits of the row that bears its mnemonic
(30_encoding.md R113). -/
def Statement (i : Instr) : Prop :=
  ∃ r ∈ opcodeMap, r.mnemonic = i.mnemonic ∧ r.fits (encode i) = true

theorem nop : Statement .nop :=
  ⟨⟨"NOP", 0x00000000#32, 0xFFFFFFFF#32⟩, by decide, rfl, by decide⟩

theorem fmov (d a : FReg) : Statement (.fmov d a) :=
  ⟨⟨"FMOV", 0x04000000#32, 0xFC03FFFF#32⟩, by decide, rfl, by
    rw [OpcodeRow.fits, encode, show 0xFC03FFFF#32 =
      0x3F#6 ++ 0x0#4 ++ 0x0#4 ++ 0xF#4 ++ 0xF#4 ++ 0x3FF#10 from rfl, formR_and]
    simp
    rfl⟩

theorem fldi (d : FReg) (imm : BitVec 22) : Statement (.fldi d imm) :=
  ⟨⟨"FLDI", 0x08000000#32, 0xFC000000#32⟩, by decide, rfl, by
    rw [OpcodeRow.fits, encode, show 0xFC000000#32 =
      0x3F#6 ++ 0x0#4 ++ 0x0#22 from rfl, formI_and]
    simp
    rfl⟩

theorem fadd (d a b : FReg) : Statement (.fadd d a b) :=
  ⟨⟨"FADD", 0x0C000000#32, 0xFC003FFF#32⟩, by decide, rfl, by
    rw [OpcodeRow.fits, encode, show 0xFC003FFF#32 =
      0x3F#6 ++ 0x0#4 ++ 0x0#4 ++ 0x0#4 ++ 0xF#4 ++ 0x3FF#10 from rfl, formR_and]
    simp
    rfl⟩

theorem fsub (d a b : FReg) : Statement (.fsub d a b) :=
  ⟨⟨"FSUB", 0x10000000#32, 0xFC003FFF#32⟩, by decide, rfl, by
    rw [OpcodeRow.fits, encode, show 0xFC003FFF#32 =
      0x3F#6 ++ 0x0#4 ++ 0x0#4 ++ 0x0#4 ++ 0xF#4 ++ 0x3FF#10 from rfl, formR_and]
    simp
    rfl⟩

theorem fmul (d a b : FReg) : Statement (.fmul d a b) :=
  ⟨⟨"FMUL", 0x14000000#32, 0xFC003FFF#32⟩, by decide, rfl, by
    rw [OpcodeRow.fits, encode, show 0xFC003FFF#32 =
      0x3F#6 ++ 0x0#4 ++ 0x0#4 ++ 0x0#4 ++ 0xF#4 ++ 0x3FF#10 from rfl, formR_and]
    simp
    rfl⟩

theorem fsqr (d a : FReg) : Statement (.fsqr d a) :=
  ⟨⟨"FSQR", 0x18000000#32, 0xFC03FFFF#32⟩, by decide, rfl, by
    rw [OpcodeRow.fits, encode, show 0xFC03FFFF#32 =
      0x3F#6 ++ 0x0#4 ++ 0x0#4 ++ 0xF#4 ++ 0xF#4 ++ 0x3FF#10 from rfl, formR_and]
    simp
    rfl⟩

theorem fneg (d a : FReg) : Statement (.fneg d a) :=
  ⟨⟨"FNEG", 0x1C000000#32, 0xFC03FFFF#32⟩, by decide, rfl, by
    rw [OpcodeRow.fits, encode, show 0xFC03FFFF#32 =
      0x3F#6 ++ 0x0#4 ++ 0x0#4 ++ 0xF#4 ++ 0xF#4 ++ 0x3FF#10 from rfl, formR_and]
    simp
    rfl⟩

theorem finv (d a : FReg) : Statement (.finv d a) :=
  ⟨⟨"FINV", 0x20000000#32, 0xFC03FFFF#32⟩, by decide, rfl, by
    rw [OpcodeRow.fits, encode, show 0xFC03FFFF#32 =
      0x3F#6 ++ 0x0#4 ++ 0x0#4 ++ 0xF#4 ++ 0xF#4 ++ 0x3FF#10 from rfl, formR_and]
    simp
    rfl⟩

theorem fpow (d a b : FReg) : Statement (.fpow d a b) :=
  ⟨⟨"FPOW", 0x24000000#32, 0xFC003FFF#32⟩, by decide, rfl, by
    rw [OpcodeRow.fits, encode, show 0xFC003FFF#32 =
      0x3F#6 ++ 0x0#4 ++ 0x0#4 ++ 0x0#4 ++ 0xF#4 ++ 0x3FF#10 from rfl, formR_and]
    simp
    rfl⟩

theorem fissq (d a : FReg) : Statement (.fissq d a) :=
  ⟨⟨"FISSQ", 0x28000000#32, 0xFC03FFFF#32⟩, by decide, rfl, by
    rw [OpcodeRow.fits, encode, show 0xFC03FFFF#32 =
      0x3F#6 ++ 0x0#4 ++ 0x0#4 ++ 0xF#4 ++ 0xF#4 ++ 0x3FF#10 from rfl, formR_and]
    simp
    rfl⟩

theorem fsqrt (d a : FReg) : Statement (.fsqrt d a) :=
  ⟨⟨"FSQRT", 0x2C000000#32, 0xFC03FFFF#32⟩, by decide, rfl, by
    rw [OpcodeRow.fits, encode, show 0xFC03FFFF#32 =
      0x3F#6 ++ 0x0#4 ++ 0x0#4 ++ 0xF#4 ++ 0xF#4 ++ 0x3FF#10 from rfl, formR_and]
    simp
    rfl⟩

theorem fsgn (d a : FReg) : Statement (.fsgn d a) :=
  ⟨⟨"FSGN", 0x30000000#32, 0xFC03FFFF#32⟩, by decide, rfl, by
    rw [OpcodeRow.fits, encode, show 0xFC03FFFF#32 =
      0x3F#6 ++ 0x0#4 ++ 0x0#4 ++ 0xF#4 ++ 0xF#4 ++ 0x3FF#10 from rfl, formR_and]
    simp
    rfl⟩

theorem feq (d a b : FReg) : Statement (.feq d a b) :=
  ⟨⟨"FEQ", 0x34000000#32, 0xFC003FFF#32⟩, by decide, rfl, by
    rw [OpcodeRow.fits, encode, show 0xFC003FFF#32 =
      0x3F#6 ++ 0x0#4 ++ 0x0#4 ++ 0x0#4 ++ 0xF#4 ++ 0x3FF#10 from rfl, formR_and]
    simp
    rfl⟩

theorem fcsel (d a b c : FReg) : Statement (.fcsel d a b c) :=
  ⟨⟨"FCSEL", 0x38000000#32, 0xFC0003FF#32⟩, by decide, rfl, by
    rw [OpcodeRow.fits, encode, show 0xFC0003FF#32 =
      0x3F#6 ++ 0x0#4 ++ 0x0#4 ++ 0x0#4 ++ 0x0#4 ++ 0x3FF#10 from rfl, formR_and]
    simp
    rfl⟩

theorem fldc (d : FReg) (sel : CurveConst) : Statement (.fldc d sel) :=
  ⟨⟨"FLDC", 0x3C000000#32, 0xFC03FFFF#32⟩, by decide, rfl, by
    rw [OpcodeRow.fits, encode, show 0xFC03FFFF#32 =
      0x3F#6 ++ 0x0#4 ++ 0x0#4 ++ 0x3FFFF#18 from rfl, formC_and]
    simp
    rfl⟩

theorem fenc (r : FReg) (off : BitVec 10) (len : BitVec 8) : Statement (.fenc r off len) :=
  ⟨⟨"FENC", 0x40000000#32, 0xFC00000F#32⟩, by decide, rfl, by
    rw [OpcodeRow.fits, encode, show 0xFC00000F#32 =
      0x3F#6 ++ 0x0#4 ++ 0x0#10 ++ 0x0#8 ++ 0xF#4 from rfl, formB_and]
    simp
    rfl⟩

theorem fdec (r : FReg) (off : BitVec 10) (len : BitVec 8) : Statement (.fdec r off len) :=
  ⟨⟨"FDEC", 0x44000000#32, 0xFC00000F#32⟩, by decide, rfl, by
    rw [OpcodeRow.fits, encode, show 0xFC00000F#32 =
      0x3F#6 ++ 0x0#4 ++ 0x0#10 ++ 0x0#8 ++ 0xF#4 from rfl, formB_and]
    simp
    rfl⟩

theorem padd (d a b : PReg) : Statement (.padd d a b) :=
  ⟨⟨"PADD", 0x80000000#32, 0xFE223FFF#32⟩, by decide, rfl, by
    rw [OpcodeRow.fits, encode, show 0xFE223FFF#32 =
      0x3F#6 ++ 0x8#4 ++ 0x8#4 ++ 0x8#4 ++ 0xF#4 ++ 0x3FF#10 from rfl, formR_and]
    simp [pBits_and]
    rfl⟩

theorem pdbl (d a : PReg) : Statement (.pdbl d a) :=
  ⟨⟨"PDBL", 0x84000000#32, 0xFE23FFFF#32⟩, by decide, rfl, by
    rw [OpcodeRow.fits, encode, show 0xFE23FFFF#32 =
      0x3F#6 ++ 0x8#4 ++ 0x8#4 ++ 0xF#4 ++ 0xF#4 ++ 0x3FF#10 from rfl, formR_and]
    simp [pBits_and]
    rfl⟩

theorem pvalid (d : FReg) (a : PReg) : Statement (.pvalid d a) :=
  ⟨⟨"PVALID", 0x88000000#32, 0xFC23FFFF#32⟩, by decide, rfl, by
    rw [OpcodeRow.fits, encode, show 0xFC23FFFF#32 =
      0x3F#6 ++ 0x0#4 ++ 0x8#4 ++ 0xF#4 ++ 0xF#4 ++ 0x3FF#10 from rfl, formR_and]
    simp [pBits_and]
    rfl⟩

theorem pclr (d a : PReg) : Statement (.pclr d a) :=
  ⟨⟨"PCLR", 0x8C000000#32, 0xFE23FFFF#32⟩, by decide, rfl, by
    rw [OpcodeRow.fits, encode, show 0xFE23FFFF#32 =
      0x3F#6 ++ 0x8#4 ++ 0x8#4 ++ 0xF#4 ++ 0xF#4 ++ 0x3FF#10 from rfl, formR_and]
    simp [pBits_and]
    rfl⟩

theorem pmul (d a : PReg) (b : FReg) : Statement (.pmul d a b) :=
  ⟨⟨"PMUL", 0x90000000#32, 0xFE203FFF#32⟩, by decide, rfl, by
    rw [OpcodeRow.fits, encode, show 0xFE203FFF#32 =
      0x3F#6 ++ 0x8#4 ++ 0x8#4 ++ 0x0#4 ++ 0xF#4 ++ 0x3FF#10 from rfl, formR_and]
    simp [pBits_and]
    rfl⟩

theorem pmk (d : PReg) (a b : FReg) : Statement (.pmk d a b) :=
  ⟨⟨"PMK", 0x94000000#32, 0xFE003FFF#32⟩, by decide, rfl, by
    rw [OpcodeRow.fits, encode, show 0xFE003FFF#32 =
      0x3F#6 ++ 0x8#4 ++ 0x0#4 ++ 0x0#4 ++ 0xF#4 ++ 0x3FF#10 from rfl, formR_and]
    simp [pBits_and]
    rfl⟩

theorem px (d : FReg) (a : PReg) : Statement (.px d a) :=
  ⟨⟨"PX", 0x98000000#32, 0xFC23FFFF#32⟩, by decide, rfl, by
    rw [OpcodeRow.fits, encode, show 0xFC23FFFF#32 =
      0x3F#6 ++ 0x0#4 ++ 0x8#4 ++ 0xF#4 ++ 0xF#4 ++ 0x3FF#10 from rfl, formR_and]
    simp [pBits_and]
    rfl⟩

theorem py (d : FReg) (a : PReg) : Statement (.py d a) :=
  ⟨⟨"PY", 0x9C000000#32, 0xFC23FFFF#32⟩, by decide, rfl, by
    rw [OpcodeRow.fits, encode, show 0xFC23FFFF#32 =
      0x3F#6 ++ 0x0#4 ++ 0x8#4 ++ 0xF#4 ++ 0xF#4 ++ 0x3FF#10 from rfl, formR_and]
    simp [pBits_and]
    rfl⟩

theorem pinf (d : PReg) : Statement (.pinf d) :=
  ⟨⟨"PINF", 0xA0000000#32, 0xFE3FFFFF#32⟩, by decide, rfl, by
    rw [OpcodeRow.fits, encode, show 0xFE3FFFFF#32 =
      0x3F#6 ++ 0x8#4 ++ 0xF#4 ++ 0xF#4 ++ 0xF#4 ++ 0x3FF#10 from rfl, formR_and]
    simp [pBits_and]
    rfl⟩

theorem pisinf (d : FReg) (a : PReg) : Statement (.pisinf d a) :=
  ⟨⟨"PISINF", 0xA4000000#32, 0xFC23FFFF#32⟩, by decide, rfl, by
    rw [OpcodeRow.fits, encode, show 0xFC23FFFF#32 =
      0x3F#6 ++ 0x0#4 ++ 0x8#4 ++ 0xF#4 ++ 0xF#4 ++ 0x3FF#10 from rfl, formR_and]
    simp [pBits_and]
    rfl⟩

theorem pmov (d a : PReg) : Statement (.pmov d a) :=
  ⟨⟨"PMOV", 0xA8000000#32, 0xFE23FFFF#32⟩, by decide, rfl, by
    rw [OpcodeRow.fits, encode, show 0xFE23FFFF#32 =
      0x3F#6 ++ 0x8#4 ++ 0x8#4 ++ 0xF#4 ++ 0xF#4 ++ 0x3FF#10 from rfl, formR_and]
    simp [pBits_and]
    rfl⟩

theorem peq (d : FReg) (a b : PReg) : Statement (.peq d a b) :=
  ⟨⟨"PEQ", 0xAC000000#32, 0xFC223FFF#32⟩, by decide, rfl, by
    rw [OpcodeRow.fits, encode, show 0xFC223FFF#32 =
      0x3F#6 ++ 0x0#4 ++ 0x8#4 ++ 0x8#4 ++ 0xF#4 ++ 0x3FF#10 from rfl, formR_and]
    simp [pBits_and]
    rfl⟩

theorem h2b (d : FReg) (ctr : BitVec 1) : Statement (.h2b d ctr) :=
  ⟨⟨"H2B", 0xC0000000#32, 0xFC1FFFFF#32⟩, by decide, rfl, by
    rw [OpcodeRow.fits, encode, show 0xFC1FFFFF#32 =
      0x3F#6 ++ 0x0#4 ++ 0x0#1 ++ 0x1FFFFF#21 from rfl, formH_and]
    simp
    rfl⟩

theorem sswu (d : PReg) (a : FReg) : Statement (.sswu d a) :=
  ⟨⟨"SSWU", 0xC4000000#32, 0xFE03FFFF#32⟩, by decide, rfl, by
    rw [OpcodeRow.fits, encode, show 0xFE03FFFF#32 =
      0x3F#6 ++ 0x8#4 ++ 0x0#4 ++ 0xF#4 ++ 0xF#4 ++ 0x3FF#10 from rfl, formR_and]
    simp [pBits_and]
    rfl⟩

theorem h2c (d : PReg) : Statement (.h2c d) :=
  ⟨⟨"H2C", 0xC8000000#32, 0xFE3FFFFF#32⟩, by decide, rfl, by
    rw [OpcodeRow.fits, encode, show 0xFE3FFFFF#32 =
      0x3F#6 ++ 0x8#4 ++ 0xF#4 ++ 0xF#4 ++ 0xF#4 ++ 0x3FF#10 from rfl, formR_and]
    simp [pBits_and]
    rfl⟩

end Laws.OpcodeMap

end Sys2Proof
end

