-- ==== Sys2Proof/Tests/Slice0.lean ====
section
/-! SUPPORT. The model's own tests: the well-formedness smoke, the decoding of a word written out for
every constructor, one small run per instruction with its result taken from the spec, and a witness for
the hypotheses of every statement that has any. -/

namespace Sys2Proof.Tests

open Sys2Proof.Machine Sys2Proof.Config Sys2Proof.Claims

/-! ## Helpers -/

/-- A small state: the curve, some field registers, some point registers, the first bytes of BUF and
MSGLEN, with a command in flight. -/
def start (curve : BitVec 4) (fs : List (FReg × Nat)) (ps : List (PReg × Point)) (bytes : List Byte)
    (len : BitVec 11) : State :=
  { State.reset with
    f := fs.foldl (fun v x => v.set x.1 (BitVec.ofNat 521 x.2)) State.reset.f
    p := ps.foldl (fun v x => v.set x.1 x.2) State.reset.p
    buf := Memory.writeBytes [] 0 bytes
    curveSel := curve
    msglen := len
    inflight := some ⟨0x12345678#32, 0, 1⟩
    status := ⟨true, false, false, false⟩ }

/-- The field register a successful command leaves. -/
def fieldAfter (d : FReg) : Host.Outcome State Fault Refusal → Option Nat
  | .next t => if t.status.err then none else some t.f[d].toNat
  | _ => none

/-- The point register a successful command leaves. -/
def pointAfter (d : PReg) : Host.Outcome State Fault Refusal → Option Point
  | .next t => if t.status.err then none else some t.p[d]
  | _ => none

/-- The code and detail a failing command leaves. -/
def errorAfter : Host.Outcome State Fault Refusal → Option (Nat × Nat)
  | .next t => if t.status.err then some (t.errcode.toNat, t.errinfo.toNat) else none
  | _ => none

/-- CMDCNT and STATUS as read after a command. -/
def countAfter : Host.Outcome State Fault Refusal → Option (Nat × Nat)
  | .next t => some (t.cmdcnt.toNat, t.status.toWord.toNat)
  | _ => none

/-- BUF after a successful command. -/
def bufferAfter : Host.Outcome State Fault Refusal → Option Memory
  | .next t => if t.status.err then none else some t.buf
  | _ => none

/-- The base point of P-384 (10_state.md R44). -/
def gen384 : Point := affine p384.gx p384.gy

/-- A point that is on neither curve (41_point.md R174). -/
def offCurve : Point := affine 1 1

/-! ## Well-formedness: each check refuses an ill-formed term -/

theorem test_wf_fenc_refused : Instr.wellFormed (.fenc 0 1023#10 2#8) = false := by decide
theorem test_wf_fdec_refused : Instr.wellFormed (.fdec 0 1000#10 25#8) = false := by decide
theorem test_wf_fenc_accepted : Instr.wellFormed (.fenc 0 1023#10 1#8) = true := by decide

/-! ## Decoding: words written out from 30_encoding.md R101 to R113, one per constructor -/

/-- `op d a b c` of format R, bit by bit: 000011 0001 0010 0011 0000 0000000000 is FADD f1, f2, f3. -/
theorem test_decode_fadd_bits :
    decode 0b00001100010010001100000000000000#32 = .ok (.fadd 1 2 3) := by decide

theorem test_decode_field_words :
    decode 0x00000000#32 = .ok .nop ∧ decode 0x04480000#32 = .ok (.fmov 1 2) ∧
    decode 0x083FFFF4#32 = .ok (.fldi 0 0x3FFFF4#22) ∧ decode 0x0C48C000#32 = .ok (.fadd 1 2 3) ∧
    decode 0x1048C000#32 = .ok (.fsub 1 2 3) ∧ decode 0x1448C000#32 = .ok (.fmul 1 2 3) ∧
    decode 0x18480000#32 = .ok (.fsqr 1 2) ∧ decode 0x1C480000#32 = .ok (.fneg 1 2) ∧
    decode 0x20480000#32 = .ok (.finv 1 2) := by decide

theorem test_decode_field_words_more :
    decode 0x2448C000#32 = .ok (.fpow 1 2 3) ∧ decode 0x28480000#32 = .ok (.fissq 1 2) ∧
    decode 0x2C480000#32 = .ok (.fsqrt 1 2) ∧ decode 0x31440000#32 = .ok (.fsgn 5 1) ∧
    decode 0x35040000#32 = .ok (.feq 4 1 0) ∧ decode 0x39048C00#32 = .ok (.fcsel 4 1 2 3) ∧
    decode 0x3C900000#32 = .ok (.fldc 2 .c2) ∧ decode 0x40C00480#32 = .ok (.fenc 3 0#10 72#8) ∧
    decode 0x44400020#32 = .ok (.fdec 1 0#10 2#8) := by decide

theorem test_decode_point_words :
    decode 0x80804000#32 = .ok (.padd 2 0 1) ∧ decode 0x84400000#32 = .ok (.pdbl 1 0) ∧
    decode 0x88400000#32 = .ok (.pvalid 1 0) ∧ decode 0x8C400000#32 = .ok (.pclr 1 0) ∧
    decode 0x90408000#32 = .ok (.pmul 1 0 2) ∧ decode 0x94048000#32 = .ok (.pmk 0 1 2) ∧
    decode 0x98400000#32 = .ok (.px 1 0) ∧ decode 0x9C800000#32 = .ok (.py 2 0) ∧
    decode 0xA0C00000#32 = .ok (.pinf 3) ∧ decode 0xA44C0000#32 = .ok (.pisinf 1 3) ∧
    decode 0xA8400000#32 = .ok (.pmov 1 0) ∧ decode 0xAC404000#32 = .ok (.peq 1 0 1) := by decide

theorem test_decode_hash_words :
    decode 0xC0400000#32 = .ok (.h2b 1 0#1) ∧ decode 0xC0600000#32 = .ok (.h2b 1 1#1) ∧
    decode 0xC4040000#32 = .ok (.sswu 0 1) ∧ decode 0xC8C00000#32 = .ok (.h2c 3) := by decide

/-- The first failing check names the word (30_encoding.md R114). -/
theorem test_decode_illegal :
    decode 0x48000001#32 = .error .reservedOpcode ∧ decode 0x00000001#32 = .error .mustBeZero ∧
    decode 0x82000001#32 = .error .mustBeZero ∧ decode 0x82000000#32 = .error .pointIndex ∧
    decode 0x3C240000#32 = .error .constSelector ∧ decode 0x403FF020#32 = .error .bufferRange := by
  decide

theorem test_decode_table_word :
    decodeTableWord 32 0x0C48C000 = some (.fadd 1 2 3) ∧ decodeTableWord 32 0x48000000 = none := by
  decide

/-! ## One run per instruction, in groups: results from the rules' own examples and corner cases -/

/-- The moves and the ring commands:
- 40_field.md R131: with CURVE_SEL = 7, NOP completes and CMDCNT goes from 0 to 1.
- 40_field.md R132: F2 = p + 5 copies as 5.
- 40_field.md R133: the immediate 0x200000 gives p - 2097152.
- 40_field.md R134: (p - 1) + 2 = 1.
- 40_field.md R135: 0 - 1 = p - 1.
- 40_field.md R136: 2 * (p+1)/2 = 1, on P-521.
- 40_field.md R137: (p - 3)^2 = 9.
- 40_field.md R138: -0 = 0, with the destination the source.
- 40_field.md R139: FINV(2) = (p+1)/2. -/
theorem test_ring_results :
    countAfter (exec .nop (start 7 [] [] [] 0)) = some (1, 2) ∧
    fieldAfter 1 (exec (.fmov 1 2) (start 0 [(2, p384.p + 5)] [] [] 0)) = some 5 ∧
    fieldAfter 0 (exec (.fldi 0 0x200000#22) (start 0 [] [] [] 0)) = some (p384.p - 2097152) ∧
    fieldAfter 1 (exec (.fadd 1 2 3) (start 0 [(2, p384.p - 1), (3, 2)] [] [] 0)) = some 1 ∧
    fieldAfter 1 (exec (.fsub 1 2 3) (start 0 [(3, 1)] [] [] 0)) = some (p384.p - 1) ∧
    fieldAfter 1 (exec (.fmul 1 2 3) (start 1 [(2, 2), (3, (p521.p + 1) / 2)] [] [] 0)) = some 1 ∧
    fieldAfter 1 (exec (.fsqr 1 2) (start 0 [(2, p384.p - 3)] [] [] 0)) = some 9 ∧
    fieldAfter 2 (exec (.fneg 2 2) (start 0 [(2, 0)] [] [] 0)) = some 0 ∧
    fieldAfter 1 (exec (.finv 1 2) (start 0 [(2, 2)] [] [] 0)) = some 0x7FFFFFFFFFFFFFFFFFFFFFFFFFFFFFFFFFFFFFFFFFFFFFFFFFFFFFFFFFFFFFFF7FFFFFFF800000000000000080000000 := by
  decide +kernel

/-- The other field commands:
- 40_field.md R140: 0^0 = 1.
- 40_field.md R141: FISSQ(3) = 1 on P-384 and 0 on P-521.
- 40_field.md R142: FSQRT(9) = 3 on P-384 and p - 3 on P-521.
- 40_field.md R145: the split is at (p-1)/2.
- 40_field.md R144: F1 = p and F0 = 0 compare equal.
- 40_field.md R147: c = 1 selects B, and c = 2 gives 2B - A.
- 40_field.md R148: c2 of P-521 is 2^519.
- 40_field.md R149: F3 = 0x0102 encodes as 01 02.
- 40_field.md R149: 256 does not fit in one byte.
- 40_field.md R150: 01 00 decodes to 256. -/
theorem test_field_results :
    fieldAfter 1 (exec (.fpow 1 2 3) (start 0 [] [] [] 0)) = some 1 ∧
    (fieldAfter 1 (exec (.fissq 1 2) (start 0 [(2, 3)] [] [] 0)) = some 1 ∧
    fieldAfter 1 (exec (.fissq 1 2) (start 1 [(2, 3)] [] [] 0)) = some 0) ∧
    (fieldAfter 1 (exec (.fsqrt 1 2) (start 0 [(2, 9)] [] [] 0)) = some 3 ∧
    fieldAfter 1 (exec (.fsqrt 1 2) (start 1 [(2, 9)] [] [] 0)) = some (p521.p - 3)) ∧
    (fieldAfter 5 (exec (.fsgn 5 1) (start 0 [(1, (p384.p - 1) / 2)] [] [] 0)) = some 1 ∧
    fieldAfter 5 (exec (.fsgn 5 1) (start 0 [(1, (p384.p + 1) / 2)] [] [] 0)) = some (p384.p - 1)) ∧
    fieldAfter 4 (exec (.feq 4 1 0) (start 0 [(1, p384.p)] [] [] 0)) = some 1 ∧
    (fieldAfter 4 (exec (.fcsel 4 1 2 3) (start 0 [(1, 10), (2, 20), (3, 1)] [] [] 0)) = some 20 ∧
    fieldAfter 4 (exec (.fcsel 4 1 2 3) (start 0 [(1, 10), (2, 20), (3, 2)] [] [] 0)) = some 30) ∧
    fieldAfter 2 (exec (.fldc 2 .c2) (start 1 [] [] [] 0)) = some (2 ^ 519) ∧
    bufferAfter (exec (.fenc 3 0#10 2#8) (start 0 [(3, 0x0102)] [] [] 0)) = some [(0, 0x01#8), (1, 0x02#8)] ∧
    errorAfter (exec (.fenc 3 0#10 1#8) (start 0 [(3, 256)] [] [] 0)) = some (2, 7) ∧
    fieldAfter 1 (exec (.fdec 1 0#10 2#8) (start 0 [] [] [0x01#8, 0x00#8] 0)) = some 256 := by
  decide +kernel

/-- 2G on P-384 (41_point.md R172). -/
def double384 : Point := affine
  0x08D999057BA3D2D969260045C55B97F089025959A6F434D651D207D19FB96E9E4FE0E86EBE0E64F85B96A9C75295DF61
  0x8E80F1FA5B1B3CEDB7BFE8DFFD6DBA74B275D875BC6CC43E904E505F256AB4255FFD43E94D39E22D61501E700A940E80

/-- The point commands:
- 41_point.md R172: G + G = 2G.
- 41_point.md R172: the second operand is checked after the first.
- 41_point.md R173: PDBL of G is 2G, with the destination the source.
- 41_point.md R174: G is valid and (1, 1, 0) is not.
- 41_point.md R176: (5, 7, 1) becomes (0, 0, 1).
- 41_point.md R177: 2 times G is 2G.
- 41_point.md R178: PMK of Gx and Gy is G.
- 41_point.md R179: X of a host-written identity, reduced.
- 41_point.md R180: PY of G is Gy.
- 41_point.md R181.
- 41_point.md R182: (0, 0, 0) gives 0 and the identity 1.
- 41_point.md R183: (5, 7, 1) copies as itself.
- 41_point.md R184: G and -G differ. -/
theorem test_point_results :
    pointAfter 2 (exec (.padd 2 0 1) (start 0 [] [(0, gen384), (1, gen384)] [] 0)) = some double384 ∧
    errorAfter (exec (.padd 2 0 1) (start 0 [] [(0, gen384), (1, offCurve)] [] 0)) = some (4, 2) ∧
    pointAfter 0 (exec (.pdbl 0 0) (start 0 [] [(0, gen384)] [] 0)) = some double384 ∧
    (fieldAfter 1 (exec (.pvalid 1 0) (start 0 [] [(0, gen384)] [] 0)) = some 1 ∧
    fieldAfter 1 (exec (.pvalid 1 0) (start 0 [] [(0, offCurve)] [] 0)) = some 0) ∧
    pointAfter 1 (exec (.pclr 1 0) (start 0 [] [(0, ⟨5#521, 7#521, true⟩)] [] 0)) = some identity ∧
    pointAfter 1 (exec (.pmul 1 0 2) (start 0 [(2, 2)] [(0, gen384)] [] 0)) = some double384 ∧
    pointAfter 0 (exec (.pmk 0 1 2) (start 0 [(1, p384.gx), (2, p384.gy)] [] [] 0)) = some gen384 ∧
    fieldAfter 1 (exec (.px 1 0) (start 0 [] [(0, ⟨BitVec.ofNat 521 (p384.p + 5), 0#521, true⟩)] [] 0)) = some 5 ∧
    fieldAfter 2 (exec (.py 2 0) (start 0 [] [(0, gen384)] [] 0)) = some (p384.gy) ∧
    pointAfter 3 (exec (.pinf 3) (start 0 [] [] [] 0)) = some identity ∧
    (fieldAfter 1 (exec (.pisinf 1 3) (start 0 [] [] [] 0)) = some 0 ∧
    fieldAfter 1 (exec (.pisinf 1 3) (start 0 [] [(3, identity)] [] 0)) = some 1) ∧
    pointAfter 1 (exec (.pmov 1 0) (start 0 [] [(0, ⟨5#521, 7#521, true⟩)] [] 0)) = some (⟨5#521, 7#521, true⟩) ∧
    fieldAfter 1 (exec (.peq 1 0 1) (start 0 [] [(0, gen384), (1, affine p384.gx (p384.p - p384.gy))] [] 0)) = some 0 := by
  decide +kernel

/-- The hash-to-curve commands and the step:
- 42_hash_to_curve.md R200: MSGLEN above 1024.
- 42_hash_to_curve.md R209: the exceptional element 0 on P-384.
- 42_hash_to_curve.md R210: MSGLEN = 2047.
- 30_encoding.md R119: FLDI f0, -12 placed as the first command after reset runs. -/
theorem test_mapper_and_step_results :
    errorAfter (exec (.h2b 1 0#1) (start 0 [] [] [] 1025)) = some (2, 6) ∧
    pointAfter 0 (exec (.sswu 0 1) (start 0 [] [] [] 0)) = some (affine
      0x533324E11B9E311BAEE780268D718F799600D2914E2E41CEB8F97203FB1CFCA5C58265272E814CEF084AD3CE05E30131
      0x0BF600B6070ED397168C364B85C7A53E32644C636590B388EC8A685253A9E72D4F41D9290E65F865553840F71C95AB9C) ∧
    errorAfter (exec (.h2c 3) (start 0 [] [] [] 2047)) = some (2, 6) ∧
    fieldAfter 0 (step (State.reset.withFetchWord 32 0x083FFFF4)) = some (p384.p - 12) := by
  decide +kernel

/-! ## The step -/

/-- A STATUS write clears ERR and leaves DONE (10_state.md R35). -/
theorem test_status_write_clears :
    (State.writeStatus { State.reset with status := ⟨false, true, true, false⟩ } 0x4#32).status =
      ⟨false, true, false, false⟩ := by decide

/-! ## Witnesses: states and operands that meet the hypotheses of the statements -/

/-- A command in flight under CURVE_SEL = 2. -/
def noCurve : State := start 2 [] [] [] 0

/-- An idle state on P-521 with a written byte of BUF. -/
def idle : State :=
  { State.reset with curveSel := 1, buf := [(5, 0xAA#8)], status := ⟨false, true, false, true⟩ }

/-- A busy state. -/
def busyState : State := start 0 [(1, 7)] [] [0x11#8] 4

/-- The word address of CMD. -/
def cmdAddr : WordAddr := wordAt 0x0018

/-- The values behind the witnesses, evaluated together. -/
theorem test_operand_facts :
    (operand p384 (start 0 [(3, 1)] [] [] 0) 3 = 1 ∧ operand p384 (start 0 [] [] [] 0) 3 = 0) ∧
    (operand p384 (start 0 [] [] [] 0) 1 = 0 ∧
    operand p384 (start 0 [(1, p384.p - 1)] [] [] 0) 1 ≠ 0) ∧
    (operand p384 (start 0 [(1, 3)] [] [] 0) 2 = 0 ∧
    operand p384 (start 0 [(1, 3), (2, p384.p - 1)] [] [] 0) 2 = p384.p - 1 ∧
    operand p384 (start 0 [(1, 3), (2, p384.p - 1)] [] [] 0) 1 ≠ 0) ∧
    (operand p521 (start 1 [(3, p521.p)] [] [] 0) 3 = 0 ∧
    operand p521 (start 1 [(3, 1)] [] [] 0) 3 = 1) ∧
    ((lenValue 1#8 + offValue 1023#10 ≤ 1024 ∧ offValue 1023#10 + lenValue 1#8 ≤ 1024) ∧
    1024 < lenValue 2#8 + offValue 1023#10 ∧
    operand p384 (start 0 [(3, 255)] [] [] 0) 3 < 2 ^ (8 * lenValue 1#8) ∧
    2 ^ (8 * lenValue 1#8) ≤ operand p384 (start 0 [(3, 256)] [] [] 0) 3 ∧
    Memory.wf (start 0 [(3, 255)] [] [] 0).buf = true ∧
    (start 0 [(3, 256)] [] [] 0).inflight = some ⟨0x12345678#32, 0, 1⟩) ∧
    ((start 0 [] [] [] 1024).msglen.toNat ≤ 1024 ∧ (start 0 [] [] [] 0).msglen.toNat ≤ 1024 ∧
    1024 < (start 0 [] [] [] 1025).msglen.toNat ∧ 1024 < (start 0 [] [] [] 2047).msglen.toNat ∧
    (start 0 [] [] [] 1025).inflight = some ⟨0x12345678#32, 0, 1⟩) ∧
    (registry idle.tags idle.curveSel =
      registry ({ idle with cmdcnt := 5, sched := [.cycle] } : State).tags
        ({ idle with cmdcnt := 5, sched := [.cycle] } : State).curveSel ∧
    idle.f = ({ idle with cmdcnt := 5, sched := [.cycle] } : State).f ∧
    idle.p = ({ idle with cmdcnt := 5, sched := [.cycle] } : State).p ∧
    idle.buf = ({ idle with cmdcnt := 5, sched := [.cycle] } : State).buf ∧
    idle.msglen = ({ idle with cmdcnt := 5, sched := [.cycle] } : State).msglen ∧
    idle ≠ { idle with cmdcnt := 5, sched := [.cycle] }) ∧
    (operand p384 (start 0 [(1, p384.p - 1)] [] [] 0) 1 = p384.p - 1 ∧
      2 * 2 % p384.p = operand p384 (start 0 [(1, 4)] [] [] 0) 1 ∧
      operand p384 (start 0 [(1, p384.z)] [] [] 0) 1 = p384.z ∧
      p384.p % 4 = 3) := by
  decide +kernel

/-- Both entries are selected by some state, and no entry by another with a command in flight: the
hypotheses of `WritesField`, `WritesPoint` and `NeedsCurve` wherever a statement uses them. -/
theorem test_witness_curves :
    registry (start 0 [] [] [] 0).tags (start 0 [] [] [] 0).curveSel = some p384 ∧
    registry (start 1 [] [] [] 0).tags (start 1 [] [] [] 0).curveSel = some p521 ∧
    registry noCurve.tags noCurve.curveSel = none ∧
    registry (start 15 [] [] [] 0).tags (start 15 [] [] [] 0).curveSel = none ∧
    noCurve.inflight = some ⟨0x12345678#32, 0, 1⟩ := ⟨rfl, rfl, rfl, rfl, rfl⟩

/-- The tags are the unit's (42_hash_to_curve.md R202): a unit with other tags hashes with them, and a
draw of its own registry entry takes its tag. -/
theorem test_other_tags :
    registry ({ noCurve with curveSel := 1, tags := ⟨[], [0x41#8]⟩ } : State).tags 1#4 =
      some { p521 with dst := [0x41#8] } ∧
    fieldAfter 1 (exec (.h2b 1 0#1)
      { start 0 [] [] [] 0 with tags := ⟨[0x41#8], []⟩ }) =
      some (draw { p384 with dst := [0x41#8] } [] 0#8) := ⟨rfl, by decide +kernel⟩

/-- DecodeOfEncode: well-formed instructions at the ends of the buffer range. -/
theorem test_witness_DecodeOfEncode :
    Instr.wellFormed (.fdec 15 1023#10 1#8) = true ∧ Instr.wellFormed (.fenc 0 0#10 255#8) = true := by
  decide

/-- EncodeOfDecode: a word that decodes. -/
theorem test_witness_EncodeOfDecode : decode 0xC8C00000#32 = .ok (.h2c 3) := by decide

/-- OpcodeMapIsExact: a row and a word that fits it, and one that fits it but for the extra
constraint. -/
theorem test_witness_OpcodeMapIsExact :
    (⟨"FLDC", 0x3C000000#32, 0xFC03FFFF#32⟩ : OpcodeRow) ∈ opcodeMap ∧
    (0x3C900000#32 &&& 0xFC03FFFF#32 = 0x3C000000#32 ∧ extraConstraint 0x3C900000#32 = true) ∧
    (0x3C240000#32 &&& 0xFC03FFFF#32 = 0x3C000000#32 ∧ extraConstraint 0x3C240000#32 = false) := by
  decide

/-- IllegalChecksInOrder: a word for each check, at the ends of the reserved ranges and of the
bounds. -/
theorem test_witness_IllegalChecksInOrder :
    ((opcodeOf 0x48000000#32).toNat = 0x12 ∧ (opcodeOf 0x7C000000#32).toNat = 0x1F ∧
      (opcodeOf 0xB0000000#32).toNat = 0x2C ∧ (opcodeOf 0xBC000000#32).toNat = 0x2F ∧
      (opcodeOf 0xCC000000#32).toNat = 0x33 ∧ (opcodeOf 0xFC000000#32).toNat = 0x3F) ∧
    ((opcodeOf 0x0C000001#32).toNat = 0x03 ∧ 0x0C000001#32 &&& 0x00003FFF#32 ≠ 0#32) ∧
    ((opcodeOf 0x82000000#32).toNat = 0x20 ∧ 0x82000000#32 &&& 0x00003FFF#32 = 0#32 ∧
      0x82000000#32 &&& 0x02220000#32 ≠ 0#32) ∧
    ((opcodeOf 0x3C240000#32).toNat = 0x0F ∧ 0x3C240000#32 &&& 0x0003FFFF#32 = 0#32 ∧
      (fieldA 0x3C240000#32).toNat = 9) ∧
    ((opcodeOf 0x403FF020#32).toNat = 0x10 ∧ 0x403FF020#32 &&& 0x0000000F#32 = 0#32 ∧
      (fieldOff 0x403FF020#32).toNat + (fieldLen 0x403FF020#32).toNat = 1025) ∧
    (opcodeOf 0x443FF020#32).toNat = 0x11 := by decide

/-- PseudoInstructions: selectors 1 and 0. -/
theorem test_witness_PseudoInstructions :
    operand p384 (start 0 [(3, 1)] [] [] 0) 3 = 1 ∧ operand p384 (start 0 [] [] [] 0) 3 = 0 :=
  test_operand_facts.1

/-- NopOnlyCompletes: a word of opcode 0 that is not NOP's, and reserved opcodes. -/
theorem test_witness_NopOnlyCompletes :
    opcodeOf 0x02000000#32 = 0#6 ∧ 0x02000000#32 ≠ 0#32 ∧
    (opcodeOf 0xFC000000#32).toNat ∈ List.range' 0x33 13 := by decide

/-- MovesAndImmediates: the ends of the immediate's range. -/
theorem test_witness_MovesAndImmediates :
    (-2097152 ≤ (-2097152 : Int) ∧ (-2097152 : Int) ≤ 2097151) ∧
    (-2097152 ≤ (2097151 : Int) ∧ (2097151 : Int) ≤ 2097151) := by decide

/-- FinvInverts: operands 0 and p - 1. -/
theorem test_witness_FinvInverts :
    operand p384 (start 0 [] [] [] 0) 1 = 0 ∧
    operand p384 (start 0 [(1, p384.p - 1)] [] [] 0) 1 ≠ 0 :=
  test_operand_facts.2.1

/-- FpowRaises: exponents 0 and p - 1, the second over a base that is not 0. -/
theorem test_witness_FpowRaises :
    operand p384 (start 0 [(1, 3)] [] [] 0) 2 = 0 ∧
    operand p384 (start 0 [(1, 3), (2, p384.p - 1)] [] [] 0) 2 = p384.p - 1 ∧
    operand p384 (start 0 [(1, 3), (2, p384.p - 1)] [] [] 0) 1 ≠ 0 :=
  test_operand_facts.2.2.1

/-- p - 1 is not a square modulo p = 3 (mod 4). -/
theorem not_square_neg_one {p : Nat} (hp : p.Prime) (h4 : p % 4 = 3) :
    ¬ ∃ r, r * r % p = p - 1 := by
  rintro ⟨r, hr⟩
  have := Fact.mk hp
  have hsq : IsSquare (-1 : ZMod p) := by
    refine ⟨(r : ZMod p), ?_⟩
    have h1 : ((r * r % p : Nat) : ZMod p) = ((p - 1 : Nat) : ZMod p) := by rw [hr]
    rw [ZMod.natCast_mod, Nat.cast_sub hp.one_le, ZMod.natCast_self] at h1
    push_cast at h1
    rw [h1]; ring
  exact ZMod.exists_sq_eq_neg_one_iff.mp hsq h4

/-- FissqTestsSquares and FsqrtFindsRoots: a square, a non-square, and Z. -/
theorem test_witness_squares :
    (∃ r, r * r % p384.p = operand p384 (start 0 [(1, 4)] [] [] 0) 1) ∧
    (¬ ∃ r, r * r % p384.p = operand p384 (start 0 [(1, p384.p - 1)] [] [] 0) 1) ∧
    operand p384 (start 0 [(1, p384.z)] [] [] 0) 1 = p384.z ∧
    operand p384 (start 0 [(1, p384.p - 1)] [] [] 0) 1 = p384.p - 1 := by
  obtain ⟨h, h4, hz, hp⟩ := test_operand_facts.2.2.2.2.2.2.2
  refine ⟨⟨2, h4⟩, ?_, hz, h⟩
  rw [h]
  exact not_square_neg_one prime_p384 hp

/-- FcselBlends: selectors 0 and 1. -/
theorem test_witness_FcselBlends :
    operand p521 (start 1 [(3, p521.p)] [] [] 0) 3 = 0 ∧
    operand p521 (start 1 [(3, 1)] [] [] 0) 3 = 1 :=
  test_operand_facts.2.2.2.1

/-- FencWritesBytes, FdecReadsBytes, EncodeDecodeRoundTrip: a range that ends at the last byte and one
that ends past it, the largest value that fits in one byte and the smallest that does not. -/
theorem test_witness_buffer_commands :
    (lenValue 1#8 + offValue 1023#10 ≤ 1024 ∧ offValue 1023#10 + lenValue 1#8 ≤ 1024) ∧
    1024 < lenValue 2#8 + offValue 1023#10 ∧
    operand p384 (start 0 [(3, 255)] [] [] 0) 3 < 2 ^ (8 * lenValue 1#8) ∧
    2 ^ (8 * lenValue 1#8) ≤ operand p384 (start 0 [(3, 256)] [] [] 0) 3 ∧
    Memory.wf (start 0 [(3, 255)] [] [] 0).buf = true ∧
    (start 0 [(3, 256)] [] [] 0).inflight = some ⟨0x12345678#32, 0, 1⟩ :=
  test_operand_facts.2.2.2.2.1

/-- Valid and invalid point registers: the hypotheses of PointsAddByGroupLaw, PvalidTestsValidity,
PclrCopiesChecked, PmulWritesMultiple, PeqComparesPoints, ScalarMultiplicationIsRepeatedAddition and
GroupLawIsClosed. -/
theorem test_witness_points :
    ValidPoint p384 gen384 ∧ ValidPoint p384 ⟨5#521, 7#521, true⟩ ∧ ¬ ValidPoint p384 offCurve ∧
    ¬ ValidPoint p384 ⟨BitVec.ofNat 521 p384.gx, BitVec.ofNat 521 (p384.gy + p384.p), false⟩ ∧
    (start 0 [] [(0, gen384), (1, offCurve)] [] 0).p[(0 : PReg)] = gen384 ∧
    (start 0 [] [(0, gen384), (1, offCurve)] [] 0).p[(1 : PReg)] = offCurve ∧
    gen384.inf = false ∧ identity.inf = true ∧
    (start 0 [] [(0, gen384), (1, offCurve)] [] 0).inflight = some ⟨0x12345678#32, 0, 1⟩ ∧
    operand p384 (start 0 [] [(0, gen384)] [] 0) 2 = 0 ∧
    operand p384 (start 0 [(2, 1)] [(0, gen384)] [] 0) 2 = 1 := by
  unfold ValidPoint CurveEquation
  decide +kernel

/-- H2bDrawsFieldElement, H2cHashesEveryMessage: the ends of the message
lengths. -/
theorem test_witness_message_length :
    (start 0 [] [] [] 1024).msglen.toNat ≤ 1024 ∧ (start 0 [] [] [] 0).msglen.toNat ≤ 1024 ∧
    1024 < (start 0 [] [] [] 1025).msglen.toNat ∧ 1024 < (start 0 [] [] [] 2047).msglen.toNat ∧
    (start 0 [] [] [] 1025).inflight = some ⟨0x12345678#32, 0, 1⟩ :=
  test_operand_facts.2.2.2.2.2.1

/-- SswuCompletes: the image of the exceptional element 0 is valid. -/
theorem test_witness_SswuCompletes :
    ValidPoint p384 (mapped p384 (operand p384 (start 0 [] [] [] 0) 1)) := by
  unfold ValidPoint CurveEquation
  decide +kernel

/-- UnsupportedGroupComesFirst: CURVE_SEL 2 and 15, a command in flight, a legal word. -/
theorem test_witness_UnsupportedGroupComesFirst :
    2 ≤ noCurve.curveSel.toNat ∧ 2 ≤ (start 15 [] [] [] 0).curveSel.toNat ∧
    noCurve.inflight = some ⟨0x12345678#32, 0, 1⟩ ∧ decode 0xA0C00000#32 = .ok (.pinf 3) ∧
    Instr.pinf 3 ≠ .nop := by decide

/-- IllegalCommandCompletes: an illegal word in flight. -/
theorem test_witness_IllegalCommandCompletes :
    ({ noCurve with inflight := some ⟨0x48000000#32, 0, 1⟩ } : State).inflight =
      some ⟨0x48000000#32, 0, 1⟩ ∧
    decode 0x48000000#32 = .error .reservedOpcode := ⟨rfl, by decide⟩

/-- CompletionSucceedsOrFails, OperandsAreFrozen: a command in flight in a busy state. -/
theorem test_witness_in_flight :
    busyState.inflight = some ⟨0x12345678#32, 0, 1⟩ ∧ busyState.status.busy = true := ⟨rfl, rfl⟩

/-- CommandsArePureFunctions: two states that agree on what a command reads, and differ elsewhere. -/
theorem test_witness_CommandsArePureFunctions :
    registry idle.tags idle.curveSel =
      registry ({ idle with cmdcnt := 5, sched := [.cycle] } : State).tags
        ({ idle with cmdcnt := 5, sched := [.cycle] } : State).curveSel ∧
    idle.f = ({ idle with cmdcnt := 5, sched := [.cycle] } : State).f ∧
    idle.p = ({ idle with cmdcnt := 5, sched := [.cycle] } : State).p ∧
    idle.buf = ({ idle with cmdcnt := 5, sched := [.cycle] } : State).buf ∧
    idle.msglen = ({ idle with cmdcnt := 5, sched := [.cycle] } : State).msglen ∧
    idle ≠ { idle with cmdcnt := 5, sched := [.cycle] } :=
  test_operand_facts.2.2.2.2.2.2.1

/-- CommandsWriteOnlyTheirDestination, ResultsAreCanonical: a command that completes, a register that is
not its destination, a byte it does not store and one it does. -/
theorem test_witness_destinations :
    Memory.wf idle.buf = true ∧ registry idle.tags idle.curveSel = some p521 ∧
    (∃ t, exec (.fenc 1 4#10 2#8) idle = .next t) ∧ (∃ t, exec (.pinf 3) idle = .next t) ∧
    fieldDest (.fmov 1 2) ≠ some 2 ∧ pointDest (.pinf 3) ≠ some 4 ∧
    ¬ Stores (.fenc 1 4#10 2#8) 6 ∧ ¬ Stores (.fenc 1 4#10 2#8) 3 ∧ ¬ Stores (.pinf 3) 0 := by
  refine ⟨by decide, rfl, ⟨_, rfl⟩, ⟨_, rfl⟩, by decide, by decide, ?_, ?_, ?_⟩
  · rintro ⟨r, off, len, he, h1, h2⟩
    simp only [Instr.fenc.injEq] at he
    obtain ⟨-, rfl, rfl⟩ := he
    exact absurd h2 (by decide)
  · rintro ⟨r, off, len, he, h1, h2⟩
    simp only [Instr.fenc.injEq] at he
    obtain ⟨-, rfl, rfl⟩ := he
    exact absurd h1 (by decide)
  · rintro ⟨r, off, len, he, -⟩
    cases he

/-- CmdcntCountsSuccesses: a word that completes without error, one that completes with an error, and a
CMD write that is dropped. -/
theorem test_witness_CmdcntCountsSuccesses :
    busyState.status.err = false ∧
    (∃ t, completeWord 0#32 busyState = .next t ∧ t.status.err = false) ∧
    (∃ t, completeWord 0x48000000#32 busyState = .next t ∧ t.status.err = true) ∧
    busyState.resetIn = false := ⟨rfl, ⟨_, rfl, rfl⟩, ⟨_, rfl, rfl⟩, rfl⟩

/-- FldcLoadsConstants: the ends of the illegal selectors. -/
theorem test_witness_FldcLoadsConstants : (9 ≤ 9 ∧ 9 ≤ 15) ∧ 9 ≤ 15 ∧ 15 ≤ 15 := by decide

/-- CommandIsAcceptedOrDropped: an idle state, a busy one, and one in the error state. -/
theorem test_witness_CommandIsAcceptedOrDropped :
    (idle.resetIn = false ∧ idle.status.busy = false ∧ idle.status.err = false) ∧
    (busyState.resetIn = false ∧ busyState.status.busy = true) ∧
    ({ idle with status := ⟨false, true, true, false⟩ } : State).status.err = true := by decide

/-- BusyWritesAreDropped, ReadsChangeNothing: the first and last offsets of the windows, and offsets
outside the windows. -/
theorem test_witness_windows :
    busyState.resetIn = false ∧ busyState.status.busy = true ∧ holdsData 0x1000 ∧ holdsData 0x17C0 ∧
    holdsData 0x2000 ∧ holdsData 0x2080 ∧ holdsData 0x27FC ∧ holdsData 0x4000 ∧ holdsData 0x43FC ∧
    outsideWindows 0x0000 ∧ outsideWindows 0x0FFC ∧ outsideWindows 0x1800 ∧ outsideWindows 0x1FFC ∧
    outsideWindows 0x2800 ∧ outsideWindows 0x3FFC ∧ outsideWindows 0x4400 := by
  unfold holdsData outsideWindows
  exact ⟨rfl, rfl, by decide, by decide, by decide, by decide, by decide, by decide, by decide,
    by decide, by decide, by decide, by decide, by decide, by decide, by decide⟩

/-- DropsAreReportedExactly: an ill-timed data write, an ill-timed command, and a disciplined move. -/
theorem test_witness_DropsAreReportedExactly :
    disciplined busyState (.write (wordAt 0x1000) 0#32) = false ∧
    disciplined { idle with status := ⟨false, false, true, false⟩ } (.write cmdAddr 0#32) = false ∧
    disciplined idle (.write (wordAt 0x4000) 0#32) = true ∧ disciplined busyState .cycle = true ∧
    busyState.resetIn = false := by decide

/-- FieldWindowMapsWords, PointWindowMapsWords, BufferWindowPacksBytes, ControlWritesStoreTheirBits: an
idle state, with words 0, 16, 17 and 31 of a field block, 16, 17, 31, 49 and 62 of a point block, 0 and
255 of BUF. -/
theorem test_witness_idle_access :
    idle.resetIn = false ∧ idle.status.busy = false ∧ Memory.wf idle.buf = true ∧
    ((0 ≤ 16 ∧ 16 ≤ 16) ∧ (17 ≤ 17 ∧ 17 ≤ 31) ∧ 31 ≤ 31 ∧ (49 ≤ 49 ∧ 49 ≤ 62) ∧ 62 ≤ 62 ∧ 255 ≤ 255) ∧
    (0x3#32).getLsbD 2 = false := by decide

/-- ReservedOffsetsReadZero: the ends of the reserved ranges. -/
theorem test_witness_ReservedOffsetsReadZero :
    isReserved 0x0028 ∧ isReserved 0x0FFC ∧ isReserved 0x1800 ∧ isReserved 0x1FFC ∧
    isReserved 0x2800 ∧ isReserved 0x3FFC ∧ isReserved 0x4400 ∧ isReserved 0xFFFC ∧
    busyState.resetIn = false := by
  unfold isReserved
  exact ⟨by decide, by decide, by decide, by decide, by decide, by decide, by decide, by decide, rfl⟩

/-- StatusWritesClear, IrqFollowsTheBits: values that clear and values that do not, on an idle unit. -/
theorem test_witness_status_values :
    idle.resetIn = false ∧ idle.status.busy = false ∧ (0x4#32).getLsbD 2 = true ∧
    ((0x6#32).getLsbD 1 = true ∧ (0x6#32).getLsbD 2 = true) ∧
    ((0x4#32).getLsbD 0 = false ∧ (0x4#32).getLsbD 1 = false) ∧
    (∃ t, completeWord 0x48000000#32 { busyState with ctrl := ⟨true, true⟩ } = .next t ∧
      t.ctrl.doneie = true ∧ t.status.err = true) ∧
    (∃ t, applyEvent idle (.write (wordAt 0x0008) 0x6#32) = .next t) ∧
    ∃ t, applyEvent idle (.write (wordAt 0x0004) 0x4#32) = .next t :=
  ⟨rfl, rfl, by decide, by decide, by decide, ⟨_, rfl, rfl, rfl⟩, ⟨_, rfl⟩, ⟨_, rfl⟩⟩

/-- ResetDiscardsAndIdles: the two kinds of reset, of a busy unit, and a unit held in reset. -/
theorem test_witness_ResetDiscardsAndIdles :
    resets busyState .assertReset = true ∧ resets busyState (.write (wordAt 0x0004) 0x7#32) = true ∧
    ({ idle with resetIn := true } : State).resetIn = true := by decide

/-- OperandsAreFrozen: a command that stays in flight over a cycle and over a dropped write. -/
theorem test_witness_OperandsAreFrozen :
    (∃ t c', applyEvent { busyState with inflight := some ⟨0#32, 0, 3⟩ } .cycle = .next t ∧
      t.inflight = some c') ∧
    ∃ t c', applyEvent busyState (.write (wordAt 0x1000) 0#32) = .next t ∧ t.inflight = some c' :=
  ⟨⟨_, _, rfl, rfl⟩, ⟨_, _, rfl, rfl⟩⟩

/-- LatencyIsConstantTime: two accepted FMOV commands of different registers, in states that differ in
their operands, both completing without error. -/
theorem test_witness_LatencyIsConstantTime :
    opcodeOf 0x04480000#32 = opcodeOf 0x04000000#32 ∧
    ¬ (opcodeOf 0x04480000#32 = 0x30#6 ∨ opcodeOf 0x04480000#32 = 0x32#6) ∧
    ∃ t t' u u' c c',
      applyEvent idle (.write (wordAt 0x0018) 0x04480000#32) = .next t ∧
      applyEvent { idle with buf := [] } (.write (wordAt 0x0018) 0x04000000#32) = .next t' ∧
      t.inflight = some c ∧ t'.inflight = some c' ∧ completeWord 0x04480000#32 t = .next u ∧
      completeWord 0x04000000#32 t' = .next u' ∧ u.status.err = false ∧ u'.status.err = false := by
  refine ⟨by decide, by decide, _, _, _, _, _, _, rfl, rfl, rfl, rfl, rfl, rfl, rfl, rfl⟩

/-- CommandsTerminate, StepKeepsInvariant: a state with a command in flight and no more moves meets the
invariant. -/
theorem test_witness_Inv :
    Invariant { busyState with inflight := some ⟨0#32, 1, 3⟩ } ∧ busyState.resetIn = false ∧
    busyState.sched = [] :=
  ⟨⟨by decide, rfl, rfl, by decide, by decide, rfl, by decide⟩, rfl, rfl⟩

/-- The end of a run (70_reset_and_hazards.md R275): over with only a read left and BUSY = 0, not over with
a CMD write left, nor with a command in flight; with ERR set it ended in an error. -/
theorem test_run_over :
    runOver { idle with sched := [.read cmdAddr, .cycle, .write (wordAt 0x0008) 0xE#32] } = true ∧
    runOver { idle with sched := [.read cmdAddr, .write cmdAddr 0#32] } = false ∧
    runOver busyState = false ∧
    endedInError { idle with status := ⟨false, true, true, false⟩ } = true := by decide

/-- StepRunsDecodedCommand: a command on its last cycle, and a move to come. -/
theorem test_witness_StepRunsDecodedCommand :
    (busyState.resetIn = false ∧ nextEvent busyState = .cycle ∧
      ({ busyState with inflight := some ⟨0#32, 2, 3⟩ } : State).inflight = some ⟨0#32, 2, 3⟩ ∧
      3 ≤ 2 + 1 ∧ decode 0#32 = .ok .nop) ∧
    ({ idle with sched := [.assertReset, .cycle] } : State).sched = [.assertReset, .cycle] :=
  ⟨⟨rfl, rfl, rfl, by decide, by decide⟩, rfl⟩

/-! ## A draw -/

/-- The hash:
- 42_hash_to_curve.md R204: the first draw of "test" on P-384. -/
theorem test_draw_result :
    fieldAfter 1 (exec (.h2b 1 0#1) (start 0 [] [] [0x74#8, 0x65#8, 0x73#8, 0x74#8] 4)) = some (0x29A47E93D2DCB19596CD257F2CC55FACAFDC800A0B728C59444CBB938F490B4B1CCE8A41CBD143F31F54BF5AED5477D5) := by
  decide +kernel

end Sys2Proof.Tests
end

/-! ## What an instruction may answer (10_state.md R55 to R57; 60_exceptions.md R234)

Said once for all 33 commands: the error is a defined one, or the write goes to the destination the
instruction names and holds a canonical value. The frame, the canonical results and the invariant are
read off it. -/

namespace Sys2Proof.Machine

open Sys2Proof.Config Sys2Proof.Claims

/-! ### A completion, field by field -/

@[simp] theorem apply_ctrl (s : State) (w : Effect) : (s.apply w).ctrl = s.ctrl := by
  rw [apply_frame]
@[simp] theorem apply_status (s : State) (w : Effect) : (s.apply w).status = s.status := by
  rw [apply_frame]
@[simp] theorem apply_errcode (s : State) (w : Effect) : (s.apply w).errcode = s.errcode := by
  rw [apply_frame]
@[simp] theorem apply_errinfo (s : State) (w : Effect) : (s.apply w).errinfo = s.errinfo := by
  rw [apply_frame]
@[simp] theorem apply_curveSel (s : State) (w : Effect) : (s.apply w).curveSel = s.curveSel := by
  rw [apply_frame]
@[simp] theorem apply_msglen (s : State) (w : Effect) : (s.apply w).msglen = s.msglen := by
  rw [apply_frame]
@[simp] theorem apply_cmdcnt (s : State) (w : Effect) : (s.apply w).cmdcnt = s.cmdcnt := by
  rw [apply_frame]
@[simp] theorem apply_resetIn (s : State) (w : Effect) : (s.apply w).resetIn = s.resetIn := by
  rw [apply_frame]
@[simp] theorem apply_tags (s : State) (w : Effect) : (s.apply w).tags = s.tags := by
  rw [apply_frame]
@[simp] theorem apply_rdata (s : State) (w : Effect) : (s.apply w).rdata = s.rdata := by
  rw [apply_frame]
@[simp] theorem apply_draws (s : State) (w : Effect) : (s.apply w).draws = s.draws := by
  rw [apply_frame]
@[simp] theorem apply_sched (s : State) (w : Effect) : (s.apply w).sched = s.sched := by
  rw [apply_frame]

@[simp] theorem completed_ctrl (s : State) (r : CmdResult) : (s.completed r).ctrl = s.ctrl := by
  cases r <;> simp
@[simp] theorem completed_curveSel (s : State) (r : CmdResult) :
    (s.completed r).curveSel = s.curveSel := by cases r <;> simp
@[simp] theorem completed_msglen (s : State) (r : CmdResult) :
    (s.completed r).msglen = s.msglen := by cases r <;> simp
@[simp] theorem completed_drop (s : State) (r : CmdResult) :
    (s.completed r).status.drop = s.status.drop := by cases r <;> simp
@[simp] theorem completed_busy (s : State) (r : CmdResult) : (s.completed r).status.busy = false := by
  cases r <;> simp
@[simp] theorem completed_inflight (s : State) (r : CmdResult) : (s.completed r).inflight = none := by
  cases r <;> simp
@[simp] theorem completed_resetIn (s : State) (r : CmdResult) :
    (s.completed r).resetIn = s.resetIn := by cases r <;> simp
@[simp] theorem completed_tags (s : State) (r : CmdResult) : (s.completed r).tags = s.tags := by
  cases r <;> simp
@[simp] theorem completed_rdata (s : State) (r : CmdResult) : (s.completed r).rdata = s.rdata := by
  cases r <;> simp
@[simp] theorem completed_draws (s : State) (r : CmdResult) : (s.completed r).draws = s.draws := by
  cases r <;> simp
@[simp] theorem completed_sched (s : State) (r : CmdResult) : (s.completed r).sched = s.sched := by
  cases r <;> simp

/-! ### The answers an instruction is allowed -/

/-- ERRCODE and ERRINFO of the error are a pair of the table (60_exceptions.md R234). -/
abbrev DefinedError (e : CmdError) : Prop := (e.kind.code, e.info) ∈ errorPairs

theorem code_ne_zero (k : ErrorKind) : k.code ≠ 0#4 := by cases k <;> decide

theorem definedError_illegal (e : Illegal) : DefinedError ⟨.illegalCommand, e.info⟩ := by
  cases e <;> decide

/-- The write goes where the instruction says, and what it writes to a register is canonical for the
entry in force, or PMOV's raw copy. -/
def AllowedEffect (i : Instr) (s : State) : Effect → Prop
  | .none => True
  | .field d v => fieldDest i = some d ∧
      ∃ E, registry s.tags s.curveSel = some E ∧ canonicalField E v
  | .point d v => pointDest i = some d ∧
      ((∃ E, registry s.tags s.curveSel = some E ∧ canonicalPoint E v) ∨
        ∃ a, i = .pmov d a ∧ v = s.p[a])
  | .bytes off b => ∃ r o len, i = .fenc r o len ∧ bufRangeOk o len = true ∧ off = offValue o ∧
      b.length = lenValue len

/-- An answer of the instruction: an allowed write, or a defined error. -/
def Allowed (i : Instr) (s : State) : CmdResult → Prop
  | .ok w => AllowedEffect i s w
  | .error e => DefinedError e

section Answers

variable {i : Instr} {s : State} {E : Curve} {d : FReg} {k : PReg}

/-- Errors are allowed everywhere. -/
theorem allowed_error {e : CmdError} (h : DefinedError e) : Allowed i s (.error e) := h

/-- The preamble adds a defined error. -/
theorem allowed_withCurve {body : Curve → CmdResult}
    (h : ∀ E, registry s.tags s.curveSel = some E → Allowed i s (body E)) :
    Allowed i s (withCurve s body) :=
  withCurve_ind (G := Allowed i s) (allowed_error (by decide)) h

/-- The check of operand a or b adds a defined error. -/
theorem allowed_checkedPoint {q : Point} {info : BitVec 4} {body : GroupPoint → CmdResult}
    (hinfo : info = 1#4 ∨ info = 2#4) (h : validPoint E q = true → Allowed i s (body q.toGroup)) :
    Allowed i s (checkedPoint E q info body) := by
  refine checkedPoint_ind (G := Allowed i s) (allowed_error ?_) h
  obtain rfl | rfl := hinfo <;> decide

/-- A residue is one in register form too. -/
theorem toNat_ofNat_lt {p v : Nat} (hv : v < p) : (BitVec.ofNat 521 v).toNat < p := by
  rw [BitVec.toNat_ofNat]
  exact lt_of_le_of_lt (Nat.mod_le _ _) hv

/-- A residue written to the field destination. -/
theorem allowed_fieldResult (hE : registry s.tags s.curveSel = some E) (hd : fieldDest i = some d)
    {v : Nat} (hv : v < E.p) : Allowed i s (fieldResult d v) :=
  ⟨hd, E, hE, toNat_ofNat_lt hv⟩

/-- A command of the arithmetic unit whose value is a residue. -/
theorem allowed_fieldCommand {value : Curve → Nat} (hd : fieldDest i = some d)
    (hv : ∀ E, registry s.tags s.curveSel = some E → value E < E.p) :
    Allowed i s (withCurve s fun E => fieldResult d (value E)) :=
  allowed_withCurve fun E hE => allowed_fieldResult hE hd (hv E hE)

/-- A canonical point written to the point destination. -/
theorem allowed_pointResult (hE : registry s.tags s.curveSel = some E) (hd : pointDest i = some k)
    {q : GroupPoint} (hq : canonicalPoint E q.toPoint) : Allowed i s (pointResult k q) :=
  ⟨hd, .inl ⟨E, hE, hq⟩⟩

end Answers

/-! ### The values are canonical (10_state.md R55) -/

section Registry

variable {tags : Tags} {id : BitVec 4} {E : Curve}

theorem fv_lt (hE : registry tags id = some E) (s : State) (a : FReg) : fv E s a < E.p :=
  Nat.mod_lt _ (registry_p_pos hE)

theorem ofTruth_lt (hE : registry tags id = some E) (t : Bool) : ofTruth t < E.p := by
  have := registry_p_gt_two hE
  have := ofTruth_le_one t
  omega

theorem constValue_lt (hE : registry tags id = some E) (sel : CurveConst) :
    constValue E sel < E.p := by
  have hp := registry_p_pos hE
  obtain ⟨ha, hb, -, hh, hn, hgx, hgy⟩ := registry_residues hE
  cases sel with
  | a => exact ha
  | b => exact hb
  | z => exact Nat.mod_lt _ hp
  | c1 => exact modP_lt hp _
  | c2 => exact modP_lt hp _
  | h => exact hh
  | n => exact hn
  | gx => exact hgx
  | gy => exact hgy

/-- An affine point of residues is canonical in register form. -/
theorem canonicalPoint_aff {x y : Nat} (hx : x < E.p) (hy : y < E.p) :
    canonicalPoint E (GroupPoint.aff x y).toPoint :=
  .inr ⟨rfl, toNat_ofNat_lt hx, toNat_ofNat_lt hy⟩

/-- A group point whose register form is valid is canonical. -/
theorem canonicalPoint_of_valid {q : GroupPoint} (h : validPoint E q.toPoint = true) :
    canonicalPoint E q.toPoint := by
  cases q with
  | inf => exact .inl rfl
  | aff x y =>
    simp only [validPoint, GroupPoint.toPoint, Bool.false_or, Bool.and_eq_true] at h
    obtain ⟨⟨hx, hy⟩, -⟩ := h
    exact .inr ⟨rfl, of_decide_eq_true hx, of_decide_eq_true hy⟩

/-- The sum of valid operands is canonical (41_point.md R171). -/
theorem canonicalPoint_padd (hE : registry tags id = some E) {q r : Point}
    (hq : validPoint E q = true) (hr : validPoint E r = true) :
    canonicalPoint E (padd E q.toGroup r.toGroup).toPoint := by
  have := Fact.mk (registry_prime hE)
  obtain ⟨Q, hQ⟩ := standsFor_of_valid hE hq
  obtain ⟨R, hR⟩ := standsFor_of_valid hE hr
  exact canonicalPoint_of_valid ((padd_standsFor hE hQ hR).valid hE).1

/-- A multiple of a valid operand is canonical (41_point.md R175). -/
theorem canonicalPoint_smul (hE : registry tags id = some E) {q : Point}
    (hq : validPoint E q = true) (n : Nat) :
    canonicalPoint E (smul E n q.toGroup).toPoint := by
  have := Fact.mk (registry_prime hE)
  obtain ⟨Q, hQ⟩ := standsFor_of_valid hE hq
  exact canonicalPoint_of_valid ((smul_standsFor hE hQ n).valid hE).1

/-- The image of the map is canonical (42_hash_to_curve.md R205). -/
theorem canonicalPoint_sswuMap (hE : registry tags id = some E) (u : Nat) :
    canonicalPoint E (GroupPoint.aff (sswuMap E u).1 (sswuMap E u).2).toPoint := by
  obtain ⟨hx, hy, -⟩ := sswuMap_spec hE u
  exact canonicalPoint_aff hx hy

end Registry

/-! ### The answer of each command -/

/-- Every instruction completes with an answer it is allowed. -/
theorem exec_allowed (i : Instr) (s : State) :
    ∃ r, exec i s = .next (s.completed r) ∧ Allowed i s r := by
  cases i with
  | nop => exact ⟨_, rfl, trivial⟩
  | fmov d a => exact ⟨_, rfl, allowed_fieldCommand rfl fun _ hE => fv_lt hE s a⟩
  | fldi | fadd | fsub | fmul | fsqr | fneg | fsgn =>
    exact ⟨_, rfl, allowed_fieldCommand rfl fun _ hE => modP_lt (registry_p_pos hE) _⟩
  | finv | fpow | fsqrt =>
    exact ⟨_, rfl, allowed_fieldCommand rfl fun _ hE => powMod_lt (registry_p_pos hE) _ _⟩
  | fissq | feq | pvalid | pisinf =>
    exact ⟨_, rfl, allowed_fieldCommand rfl fun _ hE => ofTruth_lt hE _⟩
  | fcsel => exact ⟨_, rfl, allowed_fieldCommand rfl fun _ hE => cmov_lt (registry_p_pos hE) _ _ _⟩
  | fldc d sel => exact ⟨_, rfl, allowed_fieldCommand rfl fun _ hE => constValue_lt hE sel⟩
  | px | py =>
    exact ⟨_, rfl, allowed_fieldCommand rfl fun _ hE => Nat.mod_lt _ (registry_p_pos hE)⟩
  | fenc r off len =>
    refine ⟨_, rfl, withBufRange_ind (G := Allowed _ s) (allowed_error (by decide)) fun hrange => ?_⟩
    refine allowed_withCurve fun E hE => ?_
    split
    · exact allowed_error (by decide)
    · exact ⟨r, off, len, rfl, hrange, rfl, i2osp_length _ _⟩
  | fdec r off len =>
    exact ⟨_, rfl, withBufRange_ind (G := Allowed _ s) (allowed_error (by decide)) fun _ =>
      allowed_fieldCommand rfl fun E hE => Nat.mod_lt _ (registry_p_pos hE)⟩
  | padd d a b =>
    exact ⟨_, rfl, allowed_withCurve fun E hE =>
      allowed_checkedPoint (.inl rfl) fun ha => allowed_checkedPoint (.inr rfl) fun hb =>
        allowed_pointResult hE rfl (canonicalPoint_padd hE ha hb)⟩
  | pdbl d a =>
    exact ⟨_, rfl, allowed_withCurve fun E hE => allowed_checkedPoint (.inl rfl) fun ha =>
      allowed_pointResult hE rfl (canonicalPoint_padd hE ha ha)⟩
  | pclr | pmul =>
    exact ⟨_, rfl, allowed_withCurve fun E hE => allowed_checkedPoint (.inl rfl) fun ha =>
      allowed_pointResult hE rfl (canonicalPoint_smul hE ha _)⟩
  | pmk d a b =>
    exact ⟨_, rfl, allowed_withCurve fun E hE =>
      allowed_pointResult hE rfl (canonicalPoint_aff (fv_lt hE s a) (fv_lt hE s b))⟩
  | pinf d =>
    exact ⟨_, rfl, allowed_withCurve fun E hE => allowed_pointResult hE rfl (.inl rfl)⟩
  | pmov d a => exact ⟨_, rfl, allowed_withCurve fun E hE => ⟨rfl, .inr ⟨a, rfl, rfl⟩⟩⟩
  | peq d a b =>
    exact ⟨_, rfl, allowed_withCurve fun E hE =>
      allowed_checkedPoint (.inl rfl) fun _ => allowed_checkedPoint (.inr rfl) fun _ =>
        allowed_fieldResult hE rfl (ofTruth_lt hE _)⟩
  | h2b d ctr =>
    refine ⟨_, rfl, allowed_withCurve fun E hE => ?_⟩
    rw [requireOneElement_registry hE]
    exact withMessage_ind (G := Allowed _ s) (allowed_error (by decide)) fun msg =>
      allowed_fieldResult hE rfl (Nat.mod_lt _ (registry_p_pos hE))
  | sswu d a =>
    refine ⟨_, rfl, allowed_withCurve fun E hE => ?_⟩
    rw [requireSswu_registry hE]
    exact checkedMap_ind (G := Allowed _ s) (allowed_error (by decide)) fun _ =>
      allowed_pointResult hE rfl (canonicalPoint_sswuMap hE _)
  | h2c d =>
    refine ⟨_, rfl, allowed_withCurve fun E hE => ?_⟩
    rw [requireOneElement_registry hE, requireSswu_registry hE]
    refine withMessage_ind (G := Allowed _ s) (allowed_error (by decide)) fun msg => ?_
    refine checkedMap_ind (G := Allowed _ s) (allowed_error (by decide)) fun _ => ?_
    refine checkedMap_ind (G := Allowed _ s) (allowed_error (by decide)) fun _ => ?_
    exact checkedFinal_ind (G := Allowed _ s) (allowed_error (by decide)) fun hq =>
      allowed_pointResult hE rfl (canonicalPoint_of_valid hq)

end Sys2Proof.Machine

/-! ## A command changes only its destination, and writes canonical values -/

namespace Sys2Proof.Machine

open Sys2Proof.Config Sys2Proof.Claims

section Frame

variable {i : Instr} {s : State} {r : CmdResult}

/-- A field register that is not the field destination keeps its contents. -/
theorem completed_f_frame (h : Allowed i s r) {k : FReg} (hk : fieldDest i ≠ some k) :
    (s.completed r).f[k] = s.f[k] := by
  match r, h with
  | .error _, _ => rfl
  | .ok .none, _ => rfl
  | .ok (.point _ _), _ => rfl
  | .ok (.bytes _ _), _ => rfl
  | .ok (.field d v), ⟨hd, _⟩ => exact setF_get_ne s v fun he => hk (he ▸ hd)

/-- A point register that is not the point destination keeps its contents. -/
theorem completed_p_frame (h : Allowed i s r) {k : PReg} (hk : pointDest i ≠ some k) :
    (s.completed r).p[k] = s.p[k] := by
  match r, h with
  | .error _, _ => rfl
  | .ok .none, _ => rfl
  | .ok (.field _ _), _ => rfl
  | .ok (.bytes _ _), _ => rfl
  | .ok (.point d v), ⟨hd, _⟩ => exact setP_get_ne s v fun he => hk (he ▸ hd)

/-- A byte the instruction does not store keeps its contents. -/
theorem completed_buf_frame (h : Allowed i s r) (hwf : Memory.wf s.buf = true) {x : Nat}
    (hx : ¬ Stores i x) : Memory.read (s.completed r).buf x = Memory.read s.buf x := by
  match r, h with
  | .error _, _ => rfl
  | .ok .none, _ => rfl
  | .ok (.field _ _), _ => rfl
  | .ok (.point _ _), _ => rfl
  | .ok (.bytes off b), ⟨reg, o, len, hi, hrange, hoff, hlen⟩ =>
    have hfits : off + b.length ≤ 1024 := by
      rw [hoff, hlen]; exact of_decide_eq_true hrange
    show Memory.read (Memory.writeBytes s.buf off b) x = _
    rw [Memory.read_writeBytes hwf hfits, dif_neg]
    rintro ⟨hlo, hhi⟩
    exact hx ⟨reg, o, len, hi, hoff ▸ hlo, by rw [← hoff, ← hlen]; exact hhi⟩

/-- The buffer stays canonical. -/
theorem completed_buf_wf (h : Allowed i s r) (hwf : Memory.wf s.buf = true) :
    Memory.wf (s.completed r).buf = true := by
  match r, h with
  | .error _, _ => exact hwf
  | .ok .none, _ => exact hwf
  | .ok (.field _ _), _ => exact hwf
  | .ok (.point _ _), _ => exact hwf
  | .ok (.bytes off b), ⟨_, _, _, _, hrange, hoff, hlen⟩ =>
    exact Memory.writeBytes_wf hwf (by rw [hoff, hlen]; exact of_decide_eq_true hrange)

/-- A field register is as before or holds a residue. -/
theorem completed_f_canonical {E : Curve} (hE : registry s.tags s.curveSel = some E)
    (h : Allowed i s r) (k : FReg) :
    (s.completed r).f[k] = s.f[k] ∨ canonicalField E (s.completed r).f[k] := by
  by_cases hk : fieldDest i = some k
  · match r, h with
    | .error _, _ => exact .inl rfl
    | .ok .none, _ => exact .inl rfl
    | .ok (.point _ _), _ => exact .inl rfl
    | .ok (.bytes _ _), _ => exact .inl rfl
    | .ok (.field d v), ⟨hd, E', hE', hv⟩ =>
      obtain rfl : d = k := Option.some.inj (hd.symm.trans hk)
      obtain rfl : E' = E := Option.some.inj (hE'.symm.trans hE)
      have hget : (s.completed (.ok (.field d v))).f[d] = v := setF_get_self s d v
      exact .inr (by rw [hget]; exact hv)
  · exact .inl (completed_f_frame h hk)

/-- A point register is as before, or canonical, or PMOV's copy. -/
theorem completed_p_canonical {E : Curve} (hE : registry s.tags s.curveSel = some E)
    (h : Allowed i s r) (k : PReg) :
    (s.completed r).p[k] = s.p[k] ∨ canonicalPoint E (s.completed r).p[k] ∨
      ∃ a, i = .pmov k a ∧ (s.completed r).p[k] = s.p[a] := by
  by_cases hk : pointDest i = some k
  · match r, h with
    | .error _, _ => exact .inl rfl
    | .ok .none, _ => exact .inl rfl
    | .ok (.field _ _), _ => exact .inl rfl
    | .ok (.bytes _ _), _ => exact .inl rfl
    | .ok (.point d v), ⟨hd, hv⟩ =>
      obtain rfl : d = k := Option.some.inj (hd.symm.trans hk)
      have hget : (s.completed (.ok (.point d v))).p[d] = v := setP_get_self s d v
      rw [hget]
      obtain ⟨E', hE', hcanon⟩ | hcopy := hv
      · obtain rfl : E' = E := Option.some.inj (hE'.symm.trans hE)
        exact .inr (.inl hcanon)
      · exact .inr (.inr hcopy)
  · exact .inl (completed_p_frame h hk)

end Frame

/-- Settles O38: the answer of every instruction is an allowed one, and the frame of an allowed answer is
that of its destination. -/
theorem commandsWriteOnlyTheirDestination : Obligations.CommandsWriteOnlyTheirDestination := by
  intro i s t hwf ht
  obtain ⟨r, hr, hallowed⟩ := exec_allowed i s
  obtain rfl : s.completed r = t := Host.Outcome.next.inj (hr.symm.trans ht)
  exact ⟨fun _ hk => completed_f_frame hallowed hk, fun _ hk => completed_p_frame hallowed hk,
    fun _ hx => completed_buf_frame hallowed hwf hx, by simp⟩

/-- Settles O39: the answer of every instruction is an allowed one, so what it writes is canonical. -/
theorem resultsAreCanonical : Obligations.ResultsAreCanonical := by
  intro i s t E hE ht
  obtain ⟨r, hr, hallowed⟩ := exec_allowed i s
  obtain rfl : s.completed r = t := Host.Outcome.next.inj (hr.symm.trans ht)
  exact ⟨completed_f_canonical hE hallowed, completed_p_canonical hE hallowed⟩

end Sys2Proof.Machine

/-! ## The invariant (10_state.md R49; 60_exceptions.md R234 to R241; 70_reset_and_hazards.md R271) -/

namespace Sys2Proof.Machine

open Sys2Proof.Config Sys2Proof.Claims

/-- The state meets the invariant and is of the unit of `s`: it has its tags. -/
def Kept (s t : State) : Prop := Invariant t ∧ t.tags = s.tags

section Moves

variable {s : State}

/-- The invariant speaks of the canonical form of BUF, of STATUS, of the error pair, of the command in
flight and of the reset input alone. -/
theorem Invariant.congr {t : State} (hs : Invariant s) (hbuf : Memory.wf t.buf = true)
    (hstatus : t.status = s.status) (hpair : (t.errcode, t.errinfo) = (s.errcode, s.errinfo))
    (hflight : t.inflight = s.inflight) (hreset : t.resetIn = s.resetIn) : Invariant t where
  buf := hbuf
  busy := by rw [hstatus, hflight]; exact hs.busy
  calm := by rw [hstatus]; exact hs.calm
  pair := by rw [hpair]; exact hs.pair
  cause := by rw [hstatus, (Prod.mk.inj hpair).1]; exact hs.cause
  time := by rw [hflight]; exact hs.time
  held := by rw [hflight, hreset]; exact hs.held

theorem Invariant.popMove (hs : Invariant s) : Invariant s.popMove :=
  hs.congr hs.buf rfl rfl rfl rfl

/-- A completion leaves an idle unit, with a defined pair if it fails. -/
theorem kept_completed (hs : Invariant s) {i : Instr} {r : CmdResult} (h : Allowed i s r) :
    Kept s (s.completed r) := by
  refine ⟨⟨completed_buf_wf h hs.buf, by simp, by simp, ?_, ?_, by simp [inTime], by simp⟩, by simp⟩
  · match r, h with
    | .ok _, _ => simpa using hs.pair
    | .error _, he => exact he
  · match r, h with
    | .ok _, _ => simpa using hs.cause
    | .error e, _ => exact fun _ => code_ne_zero e.kind

/-- Every word completes, legal or not, and keeps the invariant (60_exceptions.md R236). -/
theorem kept_completeWord (hs : Invariant s) (w : Word) :
    ∃ t, completeWord w s = .next t ∧ Kept s t := by
  cases hd : decode w with
  | ok i =>
    obtain ⟨r, hr, hallowed⟩ := exec_allowed i s
    exact ⟨_, (completeWord_ok hd s).trans hr, kept_completed hs hallowed⟩
  | error e =>
    exact ⟨_, completeWord_error hd s,
      kept_completed (i := .nop) (r := .error _) hs (definedError_illegal e)⟩

/-- A clock cycle waits, counts, or completes. -/
theorem kept_clockCycle (hs : Invariant s) : ∃ t, clockCycle s = .next t ∧ Kept s t := by
  obtain ⟨hidle, -⟩ | ⟨c, hreset, hflight, ⟨hearly, hcount⟩ | ⟨-, hlast⟩⟩ := clockCycle_cases s
  · exact ⟨s, hidle, hs, rfl⟩
  · refine ⟨_, hcount, ⟨hs.buf, ?_, hs.calm, hs.pair, hs.cause, ?_, ?_⟩, rfl⟩
    · rw [hs.busy, hflight]; rfl
    · exact decide_eq_true hearly
    · intro hr; rw [show s.resetIn = true from hr] at hreset; cases hreset
  · obtain ⟨t, ht, hkept⟩ := kept_completeWord hs c.word
    exact ⟨t, hlast.trans ht, hkept⟩

theorem kept_resetUnit (s : State) : Kept s s.resetUnit :=
  ⟨⟨freeBuf_wf _, rfl, rfl, (by decide : (0#4, 0#4) ∈ errorPairs), by simp, rfl, fun _ => rfl⟩, rfl⟩

theorem kept_dropped (hs : Invariant s) : Kept s s.dropped :=
  ⟨⟨hs.buf, hs.busy, hs.calm, hs.pair, hs.cause, hs.time, hs.held⟩, rfl⟩

/-- Clearing W1C bits keeps BUSY and can only leave the error state (60_exceptions.md R240). -/
theorem kept_writeStatus (hs : Invariant s) (v : Word) : Kept s (s.writeStatus v) := by
  refine ⟨⟨hs.buf, hs.busy, ?_, hs.pair, ?_, hs.time, hs.held⟩, rfl⟩
  · have hcalm := hs.calm
    simp only [writeStatus_status, Bool.and_eq_false_iff] at hcalm ⊢
    exact hcalm.imp_right .inl
  · intro herr
    simp only [writeStatus_status, Bool.and_eq_true] at herr
    exact hs.cause herr.1

theorem latencyOf_pos (w : Word) (s : State) : 0 < latencyOf w s := by
  unfold latencyOf
  split <;> exact Nat.succ_pos _

/-- An accepted command is at the start of a positive latency (10_state.md R49;
70_reset_and_hazards.md R271). -/
theorem kept_acceptCommand (hs : Invariant s) (hreset : s.resetIn = false)
    (herr : s.status.err = false) (w : Word) : Kept s (acceptCommand s w) := by
  refine ⟨⟨hs.buf, rfl, ?_, hs.pair, hs.cause, decide_eq_true (latencyOf_pos w s), ?_⟩, rfl⟩
  · simp [herr]
  · simp [hreset]

theorem kept_writeCmd (hs : Invariant s) (hreset : s.resetIn = false) (w : Word) :
    Kept s (writeCmd s w) := by
  obtain ⟨-, herr, haccept⟩ | ⟨-, hdrop⟩ := writeCmd_cases s w
  · exact haccept ▸ kept_acceptCommand hs hreset herr w
  · exact hdrop ▸ kept_dropped hs

/-- A data write keeps what it writes keeps. -/
theorem kept_dataWrite (hs : Invariant s) {t : State} (ht : Kept s t) : Kept s (dataWrite s t) := by
  obtain ⟨-, htaken⟩ | ⟨-, hdrop⟩ := dataWrite_cases s t
  · rw [htaken]; exact ht
  · exact hdrop ▸ kept_dropped hs

theorem kept_writeCtrl (hs : Invariant s) (v : Word) : Kept s (writeCtrl s v) := by
  unfold writeCtrl
  split
  · exact kept_resetUnit s
  · exact ⟨hs.congr hs.buf rfl rfl rfl rfl, rfl⟩

/-- The control window holds no word of BUF (20_memory.md R71). -/
theorem controlPlace_ne_buf (n w : Nat) : controlPlace n ≠ .buf w := by
  unfold controlPlace
  split_ifs <;> exact Place.noConfusion

/-- A word of the BUF window is one of 256 (20_memory.md R74). -/
theorem placeOf_buf_lt {addr : WordAddr} {w : Nat} (h : placeOf addr = .buf w) : w < 256 := by
  rw [placeOf] at h
  split at h
  · cases h
  split at h
  · cases h
  split at h
  · rw [← Place.buf.inj h]
    exact (addr.extractLsb' 0 8).isLt
  · exact absurd h (controlPlace_ne_buf _ _)

theorem kept_writePlace (hs : Invariant s) (hreset : s.resetIn = false) (v : Word) {l : Place}
    (hl : ∀ w, l = .buf w → w < 256) : Kept s (writePlace s v l) := by
  have unchanged : Kept s s := ⟨hs, rfl⟩
  cases l with
  | id | errcode | errinfo | errcmd | cmdcnt | reserved => exact unchanged
  | ctrl => exact kept_writeCtrl hs v
  | status => exact kept_writeStatus hs v
  | cmd => exact kept_writeCmd hs hreset v
  | curveSel | msglen | field | point =>
    exact kept_dataWrite hs ⟨hs.congr hs.buf rfl rfl rfl rfl, rfl⟩
  | buf w =>
    exact kept_dataWrite hs ⟨hs.congr (bufWithWord_wf v hs.buf (hl w rfl)) rfl rfl rfl rfl, rfl⟩

theorem kept_busWrite (hs : Invariant s) (addr : WordAddr) (v : Word) :
    Kept s (busWrite s addr v) := by
  cases hreset : s.resetIn with
  | true => rw [busWrite, if_pos hreset]; exact ⟨hs, rfl⟩
  | false =>
    rw [busWrite_place rfl hreset]
    exact kept_writePlace hs hreset v fun _ => placeOf_buf_lt

theorem kept_busRead (hs : Invariant s) (addr : WordAddr) : Kept s (busRead s addr) := by
  rw [busRead_frame]
  exact ⟨hs.congr hs.buf rfl rfl rfl rfl, rfl⟩

/-- Every move answers a next state, and keeps the invariant. -/
theorem kept_applyEvent (hs : Invariant s) (e : Event) :
    ∃ t, applyEvent s e = .next t ∧ Kept s t := by
  cases e with
  | read addr => exact ⟨_, rfl, kept_busRead hs addr⟩
  | write addr v => exact ⟨_, rfl, kept_busWrite hs addr v⟩
  | cycle => exact kept_clockCycle hs
  | assertReset =>
    obtain ⟨hreset, htags⟩ := kept_resetUnit s
    exact ⟨_, rfl, { hreset with held := fun _ => rfl }, htags⟩
  | releaseReset =>
    exact ⟨_, rfl, { hs with held := fun h => absurd h Bool.false_ne_true }, rfl⟩

end Moves

/-- Settles O59: a step is a move of the state with the move taken from the list, and every move keeps
the invariant and the tags. -/
theorem stepKeepsInvariant : Obligations.StepKeepsInvariant := by
  intro s hs
  obtain ⟨t, ht, hinv, htags⟩ := kept_applyEvent hs.popMove (nextEvent s)
  exact ⟨t, ht, hinv, htags⟩

end Sys2Proof.Machine

/-! ## A command reads the entry, F, P, BUF and MSGLEN alone (10_state.md R56) -/

namespace Sys2Proof.Machine

open Sys2Proof.Config

/-- Two states that agree on all a command reads. -/
structure SameInputs (s s' : State) : Prop where
  entry : registry s.tags s.curveSel = registry s'.tags s'.curveSel
  f : s.f = s'.f
  p : s.p = s'.p
  buf : s.buf = s'.buf
  msglen : s.msglen = s'.msglen

namespace SameInputs

variable {s s' : State} (h : SameInputs s s')

include h

theorem fv_eq (E : Curve) (a : FReg) : fv E s a = fv E s' a := by rw [fv, fv, h.f]

theorem pv_eq (a : PReg) : pv s a = pv s' a := by rw [pv, pv, h.p]

theorem bufRead_eq (off n : Nat) : bufRead s off n = bufRead s' off n := by
  rw [bufRead, bufRead, h.buf]

theorem withMessage_eq (body : List Byte → CmdResult) : withMessage s body = withMessage s' body := by
  rw [withMessage, withMessage, h.msglen, h.bufRead_eq]

theorem withCurve_eq {body body' : Curve → CmdResult} (hbody : ∀ E, body E = body' E) :
    withCurve s body = withCurve s' body' := by
  rw [withCurve, withCurve, h.entry, funext hbody]

omit h in
/-- Equal answers, as the completions of both states. -/
theorem complete_same {r r' : CmdResult} (hr : r = r') : ∃ x : CmdResult,
    complete s r = .next (s.completed x) ∧ complete s' r' = .next (s'.completed x) :=
  ⟨r, rfl, hr ▸ rfl⟩

/-- A command behind the preamble answers the same where its body does. -/
theorem completeCurve_same {body body' : Curve → CmdResult} (hbody : ∀ E, body E = body' E) :
    ∃ x : CmdResult, complete s (withCurve s body) = .next (s.completed x) ∧
      complete s' (withCurve s' body') = .next (s'.completed x) :=
  complete_same (h.withCurve_eq hbody)

/-- Every instruction answers the same: its operands, its message and its entry are the same. -/
theorem exec_same (i : Instr) : ∃ r : CmdResult,
    exec i s = .next (s.completed r) ∧ exec i s' = .next (s'.completed r) := by
  cases i with
  | nop => exact complete_same rfl
  | fldi | fldc | pinf => exact h.completeCurve_same fun E => rfl
  | fmov | fsqr | fneg | finv | fissq | fsqrt | fsgn | fadd | fsub | fmul | fpow | feq | fcsel | pmk
  | sswu => exact h.completeCurve_same fun E => by simp only [h.fv_eq]
  | pvalid | px | py | pisinf | pmov | pdbl | pclr | padd | peq =>
    exact h.completeCurve_same fun E => by simp only [h.pv_eq]
  | pmul => exact h.completeCurve_same fun E => by simp only [h.pv_eq, h.fv_eq]
  | fenc => exact complete_same (congrArg _ (h.withCurve_eq fun E => by simp only [h.fv_eq]))
  | fdec => exact complete_same (congrArg _ (h.withCurve_eq fun E => by simp only [h.bufRead_eq]))
  | h2b | h2c => exact h.completeCurve_same fun E => by simp only [h.withMessage_eq]

end SameInputs

/-- Settles O37: the parts of the state that a command reads decide its answer. -/
theorem commandsArePureFunctions : Obligations.CommandsArePureFunctions :=
  fun i _ _ hentry hf hp hbuf hmsglen => SameInputs.exec_same ⟨hentry, hf, hp, hbuf, hmsglen⟩ i

end Sys2Proof.Machine

/-! ## The control and status registers (10_state.md R33 to R42) -/

namespace Sys2Proof.Machine

open Sys2Proof.Config Sys2Proof.Claims

/-! ### A host write to a control register, with the reset input released -/

section Writes

variable {s : State}

theorem write_ctrl (hreset : s.resetIn = false) (v : Word) :
    applyEvent s (.write (wordAt 0x0004) v) = .next (writeCtrl s v) :=
  congrArg _ (busWrite_place (l := .ctrl) (by decide) hreset v)

theorem write_status (hreset : s.resetIn = false) (v : Word) :
    applyEvent s (.write (wordAt 0x0008) v) = .next (s.writeStatus v) :=
  congrArg _ (busWrite_place (l := .status) (by decide) hreset v)

theorem write_cmd (hreset : s.resetIn = false) (w : Word) :
    applyEvent s (.write (wordAt 0x0018) w) = .next (writeCmd s w) :=
  congrArg _ (busWrite_place (l := .cmd) (by decide) hreset w)

theorem write_curveSel (hreset : s.resetIn = false) (v : Word) :
    applyEvent s (.write (wordAt 0x001C) v) =
      .next (dataWrite s { s with curveSel := v.setWidth 4 }) :=
  congrArg _ (busWrite_place (l := .curveSel) (by decide) hreset v)

theorem write_msglen (hreset : s.resetIn = false) (v : Word) :
    applyEvent s (.write (wordAt 0x0020) v) =
      .next (dataWrite s { s with msglen := v.setWidth 11 }) :=
  congrArg _ (busWrite_place (l := .msglen) (by decide) hreset v)

/-- A place that ignores writes does so under the reset input too. -/
theorem write_ignored {addr : WordAddr} {v : Word} (hl : writePlace s v (placeOf addr) = s) :
    applyEvent s (.write addr v) = .next s := by
  refine congrArg Host.Outcome.next ?_
  cases hreset : s.resetIn with
  | true => rw [busWrite, if_pos hreset]
  | false => rw [busWrite_place rfl hreset, hl]

/-- An idle unit with ERR = 0 accepts (10_state.md R49). -/
theorem writeCmd_accepted (hbusy : s.status.busy = false) (herr : s.status.err = false) (w : Word) :
    writeCmd s w = acceptCommand s w := by
  rw [writeCmd, hbusy, herr]; rfl

end Writes

/-! ### CMDCNT -/

/-- Without an error before it, a completion either counts and leaves ERR = 0, or raises ERR and does not
count. -/
theorem completed_cmdcnt {s : State} (herr : s.status.err = false) (r : CmdResult) :
    ((s.completed r).status.err = false ∧ (s.completed r).cmdcnt = s.cmdcnt + 1#32) ∨
      ((s.completed r).status.err = true ∧ (s.completed r).cmdcnt = s.cmdcnt) := by
  cases r with
  | ok w => exact .inl (by simp [herr])
  | error e => exact .inr (by simp)

/-- Settles O40, from the two ways a word completes and the address of CMDCNT. -/
theorem cmdcntCountsSuccesses : Obligations.CmdcntCountsSuccesses := by
  refine ⟨fun s t w herr ht => ?_, fun s w hreset hbad => ?_, fun s v => ?_, fun s hreset => ?_, rfl⟩
  · obtain ⟨r, hr⟩ := completeWord_completes w s
    obtain rfl : s.completed r = t := Host.Outcome.next.inj (hr.symm.trans ht)
    obtain ⟨hok, hcnt⟩ | ⟨hfail, hcnt⟩ := completed_cmdcnt herr r
    · exact ⟨fun _ => by rw [hcnt, BitVec.toNat_add]; rfl, fun h => Bool.noConfusion (hok.symm.trans h)⟩
    · exact ⟨fun h => Bool.noConfusion (hfail.symm.trans h), fun _ => hcnt⟩
  · refine ⟨_, write_cmd hreset w, ?_⟩
    obtain ⟨hbusy, herr, -⟩ | ⟨-, hdrop⟩ := writeCmd_cases s w
    · rw [hbusy, herr] at hbad; simp at hbad
    · rw [hdrop, dropped_cmdcnt]
  · exact write_ignored rfl
  · exact congrArg _ (busRead_defined (l := .cmdcnt) (by decide) hreset (by simp [Place.inWindow]))

/-! ### STATUS -/

/-- Settles O51: the write clears bit by bit, and with ERR cleared the idle unit accepts. -/
theorem statusWritesClear : Obligations.StatusWritesClear := by
  intro s v hreset
  refine ⟨?_, fun hbusy hclear w => ?_⟩
  · rw [write_status hreset, State.writeStatus]
    cases v.getLsbD 1 <;> cases v.getLsbD 2 <;> cases v.getLsbD 3 <;> simp
  · have haccept : writeCmd (s.writeStatus v) w = acceptCommand (s.writeStatus v) w :=
      writeCmd_accepted (s := s.writeStatus v) hbusy (by rw [writeStatus_status, hclear]; simp) w
    refine ⟨_, _, write_status hreset v, write_cmd (s := s.writeStatus v) hreset w, ?_⟩
    simp [haccept]

/-! ### ID -/

/-- Settles O49: ID lies in no window and its read is defined in every state. -/
theorem idIsConstant : Obligations.IdIsConstant := by
  intro s v
  have hplace : placeOf (wordAt 0x0000) = .id := by decide
  have hdefined : readUnspecified s .id = false := by simp [readUnspecified, Place.inWindow]
  refine ⟨congrArg Host.Outcome.next ?_, write_ignored (by rw [hplace]; rfl)⟩
  simp only [busRead, hplace, hdefined]
  rfl

/-! ### CTRL, CURVE_SEL and MSGLEN -/

/-- Settles O50: each write lands on its register, and the low bits are stored. -/
theorem controlWritesStoreTheirBits : Obligations.ControlWritesStoreTheirBits := by
  intro s v hreset
  refine ⟨fun hsrst => ?_, fun hbusy => ?_, fun hbusy => ?_⟩
  · rw [write_ctrl hreset, writeCtrl, hsrst]; rfl
  · rw [write_curveSel hreset, dataWrite_idle hbusy, BitVec.setWidth_eq_extractLsb' (by decide)]
  · rw [write_msglen hreset, dataWrite_idle hbusy, BitVec.setWidth_eq_extractLsb' (by decide)]

end Sys2Proof.Machine

/-! ## The derived constants (10_state.md R46) -/

namespace Sys2Proof.Machine

open Sys2Proof.Config

section Registry

variable {tags : Tags} {id : BitVec 4} {E : Curve}

/-- c1 solves `c1*A = -B`. -/
theorem curveC1_equation (hE : registry tags id = some E) :
    ((curveC1 E : Int) * E.a + E.b) % (E.p : Int) = 0 := by
  have := Fact.mk (registry_prime hE)
  have ha := registry_a_ne_zero hE
  rw [emod_eq_zero_iff]
  push_cast
  rw [cast_curveC1 hE]
  field_simp
  ring

/-- c2 solves `c2*Z = -1`. -/
theorem curveC2_equation (hE : registry tags id = some E) :
    ((curveC2 E : Int) * E.z + 1) % (E.p : Int) = 0 := by
  have := Fact.mk (registry_prime hE)
  have hz := registry_z_ne_zero hE
  rw [emod_eq_zero_iff]
  push_cast
  rw [cast_curveC2 hE]
  field_simp
  ring

end Registry

/-- Settles O17: the listed values by evaluation, the equations from those of every present entry. -/
theorem derivedConstants : Obligations.DerivedConstants := by
  refine ⟨by decide +kernel, by decide +kernel, by decide +kernel, by decide +kernel,
    by decide +kernel, by decide +kernel, by decide +kernel, by decide +kernel, fun E hmem => ?_⟩
  obtain ⟨id, hE⟩ : ∃ id, registry defaultTags id = some E := by
    simp only [List.mem_cons, List.not_mem_nil, or_false] at hmem
    obtain rfl | rfl := hmem
    · exact ⟨_, registry_default.1⟩
    · exact ⟨_, registry_default.2⟩
  exact ⟨registry_p_mod_four hE, rfl, rfl, rfl, curveC1_equation hE, curveC2_equation hE⟩

end Sys2Proof.Machine

/-! ## The step -/

namespace Sys2Proof.Machine

/-- On the last cycle of its latency a legal command in flight runs. -/
theorem clockCycle_runs {s : State} {c : InFlight} {i : Instr} (hreset : s.resetIn = false)
    (hflight : s.inflight = some c) (hlast : c.latency ≤ c.elapsed + 1)
    (hdecode : decode c.word = .ok i) : clockCycle s = exec i s := by
  obtain ⟨-, hheld | hnone⟩ | ⟨c', -, hflight', ⟨hearly, -⟩ | ⟨-, hrun⟩⟩ := clockCycle_cases s
  · rw [hreset] at hheld; cases hheld
  · rw [hflight] at hnone; cases hnone
  · obtain rfl : c = c' := Option.some.inj (hflight.symm.trans hflight')
    omega
  · obtain rfl : c = c' := Option.some.inj (hflight.symm.trans hflight')
    rw [hrun, completeWord_ok hdecode]

/-- With no move to come, taking one changes nothing. -/
theorem popMove_empty {s : State} (h : s.sched = []) : s.popMove = s := by
  rw [State.popMove, h, List.tail_nil, ← h]

/-- Settles O58: a step is its one move, and the last cycle of a legal command runs it. -/
theorem stepRunsDecodedCommand : Obligations.StepRunsDecodedCommand := by
  refine ⟨fun s c i hreset hevent hflight hlast hdecode => ?_, fun s e rest hsched => ?_,
    fun s hsched => ?_⟩
  · rw [step, hevent]
    exact clockCycle_runs (s := s.popMove) hreset hflight hlast hdecode
  · rw [step, nextEvent, State.popMove, hsched]; rfl
  · rw [step, nextEvent, popMove_empty hsched, hsched]

end Sys2Proof.Machine

/-! ## The bus by byte offset (20_memory.md R70 to R81)

Where each aligned offset lands, and what an access there does to a unit out of reset. -/

namespace Sys2Proof.Machine

open Sys2Proof.Config Sys2Proof.Claims

/-! ### The place of an offset -/

theorem wordAt_toNat {offset : Nat} (h : offset < 0x10000) :
    (wordAt offset).toNat = offset / 4 := by
  rw [wordAt, BitVec.toNat_ofNat]
  omega

theorem placeOf_fieldOffset (i : FReg) {j : Nat} (hj : j ≤ 31) :
    placeOf (wordAt (0x1000 + 0x80 * i.val + 4 * j)) = .field i j := by
  have hi := i.isLt
  exact placeOf_field hj (by rw [wordAt_toNat (by omega)]; omega)

theorem placeOf_pointOffset (k : PReg) {j : Nat} (hj : j ≤ 63) :
    placeOf (wordAt (0x2000 + 0x100 * k.val + 4 * j)) = .point k j := by
  have hk := k.isLt
  exact placeOf_point hj (by rw [wordAt_toNat (by omega)]; omega)

theorem placeOf_bufOffset {w : Nat} (hw : w ≤ 255) : placeOf (wordAt (0x4000 + 4 * w)) = .buf w :=
  placeOf_buf hw (by rw [wordAt_toNat (by omega)]; omega)

theorem placeOf_outsideWindows {offset : Nat} (hlt : offset < 0x10000) (h : outsideWindows offset) :
    placeOf (wordAt offset) = controlPlace (offset / 4) := by
  unfold outsideWindows at h
  rw [placeOf_control (by rw [wordAt_toNat hlt]; omega), wordAt_toNat hlt]

theorem placeOf_reserved {offset : Nat} (h : isReserved offset) :
    placeOf (wordAt offset) = .reserved := by
  unfold isReserved at h
  rw [placeOf_outsideWindows (by omega) (by unfold outsideWindows; omega),
    controlPlace_reserved (by omega)]

/-- An aligned offset that holds data is a word of one of the three windows. -/
theorem inWindow_of_holdsData {offset : Nat} (halign : offset % 4 = 0) (h : holdsData offset) :
    (placeOf (wordAt offset)).inWindow = true := by
  obtain ⟨hlo, hhi, -⟩ | ⟨hlo, hhi, -⟩ | ⟨hlo, hhi⟩ := h
  · have hoff : offset = 0x1000 + 0x80 * ((offset - 0x1000) / 0x80) +
        4 * (offset % 0x80 / 4) := by omega
    have hi : (offset - 0x1000) / 0x80 < 16 := by omega
    rw [hoff, placeOf_fieldOffset ⟨_, hi⟩ (by omega)]; rfl
  · have hoff : offset = 0x2000 + 0x100 * ((offset - 0x2000) / 0x100) +
        4 * (offset % 0x100 / 4) := by omega
    have hk : (offset - 0x2000) / 0x100 < 8 := by omega
    rw [hoff, placeOf_pointOffset ⟨_, hk⟩ (by omega)]; rfl
  · have hoff : offset = 0x4000 + 4 * ((offset - 0x4000) / 4) := by omega
    rw [hoff, placeOf_bufOffset (by omega)]; rfl

/-! ### Accesses to a place -/

section Accesses

variable {s : State} {addr : WordAddr} {l : Place}

/-- A control or status register reads its value at all times (20_memory.md R81). -/
theorem read_outsideWindows (hplace : placeOf addr = l) (hreset : s.resetIn = false)
    (hl : l.inWindow = false) :
    applyEvent s (.read addr) = .next { s with rdata := some (readPlace s l) } :=
  congrArg _ (busRead_defined hplace hreset (by rw [hl, Bool.and_false]))

/-- Every place of an idle unit reads its value. -/
theorem read_idle (hplace : placeOf addr = l) (hreset : s.resetIn = false)
    (hbusy : s.status.busy = false) :
    applyEvent s (.read addr) = .next { s with rdata := some (readPlace s l) } :=
  congrArg _ (busRead_defined hplace hreset (by rw [hbusy, Bool.false_and]))

theorem write_place (hplace : placeOf addr = l) (hreset : s.resetIn = false) (v : Word) :
    applyEvent s (.write addr v) = .next (writePlace s v l) :=
  congrArg _ (busWrite_place hplace hreset v)

/-- Any read gives some word: the place's value, or a free one. -/
theorem busRead_rdata (s : State) (addr : WordAddr) :
    ∃ word, (busRead s addr).rdata = some word := by
  rw [busRead]
  split <;> exact ⟨_, rfl⟩

/-- Of the control window, only CTRL, STATUS, CMD, CURVE_SEL and MSGLEN take writes. -/
theorem writePlace_controlPlace_ignored (s : State) (v : Word) {n : Nat}
    (h : n ∉ [1, 2, 6, 7, 8]) : writePlace s v (controlPlace n) = s := by
  simp only [List.mem_cons, List.not_mem_nil, or_false, not_or] at h
  obtain ⟨hctrl, hstatus, hcmd, hcurve, hmsglen⟩ := h
  unfold controlPlace
  rw [if_neg hctrl, if_neg hstatus, if_neg hcmd, if_neg hcurve, if_neg hmsglen]
  split_ifs <;> rfl

/-- While BUSY = 1 every word of a data window drops its write (20_memory.md R80; log 13). -/
theorem writePlace_window_busy (hbusy : s.status.busy = true) (v : Word) (hl : l.inWindow = true) :
    writePlace s v l = s.dropped := by
  cases l with
  | field i j => exact dataWrite_busy hbusy _
  | point k j => exact dataWrite_busy hbusy _
  | buf w => exact dataWrite_busy hbusy _
  | id | ctrl | status | errcode | errinfo | errcmd | cmd | curveSel | msglen | cmdcnt | reserved =>
    cases hl

end Accesses

/-! ### Writing back what a register holds -/

theorem setF_getElem_self (s : State) (i : FReg) : s.setF i s.f[i] = s := by
  simp [State.setF]

theorem setP_getElem_self (s : State) (k : PReg) : s.setP k s.p[k] = s := by
  simp [State.setP]

/-! ### Drops, and reserved offsets -/

/-- Settles O42: the windows, CURVE_SEL, MSGLEN and CMD drop, the rest of the control window
ignores. -/
theorem busyWritesAreDropped : Obligations.BusyWritesAreDropped := by
  intro s offset v hreset hbusy hlt halign
  refine ⟨?_, fun hout hnot => ?_⟩
  · rintro (hdata | rfl | rfl | rfl)
    · rw [write_place rfl hreset,
        writePlace_window_busy hbusy v (inWindow_of_holdsData halign hdata)]
      rfl
    · rw [write_curveSel hreset, dataWrite_busy hbusy]; rfl
    · rw [write_msglen hreset, dataWrite_busy hbusy]; rfl
    · rw [write_cmd hreset, writeCmd, hbusy]; rfl
  · refine write_ignored ?_
    rw [placeOf_outsideWindows hlt hout]
    refine writePlace_controlPlace_ignored s v ?_
    simp only [List.mem_cons, List.not_mem_nil, or_false, not_or] at hnot ⊢
    omega

/-- Settles O48: the place is `reserved`, which lies in no window. -/
theorem reservedOffsetsReadZero : Obligations.ReservedOffsetsReadZero := by
  intro s offset v hreset hoff _
  have hplace := placeOf_reserved hoff
  exact ⟨read_outsideWindows hplace hreset rfl, write_ignored (by rw [hplace]; rfl)⟩

/-! ### The control and status registers, bit by bit (10_state.md R34, R35) -/

theorem bitAt_getLsbD {n : Nat} (hn : n < 32) (b : Bool) (k : Nat) :
    (bitAt n b).getLsbD k = (b && decide (k = n)) := by
  cases b with
  | false => simp [bitAt]
  | true =>
    rw [bitAt, if_pos rfl, ← BitVec.twoPow_eq, BitVec.getLsbD_twoPow, decide_eq_true hn]
    simp only [Bool.true_and, eq_comm]

theorem ctrlWord_getLsbD (c : Ctrl) (k : Nat) :
    c.toWord.getLsbD k = ((c.doneie && decide (k = 0)) || (c.errie && decide (k = 1))) := by
  simp [Ctrl.toWord, bitAt_getLsbD]

theorem statusWord_getLsbD (t : Status) (k : Nat) :
    t.toWord.getLsbD k = ((t.busy && decide (k = 0)) || (t.done && decide (k = 1)) ||
      (t.err && decide (k = 2)) || (t.drop && decide (k = 3))) := by
  simp [Status.toWord, bitAt_getLsbD]

/-- The registers other than CTRL, STATUS and ID read their field, zero-extended. -/
theorem read_register {s : State} {offset : Nat} {value : Word} (hreset : s.resetIn = false)
    (h : (offset, value) ∈ [(0x000C, s.errcode.setWidth 32), (0x0010, s.errinfo.setWidth 32),
      (0x0014, s.errcmd), (0x0018, 0#32), (0x001C, s.curveSel.setWidth 32),
      (0x0020, s.msglen.setWidth 32), (0x0024, s.cmdcnt)]) :
    applyEvent s (.read (wordAt offset)) = .next { s with rdata := some value } := by
  simp only [List.mem_cons, List.not_mem_nil, or_false, Prod.mk.injEq] at h
  obtain ⟨rfl, rfl⟩ | ⟨rfl, rfl⟩ | ⟨rfl, rfl⟩ | ⟨rfl, rfl⟩ | ⟨rfl, rfl⟩ | ⟨rfl, rfl⟩ |
    ⟨rfl, rfl⟩ := h <;>
    exact read_outsideWindows rfl hreset rfl

/-- Settles O44: the frame of a read, and the value of each register. -/
theorem readsChangeNothing : Obligations.ReadsChangeNothing := by
  intro s offset _ _
  refine ⟨?_, fun hreset value => read_register hreset, fun hreset => ?_, fun hreset => ?_⟩
  · obtain ⟨word, hword⟩ := busRead_rdata s (wordAt offset)
    exact ⟨word, _, congrArg _ (hword ▸ busRead_frame s (wordAt offset))⟩
  · refine ⟨_, read_outsideWindows (l := .ctrl) (by decide) hreset rfl, ?_, ?_, fun n hn => ?_⟩ <;>
      rw [readPlace, ctrlWord_getLsbD]
    · simp
    · simp
    · simp [show n ≠ 0 by omega, show n ≠ 1 by omega]
  · refine ⟨_, read_outsideWindows (l := .status) (by decide) hreset rfl, ?_, ?_, ?_, ?_,
      fun n hn => ?_⟩ <;> rw [readPlace, statusWord_getLsbD]
    · simp
    · simp
    · simp
    · simp
    · simp [show n ≠ 0 by omega, show n ≠ 1 by omega, show n ≠ 2 by omega, show n ≠ 3 by omega]

/-! ### The F window (20_memory.md R72) -/

/-- An idle write to word `j` of the block of Fi. -/
theorem write_fieldWord {s : State} (hreset : s.resetIn = false) (hbusy : s.status.busy = false)
    (i : FReg) {j : Nat} (hj : j ≤ 31) (v : Word) :
    applyEvent s (.write (wordAt (0x1000 + 0x80 * i.val + 4 * j)) v) =
      .next (s.setF i (withWord s.f[i] j v)) := by
  rw [write_place (placeOf_fieldOffset i hj) hreset, writePlace, dataWrite_idle hbusy]

/-- Settles O45, from the bits of `wordOf` and `withWord`. -/
theorem fieldWindowMapsWords : Obligations.FieldWindowMapsWords := by
  intro s i j v hreset hbusy hj
  refine ⟨⟨_, read_idle (placeOf_fieldOffset i hj) hreset hbusy, fun n => wordOf_getLsbD _⟩,
    fun hword => ⟨_, write_fieldWord hreset hbusy i hj v, fun n => withWord_getLsbD _ v hword⟩,
    fun hpast => ?_⟩
  rw [write_fieldWord hreset hbusy i hj, withWord_past v hpast, setF_getElem_self]

/-! ### The P window (20_memory.md R73) -/

/-- Bit `n` of a word that holds data. -/
theorem wordOf_getLsbD_of_le (v : FieldWord) {j n : Nat} (hj : j ≤ 16) (hn : n < 32) :
    (wordOf v j).getLsbD n = v.getLsbD (32 * j + n) := by
  rw [wordOf_getLsbD v hn, decide_eq_true hj, Bool.true_and]

theorem pointWordOf_x (q : Point) {j : Nat} (hj : j ≤ 16) : pointWordOf q j = wordOf q.x j :=
  if_pos hj

theorem pointWordOf_y (q : Point) {j : Nat} (hj : j ≤ 16) :
    pointWordOf q (32 + j) = wordOf q.y j := by
  rw [pointWordOf, if_neg (by omega), if_pos (by omega), Nat.add_sub_cancel_left]

theorem pointWordOf_inf (q : Point) : pointWordOf q 63 = if q.inf then 1#32 else 0#32 := rfl

/-- The words of a P block that hold nothing. -/
theorem pointWordOf_unused (q : Point) {j : Nat} (hj : (17 ≤ j ∧ j ≤ 31) ∨ (49 ≤ j ∧ j ≤ 62)) :
    pointWordOf q j = 0#32 := by
  rw [pointWordOf, if_neg (by omega), if_neg (by omega), if_neg (by omega)]

theorem pointWithWord_x (q : Point) {j : Nat} (hj : j ≤ 16) (v : Word) :
    pointWithWord q j v = { q with x := withWord q.x j v } :=
  if_pos hj

theorem pointWithWord_y (q : Point) {j : Nat} (hj : j ≤ 16) (v : Word) :
    pointWithWord q (32 + j) v = { q with y := withWord q.y j v } := by
  rw [pointWithWord, if_neg (by omega), if_pos (by omega), Nat.add_sub_cancel_left]

theorem pointWithWord_inf (q : Point) (v : Word) :
    pointWithWord q 63 v = { q with inf := v.getLsbD 0 } := rfl

theorem pointWithWord_unused (q : Point) {j : Nat} (hj : (17 ≤ j ∧ j ≤ 31) ∨ (49 ≤ j ∧ j ≤ 62))
    (v : Word) : pointWithWord q j v = q := by
  rw [pointWithWord, if_neg (by omega), if_neg (by omega), if_neg (by omega)]

/-- Y stands 32 words after X. -/
theorem pointOffset_y (k : PReg) (j : Nat) :
    0x2000 + 0x100 * k.val + 0x80 + 4 * j = 0x2000 + 0x100 * k.val + 4 * (32 + j) := by omega

section PointAccesses

variable {s : State} (hreset : s.resetIn = false) (hbusy : s.status.busy = false) (k : PReg)
  {j : Nat}

include hreset hbusy

/-- An idle read of word `j` of the block of Pk. -/
theorem read_pointWord (hj : j ≤ 63) :
    applyEvent s (.read (wordAt (0x2000 + 0x100 * k.val + 4 * j))) =
      .next { s with rdata := some (pointWordOf s.p[k] j) } :=
  read_idle (placeOf_pointOffset k hj) hreset hbusy

/-- An idle write to word `j` of the block of Pk. -/
theorem write_pointWord (hj : j ≤ 63) (v : Word) :
    applyEvent s (.write (wordAt (0x2000 + 0x100 * k.val + 4 * j)) v) =
      .next (s.setP k (pointWithWord s.p[k] j v)) := by
  rw [write_place (placeOf_pointOffset k hj) hreset, writePlace, dataWrite_idle hbusy]

end PointAccesses

/-- Settles O46: the accesses at word `j` for X, `32 + j` for Y, 63 for INF, and at the unused
words. -/
theorem pointWindowMapsWords : Obligations.PointWindowMapsWords := by
  intro s k j v hreset hbusy
  refine ⟨fun hj => ⟨?_, ?_, ?_, ?_⟩, ?_, ?_, fun hunused => ⟨?_, ?_⟩⟩
  · refine ⟨wordOf s.p[k].x j, ?_, fun n => wordOf_getLsbD_of_le _ hj⟩
    rw [read_pointWord hreset hbusy k (by omega), pointWordOf_x _ hj]
  · refine ⟨wordOf s.p[k].y j, ?_, fun n => wordOf_getLsbD_of_le _ hj⟩
    rw [pointOffset_y, read_pointWord hreset hbusy k (by omega), pointWordOf_y _ hj]
  · refine ⟨withWord s.p[k].x j v, ?_, fun n => withWord_getLsbD _ v hj⟩
    rw [write_pointWord hreset hbusy k (by omega), pointWithWord_x _ hj, State.setP]
  · refine ⟨withWord s.p[k].y j v, ?_, fun n => withWord_getLsbD _ v hj⟩
    rw [pointOffset_y, write_pointWord hreset hbusy k (by omega), pointWithWord_y _ hj, State.setP]
  · exact read_pointWord (j := 63) hreset hbusy k (by decide)
  · exact write_pointWord (j := 63) hreset hbusy k (by decide) v
  · rw [read_pointWord hreset hbusy k (by omega), pointWordOf_unused _ hunused]
  · rw [write_pointWord hreset hbusy k (by omega), pointWithWord_unused _ hunused,
      setP_getElem_self]

/-! ### The BUF window (20_memory.md R74) -/

/-- Lane `k` of a word, among the bytes a BUF-window write stores. -/
theorem lanes_getElem (v : Word) {k : Nat} (hk : k < 4) :
    [v.extractLsb' 0 8, v.extractLsb' 8 8, v.extractLsb' 16 8, v.extractLsb' 24 8][k] =
      v.extractLsb' (8 * k) 8 := by
  match k, hk with
  | 0, _ | 1, _ | 2, _ | 3, _ => rfl

/-- The bytes of BUF after a write of word `w`: lane `k` at `4w + k`, and every other byte as
before. -/
theorem read_bufWithWord {m : Memory} {w : Nat} (v : Word) (hm : Memory.wf m = true) (hw : w ≤ 255)
    (a : Nat) : Memory.read (bufWithWord m w v) a =
      if 4 * w ≤ a ∧ a < 4 * w + 4 then v.extractLsb' (8 * (a - 4 * w)) 8 else Memory.read m a := by
  rw [bufWithWord,
    Memory.read_writeBytes hm (by simp only [List.length_cons, List.length_nil]; omega)]
  simp only [List.length_cons, List.length_nil, Nat.zero_add, Nat.reduceAdd]
  by_cases hin : 4 * w ≤ a ∧ a < 4 * w + 4
  · rw [dif_pos hin, if_pos hin, lanes_getElem v (by omega)]
  · rw [dif_neg hin, if_neg hin]

/-- Settles O47: the read is `bufWordOf`, and the bytes after the write are those of
`read_bufWithWord`. -/
theorem bufferWindowPacksBytes : Obligations.BufferWindowPacksBytes := by
  intro s w v hreset hbusy hwf hw
  refine ⟨read_idle (placeOf_bufOffset hw) hreset hbusy, bufWithWord s.buf w v, ?_, fun k hk => ?_,
    fun a ha => ?_⟩
  · rw [write_place (placeOf_bufOffset hw) hreset, writePlace, dataWrite_idle hbusy]
  · rw [read_bufWithWord v hwf hw, if_pos (by omega), Nat.add_sub_cancel_left]
  · rw [read_bufWithWord v hwf hw, if_neg ha]

end Sys2Proof.Machine

/-! ## The round trip of the encoding (30_encoding.md R101 to R114, R121) -/

namespace Sys2Proof

/-! ### A form whose checks pass -/

theorem decodeF_of_lowZero {n : Nat} {w : Word} (h : lowZero n w = true) (i : Instr) :
    decodeF n w i = .ok i := by
  rw [decodeF, check, if_pos h]

theorem decodeP_of_pOk {n : Nat} {w : Word} {ps : List (BitVec 4)} (h : lowZero n w = true)
    (hps : ps.all pOk = true) (i : Instr) : decodeP n w ps i = .ok i := by
  rw [decodeP, check, if_pos h, check, if_pos hps]

theorem decodeB_of_range {w : Word} (h : lowZero 4 w = true)
    (hrange : bufRangeOk (fieldOff w) (fieldLen w) = true) (i : Instr) : decodeB w i = .ok i := by
  rw [decodeB, check, if_pos h, check, if_pos hrange]

theorem decodeC_of_constOf {w : Word} {k : CurveConst} (h : lowZero 18 w = true)
    (hk : constOf (fieldA w) = some k) : decodeC w = .ok (.fldc (fReg (fieldD w)) k) := by
  rw [decodeC, check, if_pos h, hk]

/-- Decoding inverts encoding: the decoder reads back the fields that the encoder places, format by
format (30_encoding.md R101 to R106). -/
theorem decode_encode {i : Instr} (hwf : i.wellFormed = true) : decode (encode i) = .ok i := by
  cases i with
  | nop => rfl
  | fmov | fsqr | fneg | finv | fissq | fsqrt | fsgn =>
    simp [encode, decode_fmov, decode_fsqr, decode_fneg, decode_finv, decode_fissq, decode_fsqrt,
      decode_fsgn, decodeF_of_lowZero]
  | fadd | fsub | fmul | fpow | feq =>
    simp [encode, decode_fadd, decode_fsub, decode_fmul, decode_fpow, decode_feq, decodeF_of_lowZero]
  | fcsel => simp [encode, decode_fcsel, decodeF_of_lowZero]
  | fldi => simp [encode, decode_fldi]
  | fldc d sel =>
    have hsel : constOf (fieldA (formC 0x0F#6 (fBits d) (constBits sel))) = some sel := by simp
    rw [encode, decode_fldc (opcodeOf_formC ..), decodeC_of_constOf (lowZero_formC ..) hsel]
    simp
  | fenc r off len | fdec r off len =>
    have hrange : bufRangeOk off len = true := hwf
    simp [encode, decode_fenc, decode_fdec, decodeB_of_range, hrange]
  | pdbl | pvalid | pclr | px | py | pisinf | pmov | sswu =>
    simp [encode, decode_pdbl, decode_pvalid, decode_pclr, decode_px, decode_py, decode_pisinf,
      decode_pmov, decode_sswu, decodeP_of_pOk]
  | padd | pmul | pmk | peq =>
    simp [encode, decode_padd, decode_pmul, decode_pmk, decode_peq, decodeP_of_pOk]
  | pinf | h2c => simp [encode, decode_pinf, decode_h2c, decodeP_of_pOk]
  | h2b => simp [encode, decode_h2b, decodeF_of_lowZero]

/-- Settles O1: the round trip, format by format. -/
theorem decodeOfEncode : Obligations.DecodeOfEncode := fun _ hwf => decode_encode hwf

end Sys2Proof

/-! ## The tests of the decoder as a table (30_encoding.md R108, R113, R114)

The decoder at every opcode of the map is one chain of three tests on the bits of the word. Said once
for all 33 opcodes, with the word rebuilt when the chain passes, it gives the converse of the round trip,
the opcode map and the order of the checks. -/

namespace Sys2Proof

open Sys2Proof.Claims Sys2Proof.Machine

/-! ### The tests on the bits of a word -/

/-- The low `n` bits as a mask. -/
def lowMask (n : Nat) : Word := BitVec.ofNat 32 (2 ^ n - 1)

/-- The listed bits as a mask. -/
def bitMask (bits : List Nat) : Word := bits.foldr (fun j m => BitVec.twoPow 32 j ||| m) 0#32

theorem lowZero_iff {n : Nat} (hn : n ≤ 32) (w : Word) : lowZero n w = true ↔ w &&& lowMask n = 0#32 := by
  have hmask : (lowMask n).toNat = 2 ^ n - 1 := by
    have := Nat.pow_le_pow_right (n := 2) (by decide) hn
    rw [lowMask, BitVec.toNat_ofNat, Nat.mod_eq_of_lt (by omega)]
  rw [lowZero, beq_iff_eq, ← BitVec.toNat_inj, ← BitVec.toNat_inj, BitVec.extractLsb'_toNat,
    BitVec.toNat_and, hmask, Nat.and_two_pow_sub_one_eq_mod, Nat.shiftRight_zero]
  simp

theorem and_bitMask_iff {bits : List Nat} (hbits : ∀ j ∈ bits, j < 32) (w : Word) :
    w &&& bitMask bits = 0#32 ↔ (bits.all fun j => !w.getLsbD j) = true := by
  induction bits with
  | nil => simp [bitMask]
  | cons j bits ih =>
    obtain ⟨hj, hbits⟩ := List.forall_mem_cons.mp hbits
    have htop : w &&& BitVec.twoPow 32 j = 0#32 ↔ (!w.getLsbD j) = true := by
      rw [BitVec.and_twoPow]
      have hne : BitVec.twoPow 32 j ≠ 0#32 := fun h => by
        simpa [hj] using congrArg (BitVec.getLsbD · j) h
      cases w.getLsbD j <;> simp [hne]
    rw [List.all_cons, Bool.and_eq_true, ← ih hbits, ← htop, bitMask, List.foldr_cons,
      BitVec.and_or_distrib_left, BitVec.or_eq_zero_iff]
    rfl

theorem pOk_fieldD (w : Word) : pOk (fieldD w) = !w.getLsbD 25 := by
  simp [pOk, fieldD, BitVec.msb_eq_getLsbD_last]

theorem pOk_fieldA (w : Word) : pOk (fieldA w) = !w.getLsbD 21 := by
  simp [pOk, fieldA, BitVec.msb_eq_getLsbD_last]

theorem pOk_fieldB (w : Word) : pOk (fieldB w) = !w.getLsbD 17 := by
  simp [pOk, fieldB, BitVec.msb_eq_getLsbD_last]

/-- No bit below bit 0 is tested. -/
theorem lowZero_zero (w : Word) : lowZero 0 w = true :=
  beq_iff_eq.mpr (Subsingleton.elim _ _)

/-! ### The table -/

/-- What the decoder tests at an opcode of the map: that the low bits are 0, and the top bits of the
P-typed fields. -/
structure OpcodeTests where
  op : BitVec 6
  mnemonic : String
  /-- how many low bits must be 0 -/
  low : Nat
  /-- the positions of the top bits of the P-typed fields -/
  tops : List Nat

/-- The lines of the MAU, opcodes 0x00 to 0x11 (30_encoding.md R108, R113). -/
def mauTests : List OpcodeTests :=
  [⟨0x00#6, "NOP", 26, []⟩, ⟨0x01#6, "FMOV", 18, []⟩, ⟨0x02#6, "FLDI", 0, []⟩,
   ⟨0x03#6, "FADD", 14, []⟩, ⟨0x04#6, "FSUB", 14, []⟩, ⟨0x05#6, "FMUL", 14, []⟩,
   ⟨0x06#6, "FSQR", 18, []⟩, ⟨0x07#6, "FNEG", 18, []⟩, ⟨0x08#6, "FINV", 18, []⟩,
   ⟨0x09#6, "FPOW", 14, []⟩, ⟨0x0A#6, "FISSQ", 18, []⟩, ⟨0x0B#6, "FSQRT", 18, []⟩,
   ⟨0x0C#6, "FSGN", 18, []⟩, ⟨0x0D#6, "FEQ", 14, []⟩, ⟨0x0E#6, "FCSEL", 10, []⟩,
   ⟨0x0F#6, "FLDC", 18, []⟩, ⟨0x10#6, "FENC", 4, []⟩, ⟨0x11#6, "FDEC", 4, []⟩]

/-- The lines of the ECGE, opcodes 0x20 to 0x2B (30_encoding.md R108, R113). -/
def ecgeTests : List OpcodeTests :=
  [⟨0x20#6, "PADD", 14, [25, 21, 17]⟩, ⟨0x21#6, "PDBL", 18, [25, 21]⟩, ⟨0x22#6, "PVALID", 18, [21]⟩,
   ⟨0x23#6, "PCLR", 18, [25, 21]⟩, ⟨0x24#6, "PMUL", 14, [25, 21]⟩, ⟨0x25#6, "PMK", 14, [25]⟩,
   ⟨0x26#6, "PX", 18, [21]⟩, ⟨0x27#6, "PY", 18, [21]⟩, ⟨0x28#6, "PINF", 22, [25]⟩,
   ⟨0x29#6, "PISINF", 18, [21]⟩, ⟨0x2A#6, "PMOV", 18, [25, 21]⟩, ⟨0x2B#6, "PEQ", 14, [21, 17]⟩]

/-- The lines of the H2CM, opcodes 0x30 to 0x32 (30_encoding.md R108, R113). -/
def h2cmTests : List OpcodeTests :=
  [⟨0x30#6, "H2B", 21, []⟩, ⟨0x31#6, "SSWU", 18, [25]⟩, ⟨0x32#6, "H2C", 22, [25]⟩]

/-- One line per opcode of the map. -/
def opcodeTests : List OpcodeTests := mauTests ++ ecgeTests ++ h2cmTests

namespace OpcodeTests

/-- The row of the opcode map that makes the same tests. -/
def row (r : OpcodeTests) : OpcodeRow :=
  ⟨r.mnemonic, formR r.op 0#4 0#4 0#4 0#4, 0xFC000000#32 ||| lowMask r.low ||| bitMask r.tops⟩

/-- The info of the test on the values of fields. -/
def rangeError (r : OpcodeTests) : Illegal := if r.op = 0x0F#6 then .constSelector else .bufferRange

/-- The chain of tests, in the order of 30_encoding.md R114. -/
def run (r : OpcodeTests) (w : Word) (i : Instr) : Except Illegal Instr :=
  check (lowZero r.low w) .mustBeZero
    (check (r.tops.all fun j => !w.getLsbD j) .pointIndex
      (check (extraConstraint w) r.rangeError (.ok i)))

/-- Every test of the chain passes. -/
def Passes (r : OpcodeTests) (w : Word) : Prop :=
  lowZero r.low w = true ∧ (r.tops.all fun j => !w.getLsbD j) = true ∧ extraConstraint w = true

/-- The decoder runs the chain on the word, for an instruction of the row whose word this is. -/
def Reads (r : OpcodeTests) (w : Word) : Prop :=
  ∃ i : Instr, i.mnemonic = r.mnemonic ∧ decode w = r.run w i ∧
    (r.Passes w → encode i = w ∧ i.wellFormed = true)

end OpcodeTests

theorem opcodeMap_eq : opcodeMap = opcodeTests.map OpcodeTests.row := rfl

/-! ### The decoder's forms as chains of tests -/

section Forms

variable {w : Word} {r : OpcodeTests} {i : Instr}

theorem extraConstraint_plain (h : opcodeOf w = r.op)
    (hr : r.op ≠ 0x0F#6 ∧ r.op ≠ 0x10#6 ∧ r.op ≠ 0x11#6) : extraConstraint w = true := by
  simp [extraConstraint, h, hr]

theorem extraConstraint_fldc (h : opcodeOf w = 0x0F#6) :
    extraConstraint w = (constOf (fieldA w)).isSome := by
  rw [extraConstraint, if_pos h, constOf_isSome_iff]

theorem extraConstraint_buffer (h : opcodeOf w = 0x10#6 ∨ opcodeOf w = 0x11#6) :
    extraConstraint w = bufRangeOk (fieldOff w) (fieldLen w) := by
  have hne : opcodeOf w ≠ 0x0F#6 := by obtain h | h := h <;> rw [h] <;> decide
  rw [extraConstraint, if_neg hne, if_pos h, bufRangeOk]

theorem rangeError_buffer (hop : r.op = 0x10#6 ∨ r.op = 0x11#6) : r.rangeError = .bufferRange := by
  obtain h | h := hop <;> rw [OpcodeTests.rangeError, h] <;> rfl

/-- P-typed fields with bit 3 clear are the fields of the registers they name. -/
theorem pBits_pReg_of_all {ps : List (BitVec 4)} (h : ps.all pOk = true) :
    ∀ x ∈ ps, pBits (pReg x) = x :=
  fun x hx => pBits_pReg x (List.all_eq_true.mp h x hx)

/-- A form with P-typed fields. -/
theorem reads_decodeP {ps : List (BitVec 4)} (hop : opcodeOf w = r.op)
    (hr : r.op ≠ 0x0F#6 ∧ r.op ≠ 0x10#6 ∧ r.op ≠ 0x11#6)
    (hps : ps.all pOk = r.tops.all fun j => !w.getLsbD j)
    (hdec : decode w = decodeP r.low w ps i) (hname : i.mnemonic = r.mnemonic)
    (hwf : i.wellFormed = true)
    (hword : lowZero r.low w = true → (∀ x ∈ ps, pBits (pReg x) = x) → encode i = w) : r.Reads w := by
  have hextra := extraConstraint_plain hop hr
  refine ⟨i, hname, ?_, fun ⟨hlow, htops, _⟩ => ⟨hword hlow (pBits_pReg_of_all (hps.trans htops)), hwf⟩⟩
  rw [hdec, decodeP, OpcodeTests.run, hps, hextra]
  rfl

/-- A form whose fields are all F-typed. -/
theorem reads_decodeF (hop : opcodeOf w = r.op)
    (hr : r.op ≠ 0x0F#6 ∧ r.op ≠ 0x10#6 ∧ r.op ≠ 0x11#6) (htops : r.tops = [])
    (hdec : decode w = decodeF r.low w i) (hname : i.mnemonic = r.mnemonic)
    (hwf : i.wellFormed = true) (hword : lowZero r.low w = true → encode i = w) : r.Reads w :=
  reads_decodeP (ps := []) hop hr (by rw [htops]; rfl) hdec hname hwf fun hlow _ => hword hlow

/-- Format B. -/
theorem reads_decodeB (hop : r.op = 0x10#6 ∨ r.op = 0x11#6) (h : opcodeOf w = r.op)
    (hlow : r.low = 4) (htops : r.tops = [])
    (hdec : decode w = decodeB w i) (hname : i.mnemonic = r.mnemonic)
    (hwf : i.wellFormed = bufRangeOk (fieldOff w) (fieldLen w))
    (hword : lowZero 4 w = true → encode i = w) : r.Reads w := by
  have hextra := extraConstraint_buffer (h ▸ hop)
  refine ⟨i, hname, ?_, fun ⟨hz, _, hx⟩ => ⟨hword (hlow ▸ hz), by rw [hwf, ← hextra, hx]⟩⟩
  rw [hdec, decodeB, OpcodeTests.run, hlow, htops, hextra, rangeError_buffer hop]
  rfl

/-- Format C. -/
theorem reads_decodeC (h : opcodeOf w = 0x0F#6) : OpcodeTests.Reads ⟨0x0F#6, "FLDC", 18, []⟩ w := by
  have hextra := extraConstraint_fldc h
  cases hk : constOf (fieldA w) with
  | some k =>
    refine ⟨.fldc (fReg (fieldD w)) k, rfl, ?_, fun ⟨hlow, _, _⟩ => ⟨?_, rfl⟩⟩
    · rw [decode_fldc h, decodeC, OpcodeTests.run, hextra, hk]
      rfl
    · rw [encode, constBits_of_constOf hk, fBits_fReg, ← h]
      exact formC_fields w hlow
  | none =>
    rw [hk] at hextra
    refine ⟨.fldc (fReg (fieldD w)) .a, rfl, ?_, fun ⟨_, _, hx⟩ => absurd (hextra.symm.trans hx) (by decide)⟩
    rw [decode_fldc h, decodeC, OpcodeTests.run, hextra, hk]
    rfl

end Forms

/-! ### The chain at every opcode -/

section Opcodes

variable {w : Word} {r : OpcodeTests}

theorem reads_mau (hr : r ∈ mauTests) (h : opcodeOf w = r.op) : r.Reads w := by
  simp only [mauTests, List.mem_cons, List.not_mem_nil, or_false] at hr
  obtain rfl | rfl | rfl | rfl | rfl | rfl | rfl | rfl | rfl | rfl | rfl | rfl | rfl | rfl | rfl |
    rfl | rfl | rfl := hr
  · exact reads_decodeF h (by decide) rfl (decode_nop h) rfl rfl fun hlow => by
      simpa [encode, h] using formN_fields w hlow
  · exact reads_decodeF h (by decide) rfl (decode_fmov h) rfl rfl fun hlow => by
      simpa [encode, h] using formR_fields_b w hlow
  · have hdec := (decode_fldi h).trans (decodeF_of_lowZero (lowZero_zero w) _).symm
    exact reads_decodeF h (by decide) rfl hdec rfl rfl fun _ => by
      simpa [encode, h] using formI_fields w
  · exact reads_decodeF h (by decide) rfl (decode_fadd h) rfl rfl fun hlow => by
      simpa [encode, h] using formR_fields_c w hlow
  · exact reads_decodeF h (by decide) rfl (decode_fsub h) rfl rfl fun hlow => by
      simpa [encode, h] using formR_fields_c w hlow
  · exact reads_decodeF h (by decide) rfl (decode_fmul h) rfl rfl fun hlow => by
      simpa [encode, h] using formR_fields_c w hlow
  · exact reads_decodeF h (by decide) rfl (decode_fsqr h) rfl rfl fun hlow => by
      simpa [encode, h] using formR_fields_b w hlow
  · exact reads_decodeF h (by decide) rfl (decode_fneg h) rfl rfl fun hlow => by
      simpa [encode, h] using formR_fields_b w hlow
  · exact reads_decodeF h (by decide) rfl (decode_finv h) rfl rfl fun hlow => by
      simpa [encode, h] using formR_fields_b w hlow
  · exact reads_decodeF h (by decide) rfl (decode_fpow h) rfl rfl fun hlow => by
      simpa [encode, h] using formR_fields_c w hlow
  · exact reads_decodeF h (by decide) rfl (decode_fissq h) rfl rfl fun hlow => by
      simpa [encode, h] using formR_fields_b w hlow
  · exact reads_decodeF h (by decide) rfl (decode_fsqrt h) rfl rfl fun hlow => by
      simpa [encode, h] using formR_fields_b w hlow
  · exact reads_decodeF h (by decide) rfl (decode_fsgn h) rfl rfl fun hlow => by
      simpa [encode, h] using formR_fields_b w hlow
  · exact reads_decodeF h (by decide) rfl (decode_feq h) rfl rfl fun hlow => by
      simpa [encode, h] using formR_fields_c w hlow
  · exact reads_decodeF h (by decide) rfl (decode_fcsel h) rfl rfl fun hlow => by
      simpa [encode, h] using formR_fields w hlow
  · exact reads_decodeC h
  · exact reads_decodeB (.inl rfl) h rfl rfl (decode_fenc h) rfl rfl fun hlow => by
      simpa [encode, h] using formB_fields w hlow
  · exact reads_decodeB (.inr rfl) h rfl rfl (decode_fdec h) rfl rfl fun hlow => by
      simpa [encode, h] using formB_fields w hlow

theorem reads_ecge (hr : r ∈ ecgeTests) (h : opcodeOf w = r.op) : r.Reads w := by
  simp only [ecgeTests, List.mem_cons, List.not_mem_nil, or_false] at hr
  obtain rfl | rfl | rfl | rfl | rfl | rfl | rfl | rfl | rfl | rfl | rfl | rfl := hr
  · exact reads_decodeP h (by decide) (by simp [pOk_fieldD, pOk_fieldA, pOk_fieldB]) (decode_padd h) rfl rfl
      fun hlow hps => by simpa [encode, h, hps] using formR_fields_c w hlow
  · exact reads_decodeP h (by decide) (by simp [pOk_fieldD, pOk_fieldA]) (decode_pdbl h) rfl rfl
      fun hlow hps => by simpa [encode, h, hps] using formR_fields_b w hlow
  · exact reads_decodeP h (by decide) (by simp [pOk_fieldA]) (decode_pvalid h) rfl rfl
      fun hlow hps => by simpa [encode, h, hps] using formR_fields_b w hlow
  · exact reads_decodeP h (by decide) (by simp [pOk_fieldD, pOk_fieldA]) (decode_pclr h) rfl rfl
      fun hlow hps => by simpa [encode, h, hps] using formR_fields_b w hlow
  · exact reads_decodeP h (by decide) (by simp [pOk_fieldD, pOk_fieldA]) (decode_pmul h) rfl rfl
      fun hlow hps => by simpa [encode, h, hps] using formR_fields_c w hlow
  · exact reads_decodeP h (by decide) (by simp [pOk_fieldD]) (decode_pmk h) rfl rfl
      fun hlow hps => by simpa [encode, h, hps] using formR_fields_c w hlow
  · exact reads_decodeP h (by decide) (by simp [pOk_fieldA]) (decode_px h) rfl rfl
      fun hlow hps => by simpa [encode, h, hps] using formR_fields_b w hlow
  · exact reads_decodeP h (by decide) (by simp [pOk_fieldA]) (decode_py h) rfl rfl
      fun hlow hps => by simpa [encode, h, hps] using formR_fields_b w hlow
  · exact reads_decodeP h (by decide) (by simp [pOk_fieldD]) (decode_pinf h) rfl rfl
      fun hlow hps => by simpa [encode, h, hps] using formR_fields_a w hlow
  · exact reads_decodeP h (by decide) (by simp [pOk_fieldA]) (decode_pisinf h) rfl rfl
      fun hlow hps => by simpa [encode, h, hps] using formR_fields_b w hlow
  · exact reads_decodeP h (by decide) (by simp [pOk_fieldD, pOk_fieldA]) (decode_pmov h) rfl rfl
      fun hlow hps => by simpa [encode, h, hps] using formR_fields_b w hlow
  · exact reads_decodeP h (by decide) (by simp [pOk_fieldA, pOk_fieldB]) (decode_peq h) rfl rfl
      fun hlow hps => by simpa [encode, h, hps] using formR_fields_c w hlow

theorem reads_h2cm (hr : r ∈ h2cmTests) (h : opcodeOf w = r.op) : r.Reads w := by
  simp only [h2cmTests, List.mem_cons, List.not_mem_nil, or_false] at hr
  obtain rfl | rfl | rfl := hr
  · exact reads_decodeF h (by decide) rfl (decode_h2b h) rfl rfl fun hlow => by
      simpa [encode, h] using formH_fields w hlow
  · exact reads_decodeP h (by decide) (by simp [pOk_fieldD]) (decode_sswu h) rfl rfl
      fun hlow hps => by simpa [encode, h, hps] using formR_fields_b w hlow
  · exact reads_decodeP h (by decide) (by simp [pOk_fieldD]) (decode_h2c h) rfl rfl
      fun hlow hps => by simpa [encode, h, hps] using formR_fields_a w hlow

/-- At every opcode of the map the decoder runs the chain of the table. -/
theorem reads_of_mem (hr : r ∈ opcodeTests) (h : opcodeOf w = r.op) : r.Reads w := by
  obtain hr | hr := List.mem_append.mp hr
  · exact (List.mem_append.mp hr).elim (reads_mau · h) (reads_ecge · h)
  · exact reads_h2cm hr h

end Opcodes

/-- Every opcode is reserved or has its line in the table (30_encoding.md R113). -/
theorem tests_cases (k : BitVec 6) :
    ((0x12#6 ≤ k ∧ k ≤ 0x1F#6) ∨ (0x2C#6 ≤ k ∧ k ≤ 0x2F#6) ∨ 0x33#6 ≤ k) ∨
      ∃ r ∈ opcodeTests, k = r.op := by
  revert k; decide

/-- A line of the table is known by its opcode. -/
theorem tests_eq_of_op {r r' : OpcodeTests} (hr : r ∈ opcodeTests) (hr' : r' ∈ opcodeTests)
    (h : r.op = r'.op) : r = r' :=
  List.inj_on_of_nodup_map (by decide : (opcodeTests.map OpcodeTests.op).Nodup) hr hr' h

/-- A line of the table is known by its mnemonic. -/
theorem tests_eq_of_mnemonic {r r' : OpcodeTests} (hr : r ∈ opcodeTests) (hr' : r' ∈ opcodeTests)
    (h : r.mnemonic = r'.mnemonic) : r = r' :=
  List.inj_on_of_nodup_map (by decide : (opcodeTests.map OpcodeTests.mnemonic).Nodup) hr hr' h

/-- The formats C and B have no P-typed field. -/
theorem tops_of_range {r : OpcodeTests} (hr : r ∈ opcodeTests)
    (hop : r.op = 0x0F#6 ∨ r.op = 0x10#6 ∨ r.op = 0x11#6) : r.tops = [] := by
  revert r
  decide

/-- The tested bits lie below the opcode. -/
theorem tests_below_opcode : ∀ r ∈ opcodeTests, r.low ≤ 32 ∧ (∀ j ∈ r.tops, j < 32) ∧
    0xFC000000#32 &&& (lowMask r.low ||| bitMask r.tops) = 0#32 := by
  decide

/-! ### What the decoder answers at a line of the table -/

section Answers

variable {r : OpcodeTests} {w : Word} {i j : Instr}

theorem run_eq_ok : r.run w i = .ok j ↔ r.Passes w ∧ i = j := by
  simp only [OpcodeTests.run, check, OpcodeTests.Passes]
  split_ifs <;> simp [*]

/-- A word that decodes has passed the tests of its opcode, and is the word of its instruction. -/
theorem tests_of_decode_ok (h : decode w = .ok j) : ∃ r ∈ opcodeTests, opcodeOf w = r.op ∧
    r.Passes w ∧ j.mnemonic = r.mnemonic ∧ encode j = w ∧ j.wellFormed = true := by
  obtain hres | ⟨r, hr, hop⟩ := tests_cases (opcodeOf w)
  · rw [decode_reserved hres] at h
    cases h
  · obtain ⟨i, hname, hdec, hword⟩ := reads_of_mem hr hop
    obtain ⟨hpass, rfl⟩ := run_eq_ok.mp (hdec.symm.trans h)
    exact ⟨r, hr, hop, hpass, hname, hword hpass⟩

/-- A word that passes the tests of its opcode decodes to an instruction of that line. -/
theorem decode_of_passes (hr : r ∈ opcodeTests) (hop : opcodeOf w = r.op) (hpass : r.Passes w) :
    ∃ i, decode w = .ok i ∧ i.mnemonic = r.mnemonic := by
  obtain ⟨i, hname, hdec, -⟩ := reads_of_mem hr hop
  exact ⟨i, hdec.trans (run_eq_ok.mpr ⟨hpass, rfl⟩), hname⟩

theorem lowZero_tests (hr : r ∈ opcodeTests) :
    lowZero r.low w = true ↔ w &&& lowMask r.low = 0#32 :=
  lowZero_iff (tests_below_opcode r hr).1 w

theorem tops_tests (hr : r ∈ opcodeTests) :
    (r.tops.all fun j => !w.getLsbD j) = true ↔ w &&& bitMask r.tops = 0#32 :=
  (and_bitMask_iff (tests_below_opcode r hr).2.1 w).symm

/-- Check 2 of 30_encoding.md R114. -/
theorem decode_mustBeZero (hr : r ∈ opcodeTests) (hop : opcodeOf w = r.op)
    (hlow : w &&& lowMask r.low ≠ 0#32) : decode w = .error .mustBeZero := by
  obtain ⟨i, -, hdec, -⟩ := reads_of_mem hr hop
  rw [hdec, OpcodeTests.run, check, if_neg (mt (lowZero_tests hr).mp hlow)]

/-- Check 3 of 30_encoding.md R114. -/
theorem decode_pointIndex (hr : r ∈ opcodeTests) (hop : opcodeOf w = r.op)
    (hlow : w &&& lowMask r.low = 0#32) (htops : w &&& bitMask r.tops ≠ 0#32) :
    decode w = .error .pointIndex := by
  obtain ⟨i, -, hdec, -⟩ := reads_of_mem hr hop
  rw [hdec, OpcodeTests.run, check, if_pos ((lowZero_tests hr).mpr hlow), check,
    if_neg (mt (tops_tests hr).mp htops)]

/-- Checks 4 and 5 of 30_encoding.md R114: the rows they concern have no P-typed field. -/
theorem decode_rangeError (hr : r ∈ opcodeTests) (hop : opcodeOf w = r.op)
    (hlow : w &&& lowMask r.low = 0#32) (htops : r.tops = []) (hextra : ¬ extraConstraint w = true) :
    decode w = .error r.rangeError := by
  obtain ⟨i, -, hdec, -⟩ := reads_of_mem hr hop
  rw [hdec, OpcodeTests.run, check, if_pos ((lowZero_tests hr).mpr hlow), htops, check,
    if_pos List.all_nil, check, if_neg hextra]

end Answers

/-! ### Match and mask -/

/-- Disjoint masks are tested one by one. -/
theorem and_or_eq_iff {w m n v : Word} (hmn : m &&& n = 0#32) (hv : v &&& m = v) :
    w &&& (m ||| n) = v ↔ w &&& m = v ∧ w &&& n = 0#32 := by
  constructor
  · rintro rfl
    have hm : (m ||| n) &&& m = m := by
      rw [BitVec.and_comm, BitVec.and_or_distrib_left, hmn, BitVec.and_self, BitVec.or_zero]
    have hn : (m ||| n) &&& n = n := by
      rw [BitVec.and_comm, BitVec.and_or_distrib_left, BitVec.and_comm n m, hmn, BitVec.and_self,
        BitVec.zero_or]
    rw [BitVec.and_assoc, hm] at hv
    refine ⟨hv, ?_⟩
    calc w &&& n = w &&& (m ||| n) &&& n := by rw [BitVec.and_assoc, hn]
      _ = w &&& m &&& n := by rw [← hv]
      _ = 0#32 := by rw [BitVec.and_assoc, hmn, BitVec.and_zero]
  · rintro ⟨h1, h2⟩
    rw [BitVec.and_or_distrib_left, h1, h2, BitVec.or_zero]

/-- The top six bits. -/
theorem and_opcodeMask_iff (w : Word) (k : BitVec 6) :
    w &&& 0xFC000000#32 = formR k 0#4 0#4 0#4 0#4 ↔ opcodeOf w = k := by
  have hmask : opcodeOf 0xFC000000#32 = BitVec.allOnes 6 ∧ fieldD 0xFC000000#32 = 0#4 ∧
      fieldA 0xFC000000#32 = 0#4 ∧ fieldB 0xFC000000#32 = 0#4 ∧ fieldC 0xFC000000#32 = 0#4 ∧
      BitVec.extractLsb' 0 10 0xFC000000#32 = 0#10 := by decide
  have hlow : (formR k 0#4 0#4 0#4 0#4).extractLsb' 0 10 = 0#10 := beq_iff_eq.mp (lowZero_formR ..)
  obtain ⟨hop, hd, ha, hb, hc, hz⟩ := hmask
  rw [and_eq_iff_fields, hop, hd, ha, hb, hc, hz, hlow, BitVec.and_allOnes]
  simp

/-- Match and mask of a row test the opcode, the low bits and the top bits of the P-typed fields. -/
theorem matches_row_iff {r : OpcodeTests} (hr : r ∈ opcodeTests) (w : Word) :
    w &&& r.row.mask = r.row.pattern ↔ opcodeOf w = r.op ∧ lowZero r.low w = true ∧
      (r.tops.all fun j => !w.getLsbD j) = true := by
  obtain ⟨-, -, hdisjoint⟩ := tests_below_opcode r hr
  rw [OpcodeTests.row, BitVec.or_assoc,
    and_or_eq_iff hdisjoint ((and_opcodeMask_iff _ _).mpr (opcodeOf_formR ..)), and_opcodeMask_iff,
    BitVec.and_or_distrib_left, BitVec.or_eq_zero_iff, lowZero_tests hr, tops_tests hr]

/-! ### The statements -/

/-- Settles O2: the chain of tests has rebuilt the word. -/
theorem encodeOfDecode : Obligations.EncodeOfDecode := by
  intro w i h
  obtain ⟨_, _, _, _, _, hword⟩ := tests_of_decode_ok h
  exact hword

/-- Settles O3: the rows are the lines of the table, and a line is known by its opcode and by its
mnemonic. -/
theorem opcodeMapIsExact : Obligations.OpcodeMapIsExact := by
  rw [Obligations.OpcodeMapIsExact, opcodeMap_eq]
  refine ⟨fun w row hrow => ?_, fun w => ?_, fun w row row' hrow hrow' hm hm' => ?_⟩
  · obtain ⟨r, hr, rfl⟩ := List.mem_map.mp hrow
    rw [matches_row_iff hr]
    constructor
    · rintro ⟨i, hdec, hname⟩
      obtain ⟨r', hr', hop, hpass, hname', -⟩ := tests_of_decode_ok hdec
      obtain rfl := tests_eq_of_mnemonic hr' hr (hname'.symm.trans hname)
      obtain ⟨hlow, htops, hextra⟩ := hpass
      exact ⟨⟨hop, hlow, htops⟩, hextra⟩
    · rintro ⟨⟨hop, hlow, htops⟩, hextra⟩
      exact decode_of_passes hr hop ⟨hlow, htops, hextra⟩
  · cases hdec : decode w with
    | ok i =>
      obtain ⟨r, hr, -, -, hname, -⟩ := tests_of_decode_ok hdec
      exact .inl ⟨i, rfl, r.row, List.mem_map_of_mem hr, hname.symm⟩
    | error e => exact .inr ⟨e, rfl, by cases e <;> decide⟩
  · obtain ⟨r, hr, rfl⟩ := List.mem_map.mp hrow
    obtain ⟨r', hr', rfl⟩ := List.mem_map.mp hrow'
    obtain ⟨hop, -⟩ := (matches_row_iff hr w).mp hm
    obtain ⟨hop', -⟩ := (matches_row_iff hr' w).mp hm'
    rw [tests_eq_of_op hr hr' (hop.symm.trans hop')]

/-- The error entry of an illegal word in flight (60_exceptions.md R236, R238). -/
theorem completeWord_illegal {s : State} {c : InFlight} {e : Illegal} (hflight : s.inflight = some c)
    (hdec : decode c.word = .error e) :
    completeWord c.word s = .next (failed s c 5 e.info.toNat) := by
  rw [completeWord_error hdec, State.enterError, State.failingWord, hflight, failed,
    BitVec.ofNat_toNat, BitVec.setWidth_eq]
  rfl

/-- The opcodes listed as reserved (30_encoding.md R114). -/
theorem reserved_of_listed : ∀ k : BitVec 6,
    k.toNat ∈ List.range' 0x12 14 ++ List.range' 0x2C 4 ++ List.range' 0x33 13 →
      (0x12#6 ≤ k ∧ k ≤ 0x1F#6) ∨ (0x2C#6 ≤ k ∧ k ≤ 0x2F#6) ∨ 0x33#6 ≤ k := by
  decide

/-- Settles O4: the listed bits of each opcode are those of the table, whose chain of tests gives the
answer. -/
theorem illegalChecksInOrder : Obligations.IllegalChecksInOrder := by
  refine ⟨fun w hop => ⟨decode_reserved (reserved_of_listed _ hop), rfl⟩, fun w op zeros hop hzeros => ?_,
    fun s c e => completeWord_illegal⟩
  have hline : (op, zeros) ∈ (opcodeTests.filter (·.low ≠ 0)).map
      fun r => (r.op.toNat, lowMask r.low) := hzeros
  obtain ⟨r, hmem, heq⟩ := List.mem_map.mp hline
  obtain ⟨rfl, rfl⟩ := Prod.mk.inj heq
  have hr : r ∈ opcodeTests := List.mem_of_mem_filter hmem
  have hopw : opcodeOf w = r.op := BitVec.eq_of_toNat_eq hop
  refine ⟨fun hz => ⟨decode_mustBeZero hr hopw hz, rfl⟩, fun hz pbits hpbits hp => ⟨?_, rfl⟩,
    fun hz hfldc hsel => ⟨?_, rfl⟩, fun hz hbuf hrange => ⟨?_, rfl⟩⟩
  · have hline' : (r.op.toNat, pbits) ∈ (opcodeTests.filter (·.tops ≠ [])).map
        fun r => (r.op.toNat, bitMask r.tops) := hpbits
    obtain ⟨r', hmem', heq'⟩ := List.mem_map.mp hline'
    obtain ⟨hop', rfl⟩ := Prod.mk.inj heq'
    obtain rfl := tests_eq_of_op (List.mem_of_mem_filter hmem') hr (BitVec.eq_of_toNat_eq hop')
    exact decode_pointIndex hr hopw hz hp
  · have hop : r.op = 0x0F#6 := BitVec.eq_of_toNat_eq hfldc
    have hextra : ¬ extraConstraint w = true := by
      rw [extraConstraint, if_pos (hopw.trans hop), decide_eq_true_iff]
      omega
    rw [decode_rangeError hr hopw hz (tops_of_range hr (.inl hop)) hextra, OpcodeTests.rangeError,
      if_pos hop]
  · have hop : r.op = 0x10#6 ∨ r.op = 0x11#6 :=
      hbuf.imp (BitVec.eq_of_toNat_eq ·) (BitVec.eq_of_toNat_eq ·)
    have hextra : ¬ extraConstraint w = true := by
      rw [extraConstraint_buffer (hopw ▸ hop), bufRangeOk, decide_eq_true_iff]
      omega
    rw [decode_rangeError hr hopw hz (tops_of_range hr (.inr hop)) hextra, rangeError_buffer hop]

/-- Settles O5, by evaluation. -/
theorem specWordsDecode : Obligations.SpecWordsDecode := by
  unfold Obligations.SpecWordsDecode
  decide

end Sys2Proof

/-! ## The pseudo-instructions (30_encoding.md R120) -/

namespace Sys2Proof.Machine

open Sys2Proof.Config Sys2Proof.Claims

/-! ### Commands with a field result -/

section FieldCommands

variable {i : Instr} {d : FReg} {s : State}

/-- A command of the arithmetic unit fails with UnsupportedGroup where there is no entry
(40_field.md R130). -/
theorem needsCurve_fieldCommand {value : State → Curve → Nat}
    (hexec : ∀ s, exec i s = fieldCommand d s (value s)) : NeedsCurve i := by
  intro s c hnone hflight
  rw [hexec, fieldCommand, complete, withCurve_none hnone, completed_error, State.enterError,
    State.failingWord, hflight]
  rfl

/-- What a command of the arithmetic unit leaves where CURVE_SEL names the entry `E`. -/
theorem fieldCommand_eq_fieldDone {E : Curve} (hE : registry s.tags s.curveSel = some E)
    {value : Curve → Nat} {v : Nat} (hv : value E = v) :
    fieldCommand d s value = .next (fieldDone s d v) := by
  rw [fieldCommand_some hE, hv]
  rfl

/-- A command of the arithmetic unit writes the residue that its body computes. -/
theorem writesField_fieldCommand {value : State → Curve → Nat} {result : Curve → State → Nat}
    (hexec : ∀ s, exec i s = fieldCommand d s (value s))
    (hresult : ∀ s E, registry s.tags s.curveSel = some E →
      result E s < E.p ∧ value s E = result E s) : WritesField i d result := by
  refine ⟨fun s E hE => ?_, needsCurve_fieldCommand hexec⟩
  obtain ⟨hlt, hv⟩ := hresult s E hE
  exact ⟨hlt, by rw [hexec, fieldCommand_eq_fieldDone hE hv]⟩

end FieldCommands

/-! ### The immediates 0, 1 and -1 -/

/-- FLDI of an immediate whose residue is `v`. -/
theorem writesField_fldi {d : FReg} {imm : BitVec 22} {v : Curve → Nat}
    (hv : ∀ (tags : Tags) id E, registry tags id = some E → modP E.p imm.toInt = v E) :
    WritesField (.fldi d imm) d fun E _ => v E :=
  writesField_fieldCommand (fun _ => rfl) fun _ E hE =>
    ⟨hv _ _ E hE ▸ modP_lt (registry_p_pos hE) _, hv _ _ E hE⟩

theorem modP_neg_one {p : Nat} (hp : 0 < p) : modP p (-1) = p - 1 := by
  have h : (-1 : Int) % (p : Int) = ((p - 1 : Nat) : Int) := by
    rw [← Int.add_emod_right, Int.emod_eq_of_lt] <;> omega
  rw [modP, h, Int.toNat_natCast]

/-- Settles O6: each pseudo-instruction is its command by definition; the immediates are residues, and the
blend selects. -/
theorem pseudoInstructions : Obligations.PseudoInstructions := by
  intro d a c
  refine ⟨⟨rfl, writesField_fldi fun _ _ E _ => ?_⟩, ⟨rfl, writesField_fldi fun _ _ E hE => ?_⟩,
    ⟨rfl, writesField_fldi fun _ _ E hE => ?_⟩, rfl, fun s E hE hc => ?_, fun s E hE hc => ?_⟩
  · exact (modP_natCast E.p 0).trans (Nat.zero_mod _)
  · exact (modP_natCast E.p 1).trans (Nat.mod_eq_of_lt (Nat.lt_of_succ_lt (registry_p_gt_two hE)))
  · have himm : (BitVec.ofInt 22 (-1)).toInt = -1 := by decide
    rw [himm, modP_neg_one (registry_p_pos hE)]
  · refine fieldCommand_eq_fieldDone hE ?_
    rw [show fv E s c = 1 from hc, cmov_one (fv_lt hE s a)]
    rfl
  · refine fieldCommand_eq_fieldDone hE ?_
    rw [show fv E s c = 0 from hc, cmov_zero (fv_lt hE s d)]
    rfl

end Sys2Proof.Machine

/-! ## The words of the field commands (30_encoding.md R102 to R105, R114, R121) -/

namespace Sys2Proof

open Sys2Proof.Claims

/-- A well-formed instruction is the decoding of its word and of no other. -/
theorem encodedAs_of_encode {i : Instr} {w : Word} (hwf : i.wellFormed = true) (hw : encode i = w) :
    EncodedAs i w := by
  subst hw
  refine ⟨rfl, fun v => ⟨fun hdec => ?_, fun hv => hv ▸ decode_encode hwf⟩⟩
  obtain ⟨hword, -⟩ := encodeOfDecode v i hdec
  exact hword.symm

/-- Format C is format R with the selector in the field a. -/
theorem formC_eq_formR (op : BitVec 6) (d sel : BitVec 4) :
    formC op d sel = formR op d sel 0#4 0#4 := by
  apply BitVec.eq_of_toNat_eq
  rw [formC_toNat, formR_toNat, BitVec.toNat_ofNat]
  omega

theorem encodedAs_fldc (d : FReg) (sel : CurveConst) :
    EncodedAs (.fldc d sel) (wordR 0x0F d (constBits sel).toNat 0 0) :=
  encodedAs_of_encode rfl ((formC_eq_formR ..).trans (formR_eq rfl rfl rfl rfl rfl))

/-- FLDI's word for an immediate given as an integer. -/
theorem encodedAs_fldi (d : FReg) (n : Int) :
    EncodedAs (.fldi d (BitVec.ofInt 22 n)) (wordI 0x02 d n) :=
  encodedAs_of_encode rfl (formI_eq rfl rfl (BitVec.toNat_ofInt ..))

theorem bufRangeOk_iff {off : BitVec 10} {len : BitVec 8} :
    bufRangeOk off len = true ↔ off.toNat + len.toNat ≤ 1024 := decide_eq_true_iff

/-! ### Illegal words -/

/-- The zero word is the only legal word of opcode 0 (30_encoding.md R115). -/
theorem decode_opcode_zero {w : Word} (hop : opcodeOf w = 0#6) (hw : w ≠ 0#32) :
    decode w = .error .mustBeZero := by
  have hlow : ¬ lowZero 26 w = true := fun hlow => hw <| by
    rw [← formN_fields w hlow, hop]
    rfl
  rw [decode_nop hop, decodeF, check, if_neg hlow]

/-- A selector that names no constant (30_encoding.md R112). -/
theorem decode_fldc_of_constOf_none {w : Word} (hop : opcodeOf w = 0x0F#6)
    (hlow : lowZero 18 w = true) (hsel : constOf (fieldA w) = none) :
    decode w = .error .constSelector := by
  rw [decode_fldc hop, decodeC, check, if_pos hlow, hsel]

/-- Selectors 9 to 15 name no constant (30_encoding.md R112). -/
theorem decode_fldc_selector (d : FReg) {sel : Nat} (h9 : 9 ≤ sel) (h15 : sel ≤ 15) :
    decode (wordR 0x0F d sel 0 0) = .error .constSelector := by
  have hnat : (BitVec.ofNat 4 sel).toNat = sel := by rw [BitVec.toNat_ofNat]; omega
  have hword : formR 0x0F#6 (fBits d) (BitVec.ofNat 4 sel) 0#4 0#4 = wordR 0x0F d sel 0 0 :=
    formR_eq rfl rfl hnat rfl rfl
  have hnone : constOf (BitVec.ofNat 4 sel) = none := by
    rw [← Option.not_isSome_iff_eq_none, constOf_isSome_iff, hnat, decide_eq_true_iff]
    omega
  rw [← hword]
  exact decode_fldc_of_constOf_none (opcodeOf_formR ..) (lowZero_formR_b ..)
    ((congrArg constOf (fieldA_formR ..)).trans hnone)

/-- The word of FENC or FDEC with a range past the buffer (30_encoding.md R110). -/
theorem decode_wordB_pastBuffer {op : BitVec 6} {r : FReg} {off : BitVec 10} {len : BitVec 8}
    (hop : op = 0x10#6 ∨ op = 0x11#6) (hrange : 1024 < len.toNat + off.toNat) :
    decode (wordB op.toNat r off.toNat len.toNat) = .error .bufferRange := by
  have hbad : ¬ bufRangeOk off len = true := fun h => by
    have := bufRangeOk_iff.mp h
    omega
  have hcheck : ∀ i, decodeB (formB op (fBits r) off len) i = .error .bufferRange := fun i => by
    rw [decodeB, check, if_pos (lowZero_formB ..), check, fieldOff_formB, fieldLen_formB, if_neg hbad]
  have hword : formB op (fBits r) off len = wordB op.toNat r off.toNat len.toNat := formB_eq rfl rfl
  rw [← hword]
  obtain rfl | rfl := hop
  · rw [decode_fenc (opcodeOf_formB ..), hcheck]
  · rw [decode_fdec (opcodeOf_formB ..), hcheck]

end Sys2Proof

/-! ## The arithmetic of the field commands, on numbers (40_field.md R133 to R147) -/

namespace Sys2Proof.Machine

open Sys2Proof.Config Sys2Proof.Claims

/-- Every 22-bit immediate in range is read back with its sign (30_encoding.md R109). -/
theorem immValue_ofInt {n : Int} (hlo : -2097152 ≤ n) (hhi : n ≤ 2097151) :
    immValue (BitVec.ofInt 22 n) = n := by
  rw [immValue, BitVec.toInt_ofInt]
  exact Int.bmod_eq_of_le (by omega) (by omega)

theorem modP_add (p x y : Nat) : modP p ((x : Int) + y) = (x + y) % p := by
  rw [← Nat.cast_add, modP_natCast]

theorem modP_mul (p x y : Nat) : modP p ((x : Int) * y) = x * y % p := by
  rw [← Nat.cast_mul, modP_natCast]

/-- FEQ's flag as a comparison. -/
theorem equalFlag_eq (x y : Nat) : equalFlag x y = if x = y then 1 else 0 := by
  simp only [equalFlag, ofTruth, beq_iff_eq]

/-- FSGN's result as the split at `(p-1)/2`. -/
theorem sgnField_eq {p : Nat} (hp : 1 < p) (x : Nat) :
    sgnField p x = if x > (p - 1) / 2 then p - 1 else 1 := by
  rw [sgnField, sgn]
  split
  · exact modP_neg_one (by omega)
  · exact (modP_natCast p 1).trans (Nat.mod_eq_of_lt hp)

/-- FISSQ's flag by Euler's criterion. -/
theorem squareFlag_eq {p : Nat} (hp : 0 < p) (x : Nat) : squareFlag p x =
    if x ^ ((p - 1) / 2) % p = 0 ∨ x ^ ((p - 1) / 2) % p = 1 then 1 else 0 := by
  simp only [squareFlag, ofTruth, isSquare, powMod_eq hp, expSq, Bool.or_eq_true, beq_iff_eq]

section Prime

variable {p : Nat} (hp : p.Prime)

include hp in
theorem squareFlag_of_square (h2 : 2 < p) {x : Nat} (hx : x < p) (h : ∃ r, r * r % p = x) :
    squareFlag p x = 1 := by
  rw [squareFlag, (isSquare_iff hp h2 x).mpr ((isSquare_cast_iff hp hx).mpr h)]
  rfl

include hp in
theorem squareFlag_of_not_square (h2 : 2 < p) {x : Nat} (h : ¬ IsSquare (x : ZMod p)) :
    squareFlag p x = 0 := by
  rw [squareFlag, Bool.eq_false_iff.mpr (mt (isSquare_iff hp h2 x).mp h)]
  rfl

include hp in
/-- `p - 1` stands for -1, which is no square where p is 3 modulo 4. -/
theorem pred_not_isSquare (h4 : p % 4 = 3) : ¬ IsSquare (((p - 1 : Nat)) : ZMod p) := by
  rw [Nat.cast_sub hp.one_le, ZMod.natCast_self, Nat.cast_one, zero_sub]
  exact neg_one_not_isSquare hp h4

include hp in
/-- The root of a square, on numbers (40_field.md R142). -/
theorem sqrtP_of_square (h4 : p % 4 = 3) {x : Nat} (hx : x < p) (h : ∃ q, q * q % p = x) :
    sqrtP p x * sqrtP p x % p = x ∧ ∃ q, q * q % p = sqrtP p x := by
  have hsq := (isSquare_cast_iff hp hx).mpr h
  obtain ⟨hroot, -⟩ := cast_sqrtP_sq hp h4 x
  refine ⟨(cast_inj_of_lt (Nat.mod_lt _ hp.pos) hx).mp ?_,
    (isSquare_cast_iff hp (sqrtP_lt hp.pos x)).mp (isSquare_sqrtP hp hsq)⟩
  rw [ZMod.natCast_mod, Nat.cast_mul, ← pow_two, hroot hsq]

include hp in
/-- The root of any other number is a root of its negative, on numbers (40_field.md R142). -/
theorem sqrtP_of_not_square (h4 : p % 4 = 3) {x : Nat} (hx : x < p) (h : ¬ ∃ q, q * q % p = x) :
    sqrtP p x * sqrtP p x % p = p - x := by
  have h0 : x ≠ 0 := fun h0 => h ⟨0, by rw [h0, zero_mul, Nat.zero_mod]⟩
  obtain ⟨-, hroot⟩ := cast_sqrtP_sq hp h4 x
  refine (cast_inj_of_lt (Nat.mod_lt _ hp.pos) (by omega)).mp ?_
  rw [ZMod.natCast_mod, Nat.cast_mul, ← pow_two, hroot (mt (isSquare_cast_iff hp hx).mp h),
    Nat.cast_sub hx.le, ZMod.natCast_self, zero_sub]

end Prime

/-- Decoding octets given by their index is the big-endian sum (00_scope.md R13). -/
theorem os2ip_map_range (g : Nat → Byte) (n : Nat) : os2ip ((List.range n).map g) =
    ∑ j ∈ Finset.range n, (g j).toNat * 2 ^ (8 * (n - 1 - j)) := by
  induction n generalizing g with
  | zero => rfl
  | succ n ih =>
    have hrest : (List.range n).map (g ∘ Nat.succ) = (List.range n).map fun j => g (j + 1) := rfl
    rw [List.range_succ_eq_map, List.map_cons, List.map_map, hrest, os2ip, ih, List.length_map,
      List.length_range, Finset.sum_range_succ', add_comm]
    congr 1
    refine Finset.sum_congr rfl fun j _ => ?_
    rw [show n + 1 - 1 - (j + 1) = n - 1 - j by omega]

/-! ## The field commands (40_field.md) -/

/-- An operand value is its own residue. -/
theorem operand_mod (E : Curve) (s : State) (a : FReg) : operand E s a % E.p = operand E s a :=
  Nat.mod_mod _ _

/-- Reading back the value just written. -/
theorem operand_fieldDone {tags : Tags} {id : BitVec 4} {E : Curve} (hE : registry tags id = some E)
    (t : State) (d : FReg) {v : Nat} (hv : v < E.p) : operand E (fieldDone t d v) d = v := by
  have hp := registry_p_lt hE
  have hfits : (BitVec.ofNat 521 v).toNat = v := by
    rw [BitVec.toNat_ofNat, Nat.mod_eq_of_lt (by omega)]
  have hself : (fieldDone t d v).f[d] = BitVec.ofNat 521 v := Vector.getElem_set_self ..
  rw [operand, hself, hfits, Nat.mod_eq_of_lt hv]

/-- A command of the arithmetic unit writes what its body computes, in any form of it. -/
theorem writesField_of_value {i : Instr} {d : FReg} {value : State → Curve → Nat}
    {result : Curve → State → Nat} (hexec : ∀ s, exec i s = fieldCommand d s (value s))
    (hlt : ∀ s E, registry s.tags s.curveSel = some E → value s E < E.p)
    (hvalue : ∀ s E, registry s.tags s.curveSel = some E → value s E = result E s) :
    WritesField i d result :=
  writesField_fieldCommand hexec fun s E hE => ⟨hvalue s E hE ▸ hlt s E hE, hvalue s E hE⟩

/-- The same for a body that reduces an integer. -/
theorem writesField_of_modP {i : Instr} {d : FReg} {value : State → Curve → Int}
    {result : Curve → State → Nat}
    (hexec : ∀ s, exec i s = fieldCommand d s fun E => modP E.p (value s E))
    (hvalue : ∀ s E, registry s.tags s.curveSel = some E → modP E.p (value s E) = result E s) :
    WritesField i d result :=
  writesField_of_value hexec (fun _ _ hE => modP_lt (registry_p_pos hE) _) hvalue

/-! ### The statements -/

/-- Settles O7: NOP's completion is its definition; any other word of opcode 0 fails the test of the low
bits. -/
theorem nopOnlyCompletes : Obligations.NopOnlyCompletes :=
  ⟨encodedAs_of_encode rfl rfl, fun _ hop hw => ⟨decode_opcode_zero hop hw, rfl⟩,
    fun _ hop => decode_reserved (reserved_of_listed _ hop), fun _ => rfl⟩

/-- Settles O8: an operand is a residue, and an immediate in range is its own sign extension. -/
theorem movesAndImmediates : Obligations.MovesAndImmediates := by
  refine ⟨fun d a => ⟨encodedAs_of_encode rfl (formR_eq rfl rfl rfl rfl rfl), ?_⟩,
    fun d n hlo hhi => ⟨encodedAs_fldi d n, writesField_fldi fun _ _ E _ => ?_⟩⟩
  · exact writesField_of_value (fun _ => rfl) (fun s _ hE => fv_lt hE s a) fun _ _ _ => rfl
  · exact congrArg (modP E.p) (immValue_ofInt hlo hhi)

/-- Settles O9: each value is the remainder of the integer result, of naturals where it is one. -/
theorem ringCommandsReduce : Obligations.RingCommandsReduce := by
  intro d a b
  refine ⟨⟨?_, ?_⟩, ⟨?_, ?_⟩, ⟨?_, ?_⟩, ⟨?_, ?_⟩, ⟨?_, ?_⟩⟩
  · exact encodedAs_of_encode rfl (formR_eq rfl rfl rfl rfl rfl)
  · exact writesField_of_modP (fun _ => rfl) fun _ _ _ => modP_add ..
  · exact encodedAs_of_encode rfl (formR_eq rfl rfl rfl rfl rfl)
  · exact writesField_of_modP (fun _ => rfl) fun _ _ _ => rfl
  · exact encodedAs_of_encode rfl (formR_eq rfl rfl rfl rfl rfl)
  · exact writesField_of_modP (fun _ => rfl) fun _ _ _ => modP_mul ..
  · exact encodedAs_of_encode rfl (formR_eq rfl rfl rfl rfl rfl)
  · exact writesField_of_modP (fun _ => rfl) fun _ _ _ => modP_mul ..
  · exact encodedAs_of_encode rfl (formR_eq rfl rfl rfl rfl rfl)
  · exact writesField_of_modP (fun _ => rfl) fun _ _ _ => rfl

/-- Settles O10, by Fermat's theorem for the modulus. -/
theorem finvInverts : Obligations.FinvInverts := by
  intro d a
  refine ⟨encodedAs_of_encode rfl (formR_eq rfl rfl rfl rfl rfl), ?_, fun s E hE => ?_⟩
  · exact writesField_of_value (fun _ => rfl) (fun _ _ hE => invP_lt (registry_p_pos hE) _)
      fun _ _ hE => powMod_eq (registry_p_pos hE) ..
  · have hprime := registry_prime hE
    have h2 := registry_p_gt_two hE
    refine ⟨fun h0 => fieldCommand_eq_fieldDone hE ?_, fun hne => ?_⟩
    · exact (congrArg (invP E.p) h0).trans (invP_zero hprime h2)
    · exact ⟨_, invP_lt hprime.pos _, mul_invP hprime h2 (by rwa [operand_mod]),
        fieldCommand_eq_fieldDone hE rfl⟩

/-- Settles O11: squaring computes the power, and Fermat's theorem gives the exponent `p - 1`. -/
theorem fpowRaises : Obligations.FpowRaises := by
  intro d a b
  refine ⟨encodedAs_of_encode rfl (formR_eq rfl rfl rfl rfl rfl), ?_, fun s E hE => ?_⟩
  · exact writesField_of_value (fun _ => rfl) (fun _ _ hE => powMod_lt (registry_p_pos hE) _ _)
      fun _ _ hE => powMod_eq (registry_p_pos hE) ..
  · have hprime := registry_prime hE
    refine ⟨fun h0 => fieldCommand_eq_fieldDone hE ?_,
      fun hpred hne => fieldCommand_eq_fieldDone hE ?_⟩
    · exact (congrArg (powMod E.p _) h0).trans (powMod_zero hprime.one_lt _)
    · have hbase : operand E s a % E.p ≠ 0 := by rwa [operand_mod]
      exact (congrArg (powMod E.p _) hpred).trans (powMod_pred hprime hbase)

/-- Settles O12, by Euler's criterion; -1 and Z are the non-squares it names. -/
theorem fissqTestsSquares : Obligations.FissqTestsSquares := by
  intro d a
  refine ⟨encodedAs_of_encode rfl (formR_eq rfl rfl rfl rfl rfl), ?_, fun s E hE => ?_⟩
  · exact writesField_of_value (fun _ => rfl) (fun _ _ hE => ofTruth_lt hE _)
      fun _ _ hE => squareFlag_eq (registry_p_pos hE) _
  · have hprime := registry_prime hE
    have h2 := registry_p_gt_two hE
    have hlt : operand E s a < E.p := fv_lt hE s a
    have hzero : ¬ IsSquare (operand E s a : ZMod E.p) →
        exec (.fissq d a) s = .next (fieldDone s d 0) := fun h =>
      fieldCommand_eq_fieldDone hE (squareFlag_of_not_square hprime h2 h)
    refine ⟨fun h => fieldCommand_eq_fieldDone hE (squareFlag_of_square hprime h2 hlt h),
      fun h => hzero (mt (isSquare_cast_iff hprime hlt).mp h), fun h => hzero ?_⟩
    obtain h | h := h <;> rw [h]
    · exact pred_not_isSquare hprime (registry_p_mod_four hE)
    · exact registry_z_not_isSquare hE

/-- Settles O13: the power is a root of x or of -x, as x is a square or not. -/
theorem fsqrtFindsRoots : Obligations.FsqrtFindsRoots := by
  intro d a
  refine ⟨encodedAs_of_encode rfl (formR_eq rfl rfl rfl rfl rfl), ?_, fun s E hE => ?_⟩
  · exact writesField_of_value (fun _ => rfl) (fun _ _ hE => sqrtP_lt (registry_p_pos hE) _)
      fun _ _ hE => powMod_eq (registry_p_pos hE) ..
  · have hprime := registry_prime hE
    have h4 := registry_p_mod_four hE
    have hlt : operand E s a < E.p := fv_lt hE s a
    exact ⟨_, sqrtP_lt hprime.pos _, fieldCommand_eq_fieldDone hE rfl, sqrtP_of_square hprime h4 hlt,
      sqrtP_of_not_square hprime h4 hlt⟩

/-- Settles O14: the flag is the comparison of the operand values, the sign the split. -/
theorem comparisonAndSign : Obligations.ComparisonAndSign := by
  intro d a b
  refine ⟨⟨encodedAs_of_encode rfl (formR_eq rfl rfl rfl rfl rfl), ?_⟩,
    ⟨encodedAs_of_encode rfl (formR_eq rfl rfl rfl rfl rfl), ?_⟩⟩
  · exact writesField_of_value (fun _ => rfl) (fun _ _ hE => ofTruth_lt hE _)
      fun _ _ _ => equalFlag_eq ..
  · exact writesField_of_modP (fun _ => rfl) fun _ _ hE => sgnField_eq (registry_prime hE).one_lt _

/-- Settles O15: the blend is its definition, and selects for the selectors 0 and 1. -/
theorem fcselBlends : Obligations.FcselBlends := by
  intro d a b c
  refine ⟨encodedAs_of_encode rfl (formR_eq rfl rfl rfl rfl rfl), ?_, fun s E hE =>
    ⟨fun h0 => fieldCommand_eq_fieldDone hE ?_, fun h1 => fieldCommand_eq_fieldDone hE ?_⟩⟩
  · exact writesField_of_modP (fun _ => rfl) fun _ _ _ => rfl
  · exact (congrArg (cmov E.p _ _) h0).trans (cmov_zero (fv_lt hE s a))
  · exact (congrArg (cmov E.p _ _) h1).trans (cmov_one (fv_lt hE s b))

theorem writesField_fldc (d : FReg) (sel : CurveConst) :
    WritesField (.fldc d sel) d fun E _ => constValue E sel :=
  writesField_of_value (fun _ => rfl) (fun _ _ hE => constValue_lt hE sel) fun _ _ _ => rfl

/-- Settles O16: every constant is a residue, and c1 and c2 meet their equations. -/
theorem fldcLoadsConstants : Obligations.FldcLoadsConstants := by
  intro d
  have hconst : ∀ sel, EncodedAs (.fldc d sel) (wordR 0x0F d (constBits sel).toNat 0 0) ∧
      WritesField (.fldc d sel) d fun E _ => constValue E sel := fun sel =>
    ⟨encodedAs_fldc d sel, writesField_fldc d sel⟩
  refine ⟨?_, encodedAs_fldc d .c1, encodedAs_fldc d .c2, (writesField_fldc d .c1).2,
    (writesField_fldc d .c2).2, fun sel h9 h15 => ⟨decode_fldc_selector d h9 h15, rfl⟩,
    fun s E hE => ⟨?_, ?_⟩⟩
  · simp only [List.forall_mem_cons]
    exact ⟨hconst .a, hconst .b, hconst .z, hconst .h, hconst .n, hconst .gx, hconst .gy,
      fun _ h => absurd h List.not_mem_nil⟩
  · exact ⟨curveC1 E, constValue_lt hE .c1, fieldCommand_eq_fieldDone hE rfl, curveC1_equation hE⟩
  · exact ⟨curveC2 E, constValue_lt hE .c2, fieldCommand_eq_fieldDone hE rfl, curveC2_equation hE⟩

/-! ### Octets to and from the buffer (40_field.md R149 to R152) -/

section Buffer

variable {r : FReg} {off : BitVec 10} {len : BitVec 8} {s : State} {E : Curve}
  (hrange : bufRangeOk off len = true) (hE : registry s.tags s.curveSel = some E)

/-- After FENC of the value `x`. -/
def encoded (s : State) (off : BitVec 10) (len : BitVec 8) (x : Nat) : State :=
  (s.setBytes (offValue off) (i2osp x (lenValue len))).retire

include hrange in
/-- FDEC within the buffer is a command of the arithmetic unit. -/
theorem exec_fdec_inRange (r : FReg) (s : State) : exec (.fdec r off len) s =
    fieldCommand r s fun E => os2ip (bufRead s (offValue off) (lenValue len)) % E.p :=
  congrArg (complete s) (withBufRange_ok hrange _)

include hrange in
/-- FENC within the buffer: the value fits, or the command fails with info 7. -/
theorem exec_fenc_inRange (r : FReg) (s : State) : exec (.fenc r off len) s =
    complete s (withCurve s fun E => if 2 ^ (8 * lenValue len) ≤ operand E s r
      then .error ⟨.internalInstantiation, 7#4⟩
      else .ok (.bytes (offValue off) (i2osp (operand E s r) (lenValue len)))) :=
  congrArg (complete s) (withBufRange_ok hrange _)

/-- The error entry of the command in flight (60_exceptions.md R238). -/
theorem complete_error {c : InFlight} (hflight : s.inflight = some c) (e : CmdError) :
    complete s (.error e) = .next (failed s c e.kind.code.toNat e.info.toNat) := by
  rw [complete, completed_error, State.enterError, State.failingWord, hflight, failed,
    BitVec.ofNat_toNat, BitVec.setWidth_eq, BitVec.ofNat_toNat, BitVec.setWidth_eq]

include hrange in
theorem needsCurve_fenc (r : FReg) : NeedsCurve (.fenc r off len) := by
  intro s c hnone hflight
  rw [exec_fenc_inRange hrange, withCurve_none hnone]
  exact complete_error hflight _

include hrange hE in
/-- FENC of a value that fits. -/
theorem exec_fenc_fits (hfits : operand E s r < 2 ^ (8 * lenValue len)) :
    exec (.fenc r off len) s = .next (encoded s off len (operand E s r)) := by
  rw [exec_fenc_inRange hrange, withCurve_some hE, if_neg (Nat.not_le.mpr hfits)]
  rfl

include hrange hE in
/-- FENC of a value that does not fit. -/
theorem exec_fenc_tooLarge (hlarge : 2 ^ (8 * lenValue len) ≤ operand E s r) {c : InFlight}
    (hflight : s.inflight = some c) : exec (.fenc r off len) s = .next (failed s c 2 7) := by
  rw [exec_fenc_inRange hrange, withCurve_some hE, if_pos hlarge]
  exact complete_error hflight _

theorem encoded_eq_done (s : State) (off : BitVec 10) (len : BitVec 8) (x : Nat) :
    encoded s off len x = { done s with buf := (encoded s off len x).buf } := rfl

include hrange in
theorem i2osp_inRange (x : Nat) : offValue off + (i2osp x (lenValue len)).length ≤ 1024 := by
  rw [i2osp_length]
  exact bufRangeOk_iff.mp hrange

include hrange in
/-- The bytes of the range are those of the value, the most significant first. -/
theorem read_encoded_inside (hwf : Memory.wf s.buf = true) (x : Nat) {j : Nat} (hj : j < lenValue len) :
    Memory.read (encoded s off len x).buf (offValue off + j) =
      BitVec.ofNat 8 (x / 256 ^ (lenValue len - 1 - j)) := by
  have hfits := i2osp_inRange hrange x
  have hin : offValue off ≤ offValue off + j ∧
      offValue off + j < offValue off + (i2osp x (lenValue len)).length := by
    rw [i2osp_length]; omega
  have hpow : 2 ^ (8 * (lenValue len - 1 - j)) = 256 ^ (lenValue len - 1 - j) := pow_mul 2 8 _
  rw [encoded, retire_buf, setBytes_buf, Memory.read_writeBytes hwf hfits, dif_pos hin, i2osp_getElem,
    Nat.shiftRight_eq_div_pow, Nat.add_sub_cancel_left, hpow]

include hrange in
/-- Every other byte is kept. -/
theorem read_encoded_outside (hwf : Memory.wf s.buf = true) (x : Nat) {y : Nat}
    (hy : ¬ (offValue off ≤ y ∧ y < offValue off + lenValue len)) :
    Memory.read (encoded s off len x).buf y = Memory.read s.buf y := by
  have hfits := i2osp_inRange hrange x
  rw [encoded, retire_buf, setBytes_buf, Memory.read_writeBytes hwf hfits,
    dif_neg (by rwa [i2osp_length])]

include hrange in
/-- The range just encoded decodes to the value. -/
theorem os2ip_encoded (hwf : Memory.wf s.buf = true) {x : Nat} (hx : x < 2 ^ (8 * lenValue len)) :
    os2ip (bufRead (encoded s off len x) (offValue off) (lenValue len)) = x := by
  have hfits := i2osp_inRange hrange x
  have hback := Memory.readBytes_writeBytes hwf hfits
  rw [i2osp_length] at hback
  rw [bufRead, encoded, retire_buf, setBytes_buf, hback, os2ip_i2osp, Nat.mod_eq_of_lt hx]

end Buffer

/-- Settles O18: the write of several bytes, read index by index. -/
theorem fencWritesBytes : Obligations.FencWritesBytes := by
  intro r off len
  refine ⟨fun hle => ?_, fun hgt => ⟨?_, rfl⟩⟩
  · have hrange : bufRangeOk off len = true := bufRangeOk_iff.mpr ((Nat.add_comm ..).trans_le hle)
    refine ⟨encodedAs_of_encode hrange (formB_eq rfl rfl), needsCurve_fenc hrange r, fun s E hE =>
      ⟨fun hfits hwf => ?_, fun hlarge c hflight => exec_fenc_tooLarge hrange hE hlarge hflight⟩⟩
    exact ⟨_, exec_fenc_fits hrange hE hfits, encoded_eq_done .., fun j hj =>
      read_encoded_inside hrange hwf _ hj, fun x hx => read_encoded_outside hrange hwf _ hx⟩
  · exact decode_wordB_pastBuffer (op := 0x10#6) (.inl rfl) hgt

/-- Settles O19: within the buffer the decoded value is the big-endian sum. -/
theorem fdecReadsBytes : Obligations.FdecReadsBytes := by
  intro r off len
  refine ⟨fun hle => ?_, fun hgt => ⟨?_, rfl⟩⟩
  · have hrange : bufRangeOk off len = true := bufRangeOk_iff.mpr ((Nat.add_comm ..).trans_le hle)
    refine ⟨encodedAs_of_encode hrange (formB_eq rfl rfl), ?_⟩
    exact writesField_of_value (exec_fdec_inRange hrange r)
      (fun _ _ hE => Nat.mod_lt _ (registry_p_pos hE))
      fun _ E _ => congrArg (· % E.p) (os2ip_map_range ..)
  · exact decode_wordB_pastBuffer (op := 0x11#6) (.inr rfl) hgt

/-- Settles O20: decoding inverts encoding on the range just written, and a residue is kept by the
reduction. -/
theorem encodeDecodeRoundTrip : Obligations.EncodeDecodeRoundTrip := by
  intro s E f g off len hE hwf hle hfits
  have hrange : bufRangeOk off len = true := bufRangeOk_iff.mpr hle
  have hvalue : os2ip (bufRead (encoded s off len (operand E s f)) (offValue off) (lenValue len)) % E.p =
      operand E s f := by rw [os2ip_encoded hrange hwf hfits, operand_mod]
  have hdec : exec (.fdec g off len) (encoded s off len (operand E s f)) =
      .next (fieldDone (encoded s off len (operand E s f)) g (operand E s f)) := by
    rw [exec_fdec_inRange hrange]
    exact fieldCommand_eq_fieldDone (s := encoded s off len _) hE hvalue
  exact ⟨_, _, exec_fenc_fits hrange hE hfits, hdec, operand_fieldDone hE _ g (fv_lt hE s f)⟩

end Sys2Proof.Machine

/-! ## Points in register form (10_state.md R53, R54; 41_point.md R171) -/

namespace Sys2Proof.Machine

open Sys2Proof.Config Sys2Proof.Claims

@[simp] theorem toGroup_of_inf {q : Point} (h : q.inf = true) : q.toGroup = .inf := by
  rw [Point.toGroup, if_pos h]

@[simp] theorem toGroup_of_finite {q : Point} (h : q.inf = false) :
    q.toGroup = .aff q.x.toNat q.y.toNat := by
  rw [Point.toGroup, h]
  rfl

theorem toPoint_toGroup_of_inf {q : Point} (h : q.inf = true) : q.toGroup.toPoint = identity := by
  rw [toGroup_of_inf h]
  rfl

/-- A finite register comes back unchanged. -/
theorem toPoint_toGroup_of_finite {q : Point} (h : q.inf = false) : q.toGroup.toPoint = q := by
  rw [toGroup_of_finite h, GroupPoint.toPoint, BitVec.ofNat_toNat, BitVec.setWidth_eq,
    BitVec.ofNat_toNat, BitVec.setWidth_eq, ← h]

/-- Two registers hold one point exactly when both are the identity, or both are finite with the same
coordinates (41_point.md R184). -/
theorem toGroup_eq_iff (q r : Point) : q.toGroup = r.toGroup ↔
    (q.inf = true ∧ r.inf = true) ∨ (q.inf = false ∧ r.inf = false ∧ q.x = r.x ∧ q.y = r.y) := by
  cases hq : q.inf <;> cases hr : r.inf <;> simp [hq, hr, BitVec.toNat_inj]

/-- PEQ's flag on two registers. -/
theorem pointEqualFlag_toGroup (q r : Point) : pointEqualFlag q.toGroup r.toGroup =
    if (q.inf = true ∧ r.inf = true) ∨ (q.inf = false ∧ r.inf = false ∧ q.x = r.x ∧ q.y = r.y)
      then 1 else 0 := by
  simp only [pointEqualFlag, ofTruth, decide_eq_true_eq, toGroup_eq_iff]

theorem padd_inf_right (E : Curve) (P : GroupPoint) : padd E P .inf = P := by cases P <;> rfl

theorem smul_zero_scalar (E : Curve) (P : GroupPoint) : smul E 0 P = .inf := rfl

theorem smul_one_scalar (E : Curve) (P : GroupPoint) : smul E 1 P = P := rfl

/-- What a valid finite register satisfies. -/
theorem finite_of_validPoint {E : Curve} {q : Point} (h : validPoint E q = true) (hfin : q.inf = false) :
    q.x.toNat < E.p ∧ q.y.toNat < E.p ∧ onCurve E q.x.toNat q.y.toNat = true := by
  simpa only [validPoint, hfin, Bool.false_or, Bool.and_eq_true, decide_eq_true_eq, and_assoc] using h

section Registry

variable {tags : Tags} {id : BitVec 4} {E : Curve} (hE : registry tags id = some E)

include hE in
/-- The model's test is the rule's validity (10_state.md R53). -/
theorem validPoint_iff (q : Point) : validPoint E q = true ↔ ValidPoint E q := by
  have hcurve : onCurve E q.x.toNat q.y.toNat = true ↔ CurveEquation E q.x.toNat q.y.toNat := by
    rw [onCurve, beq_iff_eq, ← Int.natCast_eq_zero, modP_cast (registry_p_pos hE)]
    rfl
  simp only [validPoint, ValidPoint, Bool.or_eq_true, Bool.and_eq_true, decide_eq_true_eq, hcurve,
    and_assoc]

include hE in
theorem validPoint_eq_false_iff (q : Point) : validPoint E q = false ↔ ¬ ValidPoint E q := by
  rw [← validPoint_iff hE, Bool.not_eq_true]

/-! ### The slopes (41_point.md R171) -/

/-- A quotient computed with the unit's inverse, times its denominator, is its numerator. -/
theorem quotient_mul_emod {p : Nat} (hp : p.Prime) (h2 : 2 < p) {den : Int} (hden : (den : ZMod p) ≠ 0)
    (num : Int) : ((modP p (num * invP p (modP p den)) : Int) * den - num) % (p : Int) = 0 := by
  have := Fact.mk hp
  rw [emod_eq_zero_iff, Int.cast_sub, Int.cast_mul, Int.cast_natCast, cast_modP hp.pos, Int.cast_mul,
    Int.cast_natCast, cast_invP hp h2, cast_modP hp.pos, inv_mul_cancel_right₀ hden, sub_self]

include hE in
/-- Two points of the curve with one X that are not opposite have the same Y, so twice it is their sum,
which is not 0. -/
theorem tangent_denominator_ne_zero {x y1 y2 : Nat} (h1 : onCurve E x y1 = true)
    (h2 : onCurve E x y2 = true) (hopp : (y1 + y2) % E.p ≠ 0) :
    ((2 * (y1 : Int) : Int) : ZMod E.p) ≠ 0 := by
  have := Fact.mk (registry_prime hE)
  have hp := registry_p_pos hE
  have hsum : (y1 : ZMod E.p) ≠ -y2 := mt add_mod_eq_zero_iff.mpr hopp
  have hsame : (y1 : ZMod E.p) = y2 := by
    refine (sq_eq_sq_iff_eq_or_eq_neg.mp ?_).resolve_right hsum
    rw [(onCurve_iff hp _ _).mp h1, (onCurve_iff hp _ _).mp h2]
  push_cast
  intro h0
  exact hsum (eq_neg_of_add_eq_zero_left (by rw [← hsame, ← two_mul, h0]))

include hE in
/-- The tangent's slope. -/
theorem isSlope_double {x y1 y2 : Nat} (h1 : onCurve E x y1 = true) (h2 : onCurve E x y2 = true)
    (hopp : (y1 + y2) % E.p ≠ 0) : IsSlope E (slopeDouble E x y1) x y1 x y2 := by
  refine ⟨modP_lt (registry_p_pos hE) _, ?_⟩
  rw [if_pos rfl]
  exact quotient_mul_emod (registry_prime hE) (registry_p_gt_two hE)
    (tangent_denominator_ne_zero hE h1 h2 hopp) _

include hE in
/-- The chord's slope. -/
theorem isSlope_chord {x1 x2 : Nat} (hx1 : x1 < E.p) (hx2 : x2 < E.p) (hne : x1 ≠ x2) (y1 y2 : Nat) :
    IsSlope E (slopeChord E x1 y1 x2 y2) x1 y1 x2 y2 := by
  refine ⟨modP_lt (registry_p_pos hE) _, ?_⟩
  rw [if_neg hne]
  refine quotient_mul_emod (registry_prime hE) (registry_p_gt_two hE) ?_ _
  push_cast
  exact sub_ne_zero.mpr fun h => hne ((cast_inj_of_lt hx2 hx1).mp h).symm

/-! ### The sum -/

theorem padd_opposite {x1 y1 x2 y2 : Nat} (hx : x1 = x2) (hy : (y1 + y2) % E.p = 0) :
    padd E (.aff x1 y1) (.aff x2 y2) = .inf := if_pos ⟨hx, hy⟩

include hE in
/-- Two finite points of the curve that are not opposite sum to the third point of their slope. -/
theorem padd_thirdPoint {x1 y1 x2 y2 : Nat} (hx1 : x1 < E.p) (hx2 : x2 < E.p)
    (h1 : onCurve E x1 y1 = true) (h2 : onCurve E x2 y2 = true)
    (hopp : ¬ (x1 = x2 ∧ (y1 + y2) % E.p = 0)) :
    ∃ lam, IsSlope E lam x1 y1 x2 y2 ∧
      (padd E (.aff x1 y1) (.aff x2 y2)).toPoint = ThirdPoint E lam x1 y1 x2 := by
  rw [padd, if_neg hopp]
  split
  case isTrue hx =>
    subst hx
    exact ⟨_, isSlope_double hE h1 h2 fun hy => hopp ⟨rfl, hy⟩, rfl⟩
  case isFalse hx => exact ⟨_, isSlope_chord hE hx1 hx2 hx y1 y2, rfl⟩

include hE in
/-- The model's group law gives the rule's sum of two valid registers (41_point.md R171). -/
theorem isSum_padd {q r : Point} (hq : ValidPoint E q) (hr : ValidPoint E r) :
    IsSum E q r (padd E q.toGroup r.toGroup).toPoint := by
  rw [← validPoint_iff hE] at hq hr
  rw [IsSum]
  cases hqi : q.inf with
  | true =>
    rw [if_pos rfl, toGroup_of_inf hqi, padd]
    cases hri : r.inf with
    | true => exact toPoint_toGroup_of_inf hri
    | false => exact toPoint_toGroup_of_finite hri
  | false =>
    rw [if_neg Bool.false_ne_true]
    cases hri : r.inf with
    | true =>
      rw [if_pos rfl, toGroup_of_inf hri, padd_inf_right]
      exact toPoint_toGroup_of_finite hqi
    | false =>
      obtain ⟨hqx, -, hqc⟩ := finite_of_validPoint hq hqi
      obtain ⟨hrx, -, hrc⟩ := finite_of_validPoint hr hri
      rw [if_neg Bool.false_ne_true, toGroup_of_finite hqi, toGroup_of_finite hri]
      split
      case isTrue hopp => rw [padd_opposite (congrArg BitVec.toNat hopp.1) hopp.2]; rfl
      case isFalse hopp =>
        exact padd_thirdPoint hE hqx hrx hqc hrc fun h => hopp ⟨BitVec.toNat_inj.mp h.1, h.2⟩

/-! ### Multiples (41_point.md R175) -/

include hE in
/-- A valid register holds a point of the group of the curve. -/
theorem exists_standsFor {q : Point} (hq : ValidPoint E q) : ∃ Q, StandsFor E q.toGroup Q :=
  standsFor_of_valid hE ((validPoint_iff hE q).mpr hq)

include hE in
/-- What stands for a point of the group is valid in register form, and canonical. -/
theorem StandsFor.valid_and_canonical {P : GroupPoint} {Q : (curveOver E).Point} (hPQ : StandsFor E P Q) :
    ValidPoint E P.toPoint ∧ canonicalPoint E P.toPoint := by
  obtain ⟨hvalid, -, -⟩ := hPQ.valid hE
  exact ⟨(validPoint_iff hE _).mp hvalid, canonicalPoint_of_valid hvalid⟩

include hE in
/-- Double-and-add meets the recurrence of repeated addition, as the multiples of the group do. -/
theorem smul_succ_scalar {q : Point} (hq : ValidPoint E q) (k : Nat) :
    smul E (k + 1) q.toGroup = padd E (smul E k q.toGroup) q.toGroup := by
  have := Fact.mk (registry_prime hE)
  obtain ⟨Q, hQ⟩ := exists_standsFor hE hq
  have hsucc : StandsFor E (smul E (k + 1) q.toGroup) (k • Q + Q) :=
    succ_nsmul Q k ▸ smul_standsFor hE hQ (k + 1)
  exact hsucc.inj (padd_standsFor hE (smul_standsFor hE hQ k) hQ)

end Registry

/-- Settles O25: both sides stand for the same multiple in the group of the curve. -/
theorem scalarMultiplicationIsRepeatedAddition :
    Obligations.ScalarMultiplicationIsRepeatedAddition := fun _ _ E q hE hq =>
  ⟨smul_zero_scalar E q.toGroup, smul_succ_scalar hE hq⟩

/-- Settles O26: sums and multiples stand for points of the group of the curve, so they are valid and
canonical. -/
theorem groupLawIsClosed : Obligations.GroupLawIsClosed := by
  intro tags id E q r hE hq hr
  have := Fact.mk (registry_prime hE)
  obtain ⟨Q, hQ⟩ := exists_standsFor hE hq
  obtain ⟨R, hR⟩ := exists_standsFor hE hr
  exact ⟨(padd_standsFor hE hQ hR).valid_and_canonical hE,
    fun k => (smul_standsFor hE hQ k).valid_and_canonical hE⟩

end Sys2Proof.Machine

/-! ## Commands with a checked operand (41_point.md R170; 60_exceptions.md R235) -/

namespace Sys2Proof.Machine

open Sys2Proof.Config Sys2Proof.Claims

/-- A command that resolves its entry fails with UnsupportedGroup where there is none
(60_exceptions.md R231). -/
theorem needsCurve_of_withCurve {i : Instr} {body : State → Curve → CmdResult}
    (hexec : ∀ s, exec i s = complete s (withCurve s (body s))) : NeedsCurve i := by
  intro s c hnone hflight
  rw [hexec, withCurve_none hnone]
  exact complete_error hflight _

/-- A command with a point result that it computes without a check. -/
theorem writesPoint_of_value {i : Instr} {d : PReg} {value : Curve → State → Point}
    (hexec : ∀ s, exec i s = complete s (withCurve s fun E => .ok (.point d (value E s)))) :
    WritesPoint i d value := by
  refine ⟨fun s E hE => ?_, needsCurve_of_withCurve hexec⟩
  rw [hexec, withCurve_some hE]
  rfl

/-- A command on one checked point, as PADD to PMUL and PEQ begin (41_point.md R170). -/
def checkedCommand (s : State) (a : PReg) (body : Curve → GroupPoint → CmdResult) :
    Host.Outcome State Fault Refusal :=
  complete s (withCurve s fun E => checkedPoint E (pv s a) 1#4 (body E))

/-- A command on two checked points, a before b. -/
def checkedPairCommand (s : State) (a b : PReg) (body : Curve → GroupPoint → GroupPoint → CmdResult) :
    Host.Outcome State Fault Refusal :=
  checkedCommand s a fun E P => checkedPoint E (pv s b) 2#4 (body E P)

section Checked

variable {s : State} {E : Curve} {a b : PReg} (hE : registry s.tags s.curveSel = some E)

theorem needsCurve_checkedCommand {i : Instr} {body : State → Curve → GroupPoint → CmdResult}
    (hexec : ∀ s, exec i s = checkedCommand s a (body s)) : NeedsCurve i :=
  needsCurve_of_withCurve hexec

include hE in
theorem checkedCommand_valid (ha : ValidPoint E s.p[a]) (body : Curve → GroupPoint → CmdResult) :
    checkedCommand s a body = complete s (body E s.p[a].toGroup) := by
  rw [checkedCommand, withCurve_some hE, pv, checkedPoint_valid ((validPoint_iff hE _).mpr ha)]

include hE in
theorem checkedCommand_invalid (ha : ¬ ValidPoint E s.p[a]) {c : InFlight}
    (hflight : s.inflight = some c) (body : Curve → GroupPoint → CmdResult) :
    checkedCommand s a body = .next (failed s c 4 1) := by
  rw [checkedCommand, withCurve_some hE, pv, checkedPoint_invalid ((validPoint_eq_false_iff hE _).mpr ha)]
  exact complete_error hflight _

include hE in
theorem checkedPairCommand_valid (ha : ValidPoint E s.p[a]) (hb : ValidPoint E s.p[b])
    (body : Curve → GroupPoint → GroupPoint → CmdResult) :
    checkedPairCommand s a b body = complete s (body E s.p[a].toGroup s.p[b].toGroup) := by
  rw [checkedPairCommand, checkedCommand_valid hE ha, pv,
    checkedPoint_valid ((validPoint_iff hE _).mpr hb)]

include hE in
theorem checkedPairCommand_invalid_second (ha : ValidPoint E s.p[a]) (hb : ¬ ValidPoint E s.p[b])
    {c : InFlight} (hflight : s.inflight = some c)
    (body : Curve → GroupPoint → GroupPoint → CmdResult) :
    checkedPairCommand s a b body = .next (failed s c 4 2) := by
  rw [checkedPairCommand, checkedCommand_valid hE ha, pv,
    checkedPoint_invalid ((validPoint_eq_false_iff hE _).mpr hb)]
  exact complete_error hflight _

end Checked

/-! ### What each command is -/

theorem exec_padd (d a b : PReg) (s : State) : exec (.padd d a b) s =
    checkedPairCommand s a b fun E P Q => pointResult d (padd E P Q) := rfl

theorem exec_pdbl (d a : PReg) (s : State) : exec (.pdbl d a) s =
    checkedCommand s a fun E P => pointResult d (padd E P P) := rfl

theorem exec_pclr (d a : PReg) (s : State) : exec (.pclr d a) s =
    checkedCommand s a fun E P => pointResult d (smul E E.h P) := rfl

theorem exec_pmul (d a : PReg) (b : FReg) (s : State) : exec (.pmul d a b) s =
    checkedCommand s a fun E P => pointResult d (smul E (operand E s b) P) := rfl

theorem exec_peq (d : FReg) (a b : PReg) (s : State) : exec (.peq d a b) s =
    checkedPairCommand s a b fun _ P Q => fieldResult d (pointEqualFlag P Q) := rfl

theorem complete_pointResult (s : State) (d : PReg) (q : GroupPoint) :
    complete s (pointResult d q) = .next (pointDone s d q.toPoint) := rfl

theorem complete_fieldResult (s : State) (d : FReg) (v : Nat) :
    complete s (fieldResult d v) = .next (fieldDone s d v) := rfl

/-! ### The statements -/

/-- Settles O21: on valid operands the model's group law is the rule's sum; an invalid one fails its
check, a first. -/
theorem pointsAddByGroupLaw : Obligations.PointsAddByGroupLaw := by
  intro d a b
  have hadd := exec_padd d a b
  have hdbl := exec_pdbl d a
  refine ⟨encodedAs_of_encode rfl (formR_eq rfl (pBits_toNat d) (pBits_toNat a) (pBits_toNat b) rfl),
    encodedAs_of_encode rfl (formR_eq rfl (pBits_toNat d) (pBits_toNat a) rfl rfl),
    needsCurve_checkedCommand hadd, needsCurve_checkedCommand hdbl, fun s E hE =>
    ⟨fun ha hb => ⟨_, isSum_padd hE ha hb, ?_⟩, fun ha => ⟨_, isSum_padd hE ha ha, ?_⟩,
      fun c hflight ha => ⟨?_, ?_⟩, fun c hflight ha hb => ?_⟩⟩
  · rw [hadd, checkedPairCommand_valid hE ha hb, complete_pointResult]
  · rw [hdbl, checkedCommand_valid hE ha, complete_pointResult]
  · rw [hadd]
    exact checkedCommand_invalid hE ha hflight _
  · rw [hdbl, checkedCommand_invalid hE ha hflight]
  · rw [hadd, checkedPairCommand_invalid_second hE ha hb hflight]

/-- Settles O22: the flag is the model's test, and that is the rule's validity. -/
theorem pvalidTestsValidity : Obligations.PvalidTestsValidity := by
  intro d a
  have hexec : ∀ s, exec (.pvalid d a) s = fieldCommand d s fun E => ofTruth (validPoint E s.p[a]) :=
    fun _ => rfl
  refine ⟨encodedAs_of_encode rfl (formR_eq rfl (fBits_toNat d) (pBits_toNat a) rfl rfl),
    needsCurve_fieldCommand hexec, fun s E hE => ⟨fun hvalid => ?_, fun hinvalid => ?_⟩⟩
  · rw [hexec]
    exact fieldCommand_eq_fieldDone hE (congrArg ofTruth ((validPoint_iff hE _).mpr hvalid))
  · rw [hexec]
    exact fieldCommand_eq_fieldDone hE (congrArg ofTruth ((validPoint_eq_false_iff hE _).mpr hinvalid))

/-- Settles O23: the cofactor is 1, so the multiple is the point itself. -/
theorem pclrCopiesChecked : Obligations.PclrCopiesChecked := by
  intro d a
  have hexec := exec_pclr d a
  refine ⟨encodedAs_of_encode rfl (formR_eq rfl (pBits_toNat d) (pBits_toNat a) rfl rfl),
    needsCurve_checkedCommand hexec, fun s E hE => ?_⟩
  have hcopy : ValidPoint E s.p[a] →
      exec (.pclr d a) s = .next (pointDone s d s.p[a].toGroup.toPoint) := fun ha => by
    rw [hexec, checkedCommand_valid hE ha, registry_h hE, smul_one_scalar, complete_pointResult]
  refine ⟨registry_h hE, fun hinf => ?_, fun hfin ha => ?_, fun c hflight ha => ?_⟩
  · rw [hcopy (.inl hinf), toPoint_toGroup_of_inf hinf]
  · rw [hcopy ha, toPoint_toGroup_of_finite hfin]
  · rw [hexec, checkedCommand_invalid hE ha hflight]

/-- Settles O24: the command writes its multiple, whose first two values are O and the point. -/
theorem pmulWritesMultiple : Obligations.PmulWritesMultiple := by
  intro d a b
  have hexec := exec_pmul d a b
  refine ⟨encodedAs_of_encode rfl (formR_eq rfl (pBits_toNat d) (pBits_toNat a) (fBits_toNat b) rfl),
    needsCurve_checkedCommand hexec, fun s E hE => ⟨fun ha => ?_, fun c hflight ha => ?_⟩⟩
  · have hmul : exec (.pmul d a b) s =
        .next (pointDone s d (smul E (operand E s b) s.p[a].toGroup).toPoint) := by
      rw [hexec, checkedCommand_valid hE ha, complete_pointResult]
    refine ⟨hmul, fun h0 => ?_, fun h1 hfin => ?_⟩
    · rw [hmul, h0, smul_zero_scalar]
      rfl
    · rw [hmul, h1, smul_one_scalar, toPoint_toGroup_of_finite hfin]
  · rw [hexec, checkedCommand_invalid hE ha hflight]

/-- Settles O29: the registers hold one point exactly in the two cases of the rule. -/
theorem peqComparesPoints : Obligations.PeqComparesPoints := by
  intro d a b
  have hexec := exec_peq d a b
  refine ⟨encodedAs_of_encode rfl (formR_eq rfl (fBits_toNat d) (pBits_toNat a) (pBits_toNat b) rfl),
    needsCurve_checkedCommand hexec, fun s E hE =>
    ⟨fun ha hb => ?_, fun c hflight ha => ?_, fun c hflight ha hb => ?_⟩⟩
  · rw [hexec, checkedPairCommand_valid hE ha hb, complete_fieldResult, pointEqualFlag_toGroup]
  · rw [hexec]
    exact checkedCommand_invalid hE ha hflight _
  · rw [hexec, checkedPairCommand_invalid_second hE ha hb hflight]

/-- Settles O27: the coordinates are residues, of operands or of raw halves of a register. -/
theorem coordinateCommands : Obligations.CoordinateCommands := by
  refine ⟨fun d a b => ⟨?_, writesPoint_of_value fun _ => rfl⟩,
    fun d a => ⟨⟨?_, ?_⟩, ⟨?_, ?_⟩⟩⟩
  · exact encodedAs_of_encode rfl
      (formR_eq rfl (pBits_toNat d) (fBits_toNat a) (fBits_toNat b) rfl)
  · exact encodedAs_of_encode rfl (formR_eq rfl (fBits_toNat d) (pBits_toNat a) rfl rfl)
  · exact writesField_of_value (fun _ => rfl) (fun _ _ hE => Nat.mod_lt _ (registry_p_pos hE))
      fun _ _ _ => rfl
  · exact encodedAs_of_encode rfl (formR_eq rfl (fBits_toNat d) (pBits_toNat a) rfl rfl)
  · exact writesField_of_value (fun _ => rfl) (fun _ _ hE => Nat.mod_lt _ (registry_p_pos hE))
      fun _ _ _ => rfl

/-- Settles O28: each command writes what its register or the identity holds, with no check. -/
theorem identityAndCopyCommands : Obligations.IdentityAndCopyCommands := by
  refine ⟨fun d => ⟨?_, writesPoint_of_value fun _ => rfl⟩, fun d a => ⟨?_, ?_⟩,
    fun d a => ⟨?_, writesPoint_of_value fun _ => rfl⟩⟩
  · exact encodedAs_of_encode rfl (formR_eq rfl (pBits_toNat d) rfl rfl rfl)
  · exact encodedAs_of_encode rfl (formR_eq rfl (fBits_toNat d) (pBits_toNat a) rfl rfl)
  · exact writesField_of_value (fun _ => rfl) (fun _ _ hE => ofTruth_lt hE _) fun _ _ _ => rfl
  · exact encodedAs_of_encode rfl (formR_eq rfl (pBits_toNat d) (pBits_toNat a) rfl rfl)

end Sys2Proof.Machine

/-! ## The draw and its message (42_hash_to_curve.md R200, R203) -/

namespace Sys2Proof.Machine

open Sys2Proof.Config Sys2Proof.Claims

/-- The message the model reads is the rule's. -/
theorem bufRead_eq_message (s : State) : bufRead s 0 s.msglen.toNat = message s := by
  simp only [bufRead, Memory.readBytes, message, Nat.zero_add]

/-- A byte is its own encoding in one byte (00_scope.md R13). -/
theorem i2osp_byte (b : Byte) : i2osp b.toNat 1 = [b] := by
  rw [i2osp_succ, i2osp_zero, Nat.mul_zero, Nat.shiftRight_zero, BitVec.ofNat_toNat,
    BitVec.setWidth_eq]

/-- The model's draw is the rule's, for a counter of one byte. -/
theorem hashToBase_eq_draw (E : Curve) (msg : List Byte) (ctr : Byte) :
    hashToBase E msg ctr.toNat = draw E msg ctr := by
  have hinfo : hashInfo ctr.toNat 1 = [0x48#8, 0x32#8, 0x43#8, ctr, 0x01#8] := by
    rw [hashInfo, i2osp_byte, show i2osp 1 1 = [0x01#8] from i2osp_byte 1#8]
    rfl
  rw [hashToBase, hashToBaseBlock, hinfo, draw]

/-- H2B's counter bit as a byte (30_encoding.md R111). -/
theorem ctrValue_eq_toNat (ctr : BitVec 1) : ctrValue ctr = (ctr.setWidth 8).toNat :=
  (BitVec.toNat_setWidth_of_le (by decide)).symm

section Message

variable {s : State}

/-- A command on a message that fits runs its body on BUF[0 .. MSGLEN-1]. -/
theorem withMessage_fits (h : s.msglen.toNat ≤ 1024) (body : List Byte → CmdResult) :
    withMessage s body = body (message s) := by
  rw [withMessage_short h, bufRead_eq_message]

/-- A command on a message that does not fit fails with InternalInstantiation and info 6
(60_exceptions.md R232). -/
theorem complete_withMessage_long (h : 1024 < s.msglen.toNat) {c : InFlight}
    (hflight : s.inflight = some c) (body : List Byte → CmdResult) :
    complete s (withMessage s body) = .next (failed s c 2 6) := by
  rw [withMessage_long h]
  exact complete_error hflight _

end Message

/-! ## The image of the map (42_hash_to_curve.md R205 to R209) -/

/-- A number that fits is kept by the register that holds it. -/
theorem toNat_ofNat_of_fits {w x : Nat} (hx : x < 2 ^ w) : (BitVec.ofNat w x).toNat = x := by
  rw [BitVec.toNat_ofNat, Nat.mod_eq_of_lt hx]

section Registry

variable {tags : Tags} {id : BitVec 4} {E : Curve} (hE : registry tags id = some E)

include hE in
/-- The model's curve test is the rule's equation (10_state.md R53). -/
theorem onCurve_iff_curveEquation (x y : Nat) : onCurve E x y = true ↔ CurveEquation E x y := by
  rw [onCurve, beq_iff_eq, ← Int.natCast_eq_zero, modP_cast (registry_p_pos hE)]
  rfl

include hE in
/-- `g(x)` is a square exactly when `x` is the X of a point of the curve. -/
theorem isSquare_curveRhs_iff (x : Nat) :
    isSquare E.p (curveRhs E x) = true ↔ ∃ r, CurveEquation E x r := by
  have hp := registry_p_pos hE
  have := Fact.mk (registry_prime hE)
  simp only [isSquare_iff (registry_prime hE) (registry_p_gt_two hE), cast_curveRhs hp,
    ← onCurve_iff_curveEquation hE, onCurve_iff hp]
  constructor
  · rintro ⟨r, hr⟩
    exact ⟨r.val, by rw [ZMod.natCast_zmod_val, hr, sq]⟩
  · rintro ⟨r, hr⟩
    exact ⟨r, by rw [← hr, sq]⟩

include hE in
/-- The x1 of the map solves its equation on numbers: the exceptional one where `t1 + t1^2` is 0, the
normal one otherwise (42_hash_to_curve.md R206, R207). -/
theorem sswuX1_solves (t1 : Nat) :
    let t := residue E ((t1 : Int) + (t1 : Int) ^ 2)
    if t = 0 then ((sswuX1 E t1 : Int) * (E.z * E.a) - E.b) % (E.p : Int) = 0
      else ((sswuX1 E t1 : Int) * (E.a * t) + E.b * (1 + t)) % (E.p : Int) = 0 := by
  have hp := registry_p_pos hE
  obtain ⟨hexceptional, hnormal⟩ := sswuX1_equation hE t1
  intro t
  have ht : (t : ZMod E.p) = (t1 : ZMod E.p) + (t1 : ZMod E.p) ^ 2 := by
    rw [show t = modP E.p ((t1 : Int) + (t1 : Int) ^ 2) from rfl, cast_modP hp]
    push_cast
    rfl
  have hzero : (t1 : ZMod E.p) + (t1 : ZMod E.p) ^ 2 = 0 ↔ t = 0 := by
    rw [← ht]
    exact cast_eq_zero_of_lt (modP_lt hp _)
  split
  case isTrue h0 =>
    rw [emod_eq_zero_iff]
    push_cast
    exact sub_eq_zero.mpr (hexceptional (hzero.mpr h0))
  case isFalse hne =>
    rw [emod_eq_zero_iff]
    push_cast
    rw [ht]
    exact hnormal (mt hzero.mp hne)

include hE in
/-- The model's map computes the image that the rule determines (42_hash_to_curve.md R205 to R208). -/
theorem isImage_sswuMap (u : Nat) : IsImage E u (sswuMap E u).1 (sswuMap E u).2 := by
  obtain ⟨-, -, hcurve, hsign, hfirst, hsecond⟩ := sswuMap_spec hE u
  exact ⟨(onCurve_iff_curveEquation hE _ _).mp hcurve, hsign, _, sswuX1_lt hE _,
    sswuX1_solves hE _, fun h => hfirst ((isSquare_curveRhs_iff hE _).mpr h),
    fun h => hsecond (Bool.eq_false_iff.mpr (mt (isSquare_curveRhs_iff hE _).mp h))⟩

include hE in
theorem sswuMap_lt (u : Nat) : (sswuMap E u).1 < E.p ∧ (sswuMap E u).2 < E.p := by
  obtain ⟨hx, hy, -⟩ := sswuMap_spec hE u
  exact ⟨hx, hy⟩

include hE in
/-- The map's check never fails (42_hash_to_curve.md R209). -/
theorem checkedMap_registry (u : Nat) (info : BitVec 4) (body : GroupPoint → CmdResult) :
    checkedMap E u info body = body (.aff (sswuMap E u).1 (sswuMap E u).2) := by
  obtain ⟨-, -, hcurve, -⟩ := sswuMap_spec hE u
  exact checkedMap_on hcurve info body

include hE in
/-- The coordinates of an image fit in a register. -/
theorem mapped_toNat (u : Nat) :
    (mapped E u).x.toNat = (sswuMap E u).1 ∧ (mapped E u).y.toNat = (sswuMap E u).2 := by
  obtain ⟨hx, hy⟩ := sswuMap_lt hE u
  have hfits := registry_p_lt hE
  exact ⟨toNat_ofNat_of_fits (hx.trans hfits), toNat_ofNat_of_fits (hy.trans hfits)⟩

include hE in
theorem toGroup_mapped (u : Nat) : (mapped E u).toGroup = .aff (sswuMap E u).1 (sswuMap E u).2 := by
  obtain ⟨hx, hy⟩ := mapped_toNat hE u
  rw [toGroup_of_finite rfl, hx, hy]

include hE in
/-- Every image is a valid point (42_hash_to_curve.md R209). -/
theorem validPoint_mapped (u : Nat) : ValidPoint E (mapped E u) := by
  obtain ⟨hx, hy, hcurve, -⟩ := sswuMap_spec hE u
  obtain ⟨hxnat, hynat⟩ := mapped_toNat hE u
  rw [ValidPoint, hxnat, hynat]
  exact .inr ⟨hx, hy, (onCurve_iff_curveEquation hE _ _).mp hcurve⟩

/-- The sum of two images, as H2C computes it (42_hash_to_curve.md R210). -/
def imageSum (E : Curve) (u0 u1 : Nat) : Point :=
  (padd E (mapped E u0).toGroup (mapped E u1).toGroup).toPoint

include hE in
theorem isSum_imageSum (u0 u1 : Nat) : IsSum E (mapped E u0) (mapped E u1) (imageSum E u0 u1) :=
  isSum_padd hE (validPoint_mapped hE u0) (validPoint_mapped hE u1)

include hE in
theorem validPoint_imageSum (u0 u1 : Nat) : ValidPoint E (imageSum E u0 u1) := by
  obtain ⟨⟨hvalid, -⟩, -⟩ :=
    groupLawIsClosed tags id E _ _ hE (validPoint_mapped hE u0) (validPoint_mapped hE u1)
  exact hvalid

include hE in
/-- The final check of H2C never fails: the cofactor is 1, and the sum is valid
(42_hash_to_curve.md R210). -/
theorem checkedFinal_imageSum (d : PReg) (u0 u1 : Nat) :
    checkedFinal E d (smul E E.h (padd E (mapped E u0).toGroup (mapped E u1).toGroup)) =
      .ok (.point d (imageSum E u0 u1)) := by
  rw [registry_h hE, smul_one_scalar, checkedFinal]
  exact if_pos ((validPoint_iff hE _).mpr (validPoint_imageSum hE u0 u1))

end Registry

/-! ## The hash-to-curve commands (42_hash_to_curve.md R204, R209, R210) -/

section Commands

variable {s : State} {E : Curve} (hE : registry s.tags s.curveSel = some E)

include hE in
/-- Where CURVE_SEL names an entry, H2B's only other check is that of the message. -/
theorem exec_h2b (d : FReg) (ctr : BitVec 1) : exec (.h2b d ctr) s =
    complete s (withMessage s fun msg => fieldResult d (draw E msg (ctr.setWidth 8))) := by
  simp only [exec, execH2b, withCurve_some hE, requireOneElement_registry hE, ctrValue_eq_toNat,
    hashToBase_eq_draw]

include hE in
/-- Where CURVE_SEL names an entry, SSWU has no check that can fail. -/
theorem exec_sswu (d : PReg) (a : FReg) :
    exec (.sswu d a) s = .next (pointDone s d (mapped E (operand E s a))) := by
  simp only [exec, execSswu, withCurve_some hE, requireSswu_registry hE, checkedMap_registry hE]
  rfl

include hE in
/-- Where CURVE_SEL names an entry, H2C's only other check that can fail is that of the message. -/
theorem exec_h2c (d : PReg) : exec (.h2c d) s = complete s (withMessage s fun msg =>
    .ok (.point d (imageSum E (draw E msg 0#8) (draw E msg 1#8)))) := by
  have h0 : ∀ msg, hashToBase E msg 0 = draw E msg 0#8 := fun msg => hashToBase_eq_draw E msg 0#8
  have h1 : ∀ msg, hashToBase E msg 1 = draw E msg 1#8 := fun msg => hashToBase_eq_draw E msg 1#8
  simp only [exec, execH2c, withCurve_some hE, requireOneElement_registry hE, requireSswu_registry hE,
    h0, h1, checkedMap_registry hE, ← toGroup_mapped hE, checkedFinal_imageSum hE]

end Commands

/-! ### The statements -/

/-- Settles O32: the model's map computes the image that the rule determines, and its check never
fails. -/
theorem sswuMapsEveryElement : Obligations.SswuMapsEveryElement := by
  intro d a s E hE
  obtain ⟨hx, hy⟩ := sswuMap_lt hE (operand E s a)
  exact ⟨_, _, hx, hy, isImage_sswuMap hE _, exec_sswu hE d a⟩

/-- Settles O31: SSWU writes its image for every operand, so in particular where the image is valid. -/
theorem sswuCompletes : Obligations.SswuCompletes := fun d a =>
  ⟨encodedAs_of_encode rfl (formR_eq rfl (pBits_toNat d) (fBits_toNat a) rfl rfl),
    needsCurve_of_withCurve fun _ => rfl, fun _ _ hE _ => exec_sswu hE d a⟩

/-- Settles O30: the draw is a remainder, and the message's length is the one check left. -/
theorem h2bDrawsFieldElement : Obligations.H2bDrawsFieldElement := by
  intro d ctr
  refine ⟨encodedAs_of_encode rfl (formH_eq rfl (fBits_toNat d)), needsCurve_of_withCurve fun _ => rfl,
    fun s E hE => ⟨fun hfits => ⟨Nat.mod_lt _ (registry_p_pos hE), ?_⟩, fun c hlong hflight => ?_⟩⟩
  · rw [exec_h2b hE, withMessage_fits hfits, complete_fieldResult]
  · rw [exec_h2b hE, complete_withMessage_long hlong hflight]

/-- Settles O33: both images and their sum are valid, so the message's length is the one check that can
fail. -/
theorem h2cHashesEveryMessage : Obligations.H2cHashesEveryMessage := by
  intro d
  refine ⟨encodedAs_of_encode rfl (formR_eq rfl (pBits_toNat d) rfl rfl rfl),
    needsCurve_of_withCurve fun _ => rfl, fun s E hE => ⟨fun hfits => ?_, fun c hlong hflight => ?_⟩⟩
  · obtain ⟨hx0, hy0⟩ := sswuMap_lt hE (draw E (message s) 0#8)
    obtain ⟨hx1, hy1⟩ := sswuMap_lt hE (draw E (message s) 1#8)
    refine ⟨_, _, _, _, _, hx0, hy0, hx1, hy1, isImage_sswuMap hE _, isImage_sswuMap hE _,
      isSum_imageSum hE _ _, validPoint_imageSum hE _ _, ?_⟩
    rw [exec_h2c hE, withMessage_fits hfits]
    rfl
  · rw [exec_h2c hE, complete_withMessage_long hlong hflight]

end Sys2Proof.Machine

/-! ## Completions, drops and the interrupt (60_exceptions.md R230 to R244) -/

namespace Sys2Proof.Machine

open Sys2Proof.Config Sys2Proof.Claims

/-! ### UnsupportedGroup and IllegalCommand (60_exceptions.md R231, R236) -/

/-- Every legal command but NOP resolves its entry before any other check: the buffer range that FENC
and FDEC test first holds of a legal word (60_exceptions.md R231). -/
theorem needsCurve_of_wellFormed {i : Instr} (hwf : i.wellFormed = true) (hnop : i ≠ .nop) :
    NeedsCurve i := by
  cases i with
  | nop => exact absurd rfl hnop
  | fenc r off len => exact needsCurve_fenc hwf r
  | fdec r off len => exact needsCurve_fieldCommand (exec_fdec_inRange hwf r)
  | fmov | fldi | fadd | fsub | fmul | fsqr | fneg | finv | fpow | fissq | fsqrt | fsgn | feq | fcsel
  | fldc => exact needsCurve_fieldCommand fun _ => rfl
  | padd | pdbl | pvalid | pclr | pmul | pmk | px | py | pinf | pisinf | pmov | peq | h2b | sswu
  | h2c => exact needsCurve_of_withCurve fun _ => rfl

/-- Settles O34: a legal word's instruction is well formed, so the absent entry is its first failing
check. -/
theorem unsupportedGroupComesFirst : Obligations.UnsupportedGroupComesFirst := by
  intro s c habsent hflight
  refine ⟨fun w i hdec hnop => ?_, completeWord_ok (i := .nop) rfl s⟩
  obtain ⟨_, _, _, _, _, _, hwf⟩ := tests_of_decode_ok hdec
  rw [completeWord_ok hdec]
  exact needsCurve_of_wellFormed hwf hnop s c (registry_eq_none.mpr habsent) hflight

/-- Settles O35: the completion of an illegal word resolves no entry. -/
theorem illegalCommandCompletes : Obligations.IllegalCommandCompletes :=
  fun _ _ _ => completeWord_illegal

/-! ### Success or the error entry (60_exceptions.md R234, R238) -/

/-- Every word, legal or not, completes with success or with a defined error. -/
theorem completeWord_answer (w : Word) (s : State) :
    (∃ x, completeWord w s = complete s (.ok x)) ∨
      ∃ e, DefinedError e ∧ completeWord w s = complete s (.error e) := by
  cases hdec : decode w with
  | error e => exact .inr ⟨_, definedError_illegal e, completeWord_error hdec s⟩
  | ok i =>
    obtain ⟨r, hr, hallowed⟩ := exec_allowed i s
    rw [completeWord_ok hdec, hr]
    cases r with
    | ok x => exact .inl ⟨x, rfl⟩
    | error e => exact .inr ⟨e, hallowed, rfl⟩

/-- A success may write F, P and BUF, and otherwise only retires the command. -/
theorem complete_ok (s : State) (x : Effect) :
    ∃ f p buf, complete s (.ok x) = .next { done s with f := f, p := p, buf := buf } :=
  ⟨_, _, _, by rw [complete, completed_ok, apply_frame]; rfl⟩

/-- The pair of a defined error is one of the table's, and not that of reset: no kind has code 0. -/
theorem definedError_mem_tail {e : CmdError} (he : DefinedError e) :
    (e.kind.code, e.info) ∈ errorPairs.tail := by
  obtain hzero | htail := List.mem_cons.mp he
  · exact absurd (Prod.mk.inj hzero).1 (code_ne_zero e.kind)
  · exact htail

/-- Settles O36: every answer is a success or a defined error, and each completes in its own way. -/
theorem completionSucceedsOrFails : Obligations.CompletionSucceedsOrFails := by
  intro s c w hflight
  obtain ⟨x, hok⟩ | ⟨e, he, hfail⟩ := completeWord_answer w s
  · rw [hok]
    exact .inl (complete_ok s x)
  · exact .inr ⟨e.kind.code.toNat, e.info.toNat,
      List.mem_map_of_mem (f := Prod.map BitVec.toNat BitVec.toNat) (definedError_mem_tail he),
      hfail.trans (complete_error hflight e)⟩

/-! ### Drops (60_exceptions.md R242) -/

/-- A write to the place is ill-timed: a command while BUSY = 1 or ERR = 1, or data while BUSY = 1
(20_memory.md R80; 70_reset_and_hazards.md R265). -/
def IllTimed (s : State) (l : Place) : Prop :=
  (l = .cmd ∧ (s.status.busy = true ∨ s.status.err = true)) ∨
    ((l = .curveSel ∨ l = .msglen ∨ l.inWindow = true) ∧ s.status.busy = true)

/-- The writes that a disciplined host does not make are the ill-timed ones. -/
theorem disciplined_write_eq_false (s : State) (addr : WordAddr) (v : Word) :
    disciplined s (.write addr v) = false ↔ IllTimed s (placeOf addr) := by
  simp only [disciplined, IllTimed]
  cases placeOf addr with
  | cmd => cases s.status.busy <;> simp [Place.inWindow]
  | curveSel | msglen | field | point | buf => simp [Place.inWindow]
  | id | ctrl | status | errcode | errinfo | errcmd | cmdcnt | reserved => simp [Place.inWindow]

theorem writePlace_illTimed {s : State} {l : Place} (h : IllTimed s l) (v : Word) :
    writePlace s v l = s.dropped := by
  obtain ⟨rfl, hbad⟩ | ⟨rfl | rfl | hwindow, hbusy⟩ := h
  · exact if_pos (by simpa using hbad)
  · exact dataWrite_busy hbusy _
  · exact dataWrite_busy hbusy _
  · exact writePlace_window_busy hbusy v hwindow

/-- A write in time leaves DROP or clears it. -/
theorem drop_of_writePlace {s : State} {l : Place} (htimely : ¬ IllTimed s l) (v : Word)
    (hdrop : (writePlace s v l).status.drop = true) : s.status.drop = true := by
  have idle (hl : l = .curveSel ∨ l = .msglen ∨ l.inWindow = true) : s.status.busy = false :=
    Bool.eq_false_iff.mpr fun hbusy => htimely (.inr ⟨hl, hbusy⟩)
  cases l with
  | id | errcode | errinfo | errcmd | cmdcnt | reserved => exact hdrop
  | ctrl =>
    rw [writePlace, writeCtrl] at hdrop
    split at hdrop
    · cases hdrop
    · exact hdrop
  | status => exact (Bool.and_eq_true_iff.mp hdrop).1
  | cmd =>
    obtain ⟨-, -, haccept⟩ | ⟨hbad, -⟩ := writeCmd_cases s v
    · rwa [writePlace, haccept] at hdrop
    · exact absurd (.inl ⟨rfl, hbad⟩) htimely
  | curveSel => rwa [writePlace, dataWrite_idle (idle (.inl rfl))] at hdrop
  | msglen => rwa [writePlace, dataWrite_idle (idle (.inr (.inl rfl)))] at hdrop
  | field | point | buf => rwa [writePlace, dataWrite_idle (idle (.inr (.inr rfl)))] at hdrop

/-- Time alone does not touch DROP: a clock cycle waits, counts or completes. -/
theorem clockCycle_drop {s t : State} (ht : clockCycle s = .next t) :
    t.status.drop = s.status.drop := by
  obtain ⟨hidle, -⟩ | ⟨c, -, -, ⟨-, hcount⟩ | ⟨-, hlast⟩⟩ := clockCycle_cases s
  · rw [← Host.Outcome.next.inj (hidle.symm.trans ht)]
  · rw [← Host.Outcome.next.inj (hcount.symm.trans ht)]
  · obtain ⟨r, hr⟩ := completeWord_completes c.word s
    rw [← Host.Outcome.next.inj ((hlast.trans hr).symm.trans ht), completed_drop]

/-- A move that is no ill-timed write does not set DROP. -/
theorem drop_of_disciplined {s t : State} {e : Event} (hreset : s.resetIn = false)
    (he : disciplined s e = true) (ht : applyEvent s e = .next t) (hdrop : t.status.drop = true) :
    s.status.drop = true := by
  cases e with
  | read addr =>
    obtain rfl := Host.Outcome.next.inj ht
    rwa [busRead_frame] at hdrop
  | write addr v =>
    rw [write_place rfl hreset] at ht
    obtain rfl := Host.Outcome.next.inj ht
    refine drop_of_writePlace (fun hill => ?_) v hdrop
    rw [(disciplined_write_eq_false s addr v).mpr hill] at he
    cases he
  | cycle => rwa [clockCycle_drop ht] at hdrop
  | assertReset =>
    obtain rfl := Host.Outcome.next.inj ht
    cases hdrop
  | releaseReset =>
    obtain rfl := Host.Outcome.next.inj ht
    exact hdrop

/-- Settles O43: an undisciplined move is an ill-timed write, which only drops; no other move sets
DROP. -/
theorem dropsAreReportedExactly : Obligations.DropsAreReportedExactly := by
  intro s e hreset
  refine ⟨fun he => ⟨?_, rfl⟩, fun he t => drop_of_disciplined hreset he⟩
  cases e with
  | write addr v =>
    rw [write_place rfl hreset, writePlace_illTimed ((disciplined_write_eq_false s addr v).mp he)]
    rfl
  | read | cycle | assertReset | releaseReset => cases he

/-! ### The interrupt output (60_exceptions.md R243, R244) -/

theorem irq_iff (s : State) : s.irq = true ↔ (s.ctrl.doneie = true ∧ s.status.done = true) ∨
    (s.ctrl.errie = true ∧ s.status.err = true) := by
  simp only [State.irq, Bool.or_eq_true, Bool.and_eq_true]

@[simp] theorem completed_done (s : State) (r : CmdResult) : (s.completed r).status.done = true := by
  cases r <;> simp

/-- A CTRL write without SRST stores the enables, and irq follows them at once. -/
theorem irq_writeCtrl (s : State) {v : Word} (hsrst : v.getLsbD 2 = false) :
    (writeCtrl s v).irq = ((v.getLsbD 0 && s.status.done) || (v.getLsbD 1 && s.status.err)) := by
  rw [writeCtrl, hsrst]
  rfl

/-- With both enables 0, irq is 0: a CTRL write stores two zeros or resets. -/
theorem irq_writeCtrl_disabled (s : State) {v : Word} (hdoneie : v.getLsbD 0 = false)
    (herrie : v.getLsbD 1 = false) : (writeCtrl s v).irq = false := by
  cases hsrst : v.getLsbD 2 with
  | true => rw [writeCtrl, hsrst]; rfl
  | false => rw [irq_writeCtrl s hsrst, hdoneie, herrie]; rfl

/-- With DONE and ERR cleared, irq is 0. -/
theorem irq_writeStatus_cleared (s : State) {v : Word} (hdone : v.getLsbD 1 = true)
    (herr : v.getLsbD 2 = true) : (s.writeStatus v).irq = false := by
  simp [State.irq, hdone, herr]

/-- Settles O52: irq is read off the enables and the bits after each move. -/
theorem irqFollowsTheBits : Obligations.IrqFollowsTheBits := by
  refine ⟨irq_iff, fun w s t ht => ?_, fun s t v hreset hsrst ht => ?_,
    fun s t v hreset hdone herr ht => ?_, fun s t v hreset hdoneie herrie ht => ?_, fun _ => rfl⟩
  · obtain ⟨r, hr⟩ := completeWord_completes w s
    obtain rfl : s.completed r = t := Host.Outcome.next.inj (hr.symm.trans ht)
    rw [irq_iff, completed_ctrl, completed_done]
    exact ⟨fun hdoneie => .inl ⟨hdoneie, rfl⟩, fun herrie herr => .inr ⟨herrie, herr⟩⟩
  · rw [← Host.Outcome.next.inj ((write_ctrl hreset v).symm.trans ht), irq_writeCtrl s hsrst]
  · rw [← Host.Outcome.next.inj ((write_status hreset v).symm.trans ht),
      irq_writeStatus_cleared s hdone herr]
  · rw [← Host.Outcome.next.inj ((write_ctrl hreset v).symm.trans ht),
      irq_writeCtrl_disabled s hdoneie herrie]

end Sys2Proof.Machine

/-! ## Reset, hazards and time (70_reset_and_hazards.md)

Each section says what the moves of one kind do, and reads the statements off it. -/

namespace Sys2Proof.Machine

open Sys2Proof.Config Sys2Proof.Claims

/-! ### The operands of a command in flight (70_reset_and_hazards.md R266) -/

/-- After a move from `s` to `t` no command is in flight, or it is the same word, with the same inputs
in the same unit. -/
def Frozen (s t : State) : Prop :=
  t.inflight = none ∨ (t.inflight.map InFlight.word = s.inflight.map InFlight.word ∧ t.f = s.f ∧
    t.p = s.p ∧ t.buf = s.buf ∧ t.curveSel = s.curveSel ∧ t.msglen = s.msglen ∧ t.tags = s.tags)

section Moves

variable {s : State}

theorem frozen_self (s : State) : Frozen s s := .inr ⟨rfl, rfl, rfl, rfl, rfl, rfl, rfl⟩

theorem frozen_busRead (s : State) (addr : WordAddr) : Frozen s (busRead s addr) := by
  rw [busRead_frame]
  exact frozen_self s

/-- While BUSY = 1 every ill-timed write drops; of the others CTRL and STATUS take theirs, and neither
holds an operand (20_memory.md R80). -/
theorem frozen_writePlace (hbusy : s.status.busy = true) (v : Word) (l : Place) :
    Frozen s (writePlace s v l) := by
  have dropped (hill : IllTimed s l) : Frozen s (writePlace s v l) := by
    rw [writePlace_illTimed hill]
    exact frozen_self s
  cases l with
  | id | errcode | errinfo | errcmd | cmdcnt | reserved | status => exact frozen_self s
  | ctrl =>
    rw [writePlace, writeCtrl]
    split
    · exact .inl rfl
    · exact frozen_self s
  | cmd => exact dropped (.inl ⟨rfl, .inl hbusy⟩)
  | curveSel => exact dropped (.inr ⟨.inl rfl, hbusy⟩)
  | msglen => exact dropped (.inr ⟨.inr (.inl rfl), hbusy⟩)
  | field | point | buf => exact dropped (.inr ⟨.inr (.inr rfl), hbusy⟩)

/-- While the reset input is asserted every write is ignored (70_reset_and_hazards.md R263). -/
theorem busWrite_held (hreset : s.resetIn = true) (addr : WordAddr) (v : Word) :
    busWrite s addr v = s := by
  rw [busWrite, if_pos hreset]

theorem frozen_busWrite (hbusy : s.status.busy = true) (addr : WordAddr) (v : Word) :
    Frozen s (busWrite s addr v) := by
  cases hreset : s.resetIn with
  | true => rw [busWrite_held hreset]; exact frozen_self s
  | false => rw [busWrite_place rfl hreset]; exact frozen_writePlace hbusy v _

/-- A clock cycle waits, counts, or completes and leaves no command in flight. -/
theorem frozen_clockCycle {t : State} (ht : clockCycle s = .next t) : Frozen s t := by
  obtain ⟨hidle, -⟩ | ⟨c, -, hflight, ⟨-, hcount⟩ | ⟨-, hlast⟩⟩ := clockCycle_cases s
  · obtain rfl := Host.Outcome.next.inj (hidle.symm.trans ht)
    exact frozen_self s
  · obtain rfl := Host.Outcome.next.inj (hcount.symm.trans ht)
    exact .inr ⟨by rw [hflight]; rfl, rfl, rfl, rfl, rfl, rfl, rfl⟩
  · obtain ⟨r, hr⟩ := completeWord_completes c.word s
    obtain rfl := Host.Outcome.next.inj ((hlast.trans hr).symm.trans ht)
    exact .inl (completed_inflight s r)

theorem frozen_applyEvent (hbusy : s.status.busy = true) {t : State} {e : Event}
    (ht : applyEvent s e = .next t) : Frozen s t := by
  cases e with
  | read addr => exact Host.Outcome.next.inj ht ▸ frozen_busRead s addr
  | write addr v => exact Host.Outcome.next.inj ht ▸ frozen_busWrite hbusy addr v
  | cycle => exact frozen_clockCycle ht
  | assertReset => exact Host.Outcome.next.inj ht ▸ .inl rfl
  | releaseReset => exact Host.Outcome.next.inj ht ▸ frozen_self s

end Moves

/-- Settles O55: a move from a busy state ends the command or leaves its word and operands. -/
theorem operandsAreFrozen : Obligations.OperandsAreFrozen := by
  intro s t e c c' hbusy hflight ht hflight'
  obtain hnone | ⟨hword, hoperands⟩ := frozen_applyEvent hbusy ht
  · rw [hnone] at hflight'; cases hflight'
  · rw [hflight, hflight'] at hword
    exact ⟨Option.some.inj hword, hoperands⟩

/-! ### Acceptance and drop of a command (70_reset_and_hazards.md R265) -/

/-- Settles O41: an idle unit with ERR = 0 accepts, and any other CMD write is ill-timed. -/
theorem commandIsAcceptedOrDropped : Obligations.CommandIsAcceptedOrDropped := by
  intro s w hreset
  refine ⟨fun hbusy herr => ⟨latencyOf w s, s.draws + 1, latencyOf_pos w s, ?_⟩, fun hbad => ?_⟩
  · rw [write_cmd hreset, writeCmd_accepted hbusy herr]; rfl
  · have hdrop : writeCmd s w = s.dropped := writePlace_illTimed (.inl ⟨rfl, hbad⟩) w
    rw [write_cmd hreset, hdrop]; rfl

/-! ### Reset (70_reset_and_hazards.md R260 to R263) -/

/-- The two resets: the assertion of the input, and a CTRL write of a unit out of reset. -/
theorem applyEvent_resets {s : State} {e : Event} (h : resets s e = true) :
    (e = .assertReset ∧ applyEvent s e = .next { s.resetUnit with resetIn := true }) ∨
      (e ≠ .assertReset ∧ s.resetIn = false ∧ applyEvent s e = .next s.resetUnit) := by
  cases e with
  | assertReset => exact .inl ⟨rfl, rfl⟩
  | write addr v =>
    simp only [resets, Bool.and_eq_true, Bool.not_eq_true', decide_eq_true_eq] at h
    obtain ⟨⟨hreset, hplace⟩, hsrst⟩ := h
    refine .inr ⟨Event.noConfusion, hreset, ?_⟩
    rw [write_place hplace hreset, writePlace, writeCtrl, if_pos hsrst]
  | read | cycle | releaseReset => cases h

/-- A unit that has just been reset accepts a command at once (70_reset_and_hazards.md R263). -/
theorem write_cmd_resetUnit {s : State} (hreset : s.resetIn = false) (w : Word) :
    applyEvent s.resetUnit (.write (wordAt 0x0018) w) = .next (acceptCommand s.resetUnit w) := by
  rw [write_cmd (s := s.resetUnit) hreset, writeCmd_accepted rfl rfl]

/-- A clock cycle of a unit held in reset changes nothing (log 18). -/
theorem clockCycle_held {s : State} (hreset : s.resetIn = true) : clockCycle s = .next s := by
  rw [clockCycle, if_pos hreset]

/-- Settles O53: both resets end in the reset unit, which differs only in the level of the input. -/
theorem resetDiscardsAndIdles : Obligations.ResetDiscardsAndIdles := by
  refine ⟨fun s e he => ?_, fun s a v hreset => ⟨congrArg _ (busWrite_held hreset a v),
    clockCycle_held hreset, rfl⟩⟩
  obtain ⟨rfl, ht⟩ | ⟨hsoft, hreset, ht⟩ := applyEvent_resets he
  · exact ⟨_, ht, rfl, rfl, rfl, rfl, rfl, rfl, rfl, rfl, rfl, rfl, rfl, fun _ => rfl,
      fun hne => absurd rfl hne⟩
  · exact ⟨_, ht, rfl, rfl, rfl, rfl, rfl, rfl, rfl, rfl, rfl, rfl, rfl, fun hhard => absurd hhard hsoft,
      fun _ => ⟨hreset, fun w => ⟨_, write_cmd_resetUnit hreset w, rfl, rfl⟩⟩⟩

/-- Settles O54: the registers of the reset state are written out in its definition, and entry 0 is
P-384. -/
theorem resetValues : Obligations.ResetValues :=
  ⟨rfl, rfl, rfl, rfl, rfl, rfl, rfl, rfl, rfl, rfl, rfl, rfl, registry_default.1⟩

/-- Settles O60: the reset state is idle, with no error and an empty list of cells for BUF. -/
theorem resetMeetsInvariant : Obligations.ResetMeetsInvariant where
  buf := rfl
  busy := rfl
  calm := rfl
  pair := (by decide : (0#4, 0#4) ∈ errorPairs)
  cause := fun herr => absurd herr Bool.false_ne_true
  time := rfl
  held := fun _ => rfl

/-! ### Latency (70_reset_and_hazards.md R271, R272) -/

/-- Every word, legal or not, answers the same in two states that agree on what a command reads. -/
theorem SameInputs.completeWord_same {s s' : State} (h : SameInputs s s') (w : Word) :
    ∃ r, completeWord w s = .next (s.completed r) ∧ completeWord w s' = .next (s'.completed r) := by
  cases hdecode : decode w with
  | ok i => rw [completeWord_ok hdecode, completeWord_ok hdecode]; exact h.exec_same i
  | error e => exact ⟨.error _, completeWord_error hdecode s, completeWord_error hdecode s'⟩

/-- ERR after a completion depends on ERR before it and on the answer alone. -/
theorem completed_err_congr {s s' : State} (herr : s.status.err = s'.status.err) (r : CmdResult) :
    (s.completed r).status.err = (s'.completed r).status.err := by
  cases r with
  | ok x => simpa using herr
  | error e => rfl

/-- Acceptance changes nothing that a command reads (10_state.md R49). -/
theorem sameInputs_acceptCommand (s : State) (w : Word) : SameInputs s (acceptCommand s w) :=
  ⟨rfl, rfl, rfl, rfl, rfl⟩

/-- Whether a command fails is settled at its acceptance. -/
theorem completesInError_of_completion {s u : State} {w : Word}
    (hu : completeWord w (acceptCommand s w) = .next u) :
    completesInError w s = u.status.err := by
  obtain ⟨r, hr, hr'⟩ := (sameInputs_acceptCommand s w).completeWord_same w
  obtain rfl := Host.Outcome.next.inj (hr'.symm.trans hu)
  rw [completesInError, hr]
  exact completed_err_congr (s := s) (s' := acceptCommand s w) rfl r

/-- The latency of a command that succeeds is LAT of its opcode, the curve and the message length. -/
theorem latencyOf_success {s : State} {w : Word} (h : completesInError w s = false) :
    latencyOf w s = latency (opcodeOf w) s.curveSel (latencyLen (opcodeOf w) s) + 1 := by
  rw [latencyOf, h]; rfl

/-- LAT sees MSGLEN for H2B and H2C only. -/
theorem latencyLen_congr {s s' : State} {op : BitVec 6}
    (h : op = 0x30#6 ∨ op = 0x32#6 → s.msglen = s'.msglen) : latencyLen op s = latencyLen op s' := by
  unfold latencyLen
  split
  case isTrue hop => rw [h hop]
  case isFalse => rfl

/-- A command accepted by an idle unit that then succeeds carries LAT as its latency. -/
theorem latency_of_accepted {s t u : State} {w : Word} {c : InFlight} (hreset : s.resetIn = false)
    (hbusy : s.status.busy = false) (herr : s.status.err = false)
    (ht : applyEvent s (.write (wordAt 0x0018) w) = .next t) (hc : t.inflight = some c)
    (hu : completeWord w t = .next u) (hok : u.status.err = false) :
    c.latency = latency (opcodeOf w) s.curveSel (latencyLen (opcodeOf w) s) + 1 := by
  rw [write_cmd hreset, writeCmd_accepted hbusy herr] at ht
  obtain rfl := Host.Outcome.next.inj ht
  obtain rfl := Option.some.inj hc
  exact latencyOf_success ((completesInError_of_completion hu).trans hok)

/-- Settles O56: both latencies are LAT, of one opcode, one curve and one message length. -/
theorem latencyIsConstantTime : Obligations.LatencyIsConstantTime := by
  intro s s' t t' u u' w w' c c' hreset hreset' hbusy hbusy' herr herr' hop hcurve hmsglen ht ht' hc hc'
    hu hu' hok hok'
  rw [latency_of_accepted hreset hbusy herr ht hc hu hok,
    latency_of_accepted hreset' hbusy' herr' ht' hc' hu' hok', ← hop, hcurve, latencyLen_congr hmsglen]

/-! ### Termination (70_reset_and_hazards.md R273, R275) -/

/-- The command in flight one cycle later. -/
def InFlight.counted (c : InFlight) : InFlight := { c with elapsed := c.elapsed + 1 }

/-- The machine with one more cycle counted for the command `c` in flight. -/
def State.counted (s : State) (c : InFlight) : State := { s with inflight := some c.counted }

section Termination

variable {s : State} {c : InFlight}

/-- Before the last cycle of its latency a command in flight counts one cycle. -/
theorem clockCycle_counts (hreset : s.resetIn = false) (hflight : s.inflight = some c)
    (hearly : c.elapsed + 1 < c.latency) :
    clockCycle s = .next (s.counted c) := by
  simp [clockCycle, State.counted, InFlight.counted, hreset, hflight, hearly]

/-- On the last cycle of its latency a command in flight completes. -/
theorem clockCycle_completes (hreset : s.resetIn = false) (hflight : s.inflight = some c)
    (hlast : c.latency ≤ c.elapsed + 1) : clockCycle s = completeWord c.word s := by
  simp [clockCycle, hreset, hflight, hlast]

/-- With no more moves a step is a clock cycle. -/
theorem step_quiet (hsched : s.sched = []) : step s = clockCycle s := by
  obtain ⟨-, -, hquiet⟩ := stepRunsDecodedCommand
  exact hquiet s hsched

/-- With no more moves the cycles left of its latency run a command to its completion: every cycle but
the last only counts, and the count does not change what the completion gives. -/
theorem run_completes (n : Nat) : ∀ {s : State} {c : InFlight}, s.resetIn = false →
    s.inflight = some c → s.sched = [] → c.latency = c.elapsed + (n + 1) →
      Host.Core.run Sys2Proof.core (n + 1) s = completeWord c.word s := by
  induction n with
  | zero =>
    intro s c hreset hflight hsched hleft
    obtain ⟨r, hr⟩ := completeWord_completes c.word s
    have hstep : step s = .next (s.completed r) :=
      (step_quiet hsched).trans ((clockCycle_completes hreset hflight hleft.le).trans hr)
    rw [run_next hstep, hr]; rfl
  | succ n ih =>
    intro s c hreset hflight hsched hleft
    have hstep : step s = .next (s.counted c) :=
      (step_quiet hsched).trans (clockCycle_counts hreset hflight (by omega))
    have hleft' : c.counted.latency = c.counted.elapsed + (n + 1) := by
      simp only [InFlight.counted]; omega
    exact (run_next hstep (n + 1)).trans
      ((ih (s := s.counted c) (c := c.counted) hreset rfl hsched hleft').trans
        (completeWord_elapsed c.word hflight (c.elapsed + 1)))

/-- With no more moves the run is over exactly when BUSY = 0 (70_reset_and_hazards.md R275). -/
theorem runOver_quiet (hsched : s.sched = []) : runOver s = !s.status.busy := by
  rw [runOver, hsched]; rfl

end Termination

/-- Settles O57: the invariant gives a command at least one cycle, and its cycles complete it. -/
theorem commandsTerminate : Obligations.CommandsTerminate := by
  intro s c hs hreset hflight hsched
  have htime : c.elapsed < c.latency := by
    have hintime := hs.time
    rw [hflight] at hintime
    exact of_decide_eq_true hintime
  have hbusy : s.status.busy = true := by rw [hs.busy, hflight]; rfl
  obtain ⟨n, hn⟩ : ∃ n, c.latency - c.elapsed = n + 1 := ⟨c.latency - c.elapsed - 1, by omega⟩
  obtain ⟨r, hr⟩ := completeWord_completes c.word s
  refine ⟨s.completed r, ?_, hr, completed_busy s r, completed_done s r, completed_inflight s r, ?_, ?_⟩
  · rw [hn]
    exact (run_completes n hreset hflight hsched (by omega)).trans hr
  · rw [runOver_quiet hsched, hbusy]; rfl
  · rw [runOver_quiet ((completed_sched s r).trans hsched), completed_busy]; rfl

end Sys2Proof.Machine
